-- ==== Sys2Proof/Word.lean ====
section
/-! DEFINITION. The words of WTOSC: what the ports and the registers carry (R7, R9, R50, R52, R70, R80). -/

namespace Sys2Proof

/-- One byte on a port (R53). -/
abbrev Byte := BitVec 8

/-- A `u32`: an integer in [0, 2^32) (R8). -/
abbrev U32 := BitVec 32

/-- A `binary32`: its 32 bits, sign in bit 31, biased exponent in bits 30:23, fraction in bits 22:0 (R9). -/
abbrev F32 := BitVec 32

/-- A command word, OPC[63:56], RSV[55:32], ARG[31:0] (R70). -/
abbrev CommandWord := BitVec 64

/-- An input frame of the sample port: raw_input[k] in bits 31:0, control_input[k] in bits 63:32 (R52). -/
abbrev FrameWord := BitVec 64

/-- A response word, STATUS[63:56], zero[55:32], DATA[31:0] (R80). -/
abbrev ResponseWord := BitVec 64

end Sys2Proof
end

