-- ==== Sys2Proof/Syntax.lean ====
section
/-! DEFINITION. The commands of WTOSC, one constructor per row of spec/opcode_table.json (R76). -/

namespace Sys2Proof

/-- The argument kinds (R71): how ARG is read. -/
inductive ArgKind where
  /-- ARG must be 0 (R72). -/
  | none
  /-- ARG is an unsigned 32-bit integer (R73). -/
  | u32
  /-- ARG is a binary32 bit pattern (R74). -/
  | f32
  /-- ARG[31:1] must be 0 and ARG[0] is the value (R75). -/
  | bool
deriving DecidableEq, Repr

/-- One command (R76). An argument is the command's ARG field as it stands in the word. -/
inductive Instr where
  /-- CAPTURE_START (R120), kind NONE. -/
  | captureStart
  /-- SET_SIZE (R102 to R105): the requested N. -/
  | setSize (a : U32)
  /-- SET_MODE (R170): the mode index. -/
  | setMode (k : U32)
  /-- SET_ATTACK_MS (R142): the time in milliseconds. -/
  | setAttackMs (t : F32)
  /-- SET_DECAY_MS (R143): the time in milliseconds. -/
  | setDecayMs (t : F32)
  /-- SET_ENV_ENABLE (R145), kind BOOL: bit 0 is the value. -/
  | setEnvEnable (b : U32)
  /-- SET_SAMPLE_RATE (R144): the rate in Hz. -/
  | setSampleRate (r : F32)
  /-- PROCESS_BLOCK (R200): the block length n. -/
  | processBlock (n : U32)
  /-- READ_REG (R203): the register number. -/
  | readReg (r : U32)
  /-- READ_TABLE (R106): the table index. -/
  | readTable (x : U32)
deriving DecidableEq, Repr

/-- The command's opcode (R76). -/
def Instr.opcode : Instr → Byte
  | .captureStart => 0x01#8
  | .setSize _ => 0x02#8
  | .setMode _ => 0x03#8
  | .setAttackMs _ => 0x04#8
  | .setDecayMs _ => 0x05#8
  | .setEnvEnable _ => 0x06#8
  | .setSampleRate _ => 0x07#8
  | .processBlock _ => 0x08#8
  | .readReg _ => 0x09#8
  | .readTable _ => 0x0A#8

/-- The command's argument kind (R76). -/
def Instr.kind : Instr → ArgKind
  | .captureStart => .none
  | .setSize _ => .u32
  | .setMode _ => .u32
  | .setAttackMs _ => .f32
  | .setDecayMs _ => .f32
  | .setEnvEnable _ => .bool
  | .setSampleRate _ => .f32
  | .processBlock _ => .u32
  | .readReg _ => .u32
  | .readTable _ => .u32

/-- The command's ARG field (R70); CAPTURE_START's is 0 (R72). -/
def Instr.arg : Instr → U32
  | .captureStart => 0#32
  | .setSize a => a
  | .setMode k => k
  | .setAttackMs t => t
  | .setDecayMs t => t
  | .setEnvEnable b => b
  | .setSampleRate r => r
  | .processBlock n => n
  | .readReg r => r
  | .readTable x => x

end Sys2Proof
end

