-- ==== Sys2Proof/WellFormed.lean ====
section
/-! DEFINITION. When a command's argument is well formed for its kind (R71 to R75). -/

namespace Sys2Proof

/-- Which ARG values are well formed for a kind: NONE only 0 (R72), BOOL only 0 and 1 (R75), U32 and F32 every pattern
(R73, R74). -/
def ArgKind.wellFormed : ArgKind → U32 → Bool
  | .none, a => a == 0#32
  | .u32, _ => true
  | .f32, _ => true
  | .bool, a => a.extractLsb' 1 31 == 0#31

/-- A command is well formed when its argument is, for its kind (R71). -/
def Instr.wellFormed (i : Instr) : Bool := i.kind.wellFormed i.arg

end Sys2Proof
end

