-- ==== Sys2Proof/Decode.lean ====
section
/-! DEFINITION. Decoding a command word (R70 to R79, R87), its encoder, and the byte order of the ports (R53). -/

namespace Sys2Proof

/-- Why a word or a run of bytes is no command. -/
inductive DecodeError where
  /-- OPC is 0x00 or 0x0B to 0xFF (R77). -/
  | reservedOpcode
  /-- RSV is not 0 (R78). -/
  | reservedBits
  /-- ARG is malformed for its kind (R72, R75). -/
  | malformedArg
  /-- Fewer than the 8 bytes of a command word (R70). -/
  | tooFewBytes
deriving DecidableEq, Repr

/-- OPC, bits 63:56 (R70). -/
def opcField (w : CommandWord) : Byte := w.extractLsb' 56 8

/-- RSV, bits 55:32 (R70). -/
def rsvField (w : CommandWord) : BitVec 24 := w.extractLsb' 32 24

/-- ARG, bits 31:0 (R70). -/
def argField (w : CommandWord) : U32 := w.extractLsb' 0 32

/-- A row of the opcode map (R76). -/
structure OpRow where
  opc : Byte
  kind : ArgKind
  build : U32 → Instr

/-- The opcode map (R76). -/
def opcodeMap : List OpRow := [
  ⟨0x01#8, .none, fun _ => .captureStart⟩,
  ⟨0x02#8, .u32, .setSize⟩,
  ⟨0x03#8, .u32, .setMode⟩,
  ⟨0x04#8, .f32, .setAttackMs⟩,
  ⟨0x05#8, .f32, .setDecayMs⟩,
  ⟨0x06#8, .bool, .setEnvEnable⟩,
  ⟨0x07#8, .f32, .setSampleRate⟩,
  ⟨0x08#8, .u32, .processBlock⟩,
  ⟨0x09#8, .u32, .readReg⟩,
  ⟨0x0A#8, .u32, .readTable⟩]

/-- Checks 2 to 4 of the decode order (R79): the opcode, then RSV, then ARG; the first failure decides. -/
def decode (w : CommandWord) : Except DecodeError Instr :=
  match opcodeMap.find? (fun row => row.opc == opcField w) with
  | none => .error .reservedOpcode
  | some row =>
    if rsvField w ≠ 0#24 then .error .reservedBits
    else if row.kind.wellFormed (argField w) then .ok (row.build (argField w))
    else .error .malformedArg

/-- The command word of a command (R70, R76). -/
def encode (i : Instr) : CommandWord := i.opcode ++ 0#24 ++ i.arg

/-- A word of n bytes as the port sends it, least significant byte first (R53). -/
def bytesOfWord (n : Nat) (w : BitVec (8 * n)) : List Byte :=
  (List.range n).map fun k => w.extractLsb' (8 * k) 8

/-- The number that bytes sent least significant first stand for (R53). -/
def natOfBytes : List Byte → Nat
  | [] => 0
  | b :: bs => b.toNat + 256 * natOfBytes bs

/-- The 64-bit word of 8 bytes sent least significant first (R53). -/
def wordOfBytes (bs : List Byte) : BitVec 64 := BitVec.ofNat 64 (natOfBytes bs)

/-- Reads one command from the command port: the next 8 bytes, least significant first (R70); the rest follows. -/
def decodeBytes (bs : List Byte) : Except DecodeError (Instr × List Byte) :=
  if bs.length < 8 then .error .tooFewBytes
  else
    match decode (wordOfBytes (bs.take 8)) with
    | .ok i => .ok (i, bs.drop 8)
    | .error e => .error e

/-- How many bytes of frames follow a command word: ARG × 8 for OPC 0x08, accepted or not; none for every other opcode
(R87). -/
def trailingBytes (w : CommandWord) : Nat :=
  if opcField w = 0x08#8 then (argField w).toNat * 8 else 0

/-- The word whose bits are w, numbered as spec/opcode_table.json numbers them; every bit above nbits is 0. -/
def tableWord (nbits w : Nat) : CommandWord := BitVec.ofNat 64 (w % 2 ^ nbits)

/-- The command the decoder reads from the bytes of a table word, laid out as the port carries them. -/
def decodeTableWord (nbits w : Nat) : Option Instr :=
  match decodeBytes (bytesOfWord 8 (tableWord nbits w)) with
  | .ok (i, _) => some i
  | .error _ => none

end Sys2Proof
end

