-- ==== Sys2Proof/Config.lean ====
section
/-! DEFINITION. What the spec leaves open: the implementation parameters NaNDraw, COEFF and N_MAX (R6), and the free value
of one primitive outside its stated domain. Each free value is an opaque constant: no proof can see what it is. -/

namespace Sys2Proof

/-- COEFF (R6, R140): a deterministic, total function of (time_ms, sample_rate) and nothing else. The spec fixes its
real-valued definition but not its rounding, so nothing is assumed of it (log 3). -/
opaque Config.coeff : F32 → F32 → F32

/-- The free part of N_MAX, see `Config.nMax` (log 4). -/
opaque Config.nMaxStep : Fin 22

/-- N_MAX (R6): the largest table size the store can hold, a power of two with 1024 ≤ N_MAX ≤ 2^31 (log 4). -/
def Config.nMax : Nat := 2 ^ (10 + Config.nMaxStep.val)

/-- NaNDraw (R6, R11): the sign (bit 22) and the 22 free payload bits of the n-th computed quiet NaN, under no law (log 2). -/
opaque Config.freeNaN : Nat → BitVec 23

/-- `floorNat p` where the spec states no value: p not finite, or p < 0 (R10). No run from reset reaches it (log 13). -/
opaque Config.freeFloor : F32 → Nat

end Sys2Proof
end

