-- ==== Sys2Proof/Machine/State.lean ====
section
/-! DEFINITION. The state of WTOSC (R20 to R37), its reset value (R260), and the reasons a step can stop. -/

namespace Sys2Proof.Machine

/-- The fault kinds (R233). A meaning TAKES a fault as a next state, the FAULT bit set and the block ended (R234, R205); the
step that raised it answers `Host.Outcome.fault` with its kind (log 1). -/
inductive Fault where
  /-- Bit 0. Raised by a playback sample whose advanced phase is NaN or infinite (R180). Safe: the run stops, as R234 says. -/
  | nonfinitePhase
  /-- Bit 1. Raised by the kernel dispatch on MODE = 3 (R176); unreachable from reset. Safe, as `nonfinitePhase`. -/
  | internalMode
deriving DecidableEq, Repr

/-- Why the model could not run an instruction. -/
inductive Refusal where
  /-- Raised by exec's arm of an instruction that has no meaning yet. Safe: the model stops. No arm of this model does. -/
  | notModelled (mnemonic : String)
deriving DecidableEq, Repr

/-- CAP_STATE (R35): "tagged variant {Idle, Recording(remaining: u32)}". -/
inductive CapState where
  | idle
  | recording (remaining : U32)
deriving DecidableEq, Repr

/-- The status a response reports (R81). -/
inductive Status where
  | ok
  | validationError
  | resourceError
  | faulted
deriving DecidableEq, Repr

/-- The wavetable (R50): (index, word) pairs in one canonical form, indices strictly rising, no entry equal to
0x00000000, which is what an unlisted word reads as (R100) (log 5). -/
abbrev Table := List (Nat × BitVec 32)

/-- The in-progress command (R37): a command word of opcode 0x08 whose frames have not all been consumed (R82). -/
structure Block where
  /-- Frames of this command still to be consumed. -/
  todo : Nat
  /-- The sample index k of the next slot (R21). -/
  slot : Nat
  /-- The slot at which a capture completed, if one did: `done` of R200. -/
  done : Option Nat
  /-- none while slots run; else the status the command ends with, its remaining frames being consumed and ignored
  (R82, R205). -/
  verdict : Option Status
deriving DecidableEq, Repr

/-- The whole state of the machine. -/
structure State where
  /-- SIZE (R23), the table size N. MASK (R24) is `State.mask`. -/
  size : U32
  /-- MODE (R25). -/
  mode : BitVec 2
  /-- ENV_EN (R26). -/
  envEn : Bool
  /-- ATTACK_MS (R27). -/
  attackMs : F32
  /-- DECAY_MS (R28). -/
  decayMs : F32
  /-- SAMPLE_RATE (R29). -/
  sampleRate : F32
  /-- ATTACK_COEFF (R30). -/
  attackCoeff : F32
  /-- DECAY_COEFF (R31). -/
  decayCoeff : F32
  /-- ENV_LAST (R32). -/
  envLast : F32
  /-- PHASE (R33). -/
  phase : F32
  /-- PHASE_INC (R34). -/
  phaseInc : F32
  /-- CAP_STATE (R35). -/
  capState : CapState
  /-- FAULT (R36): bit 0 NONFINITE_PHASE, bit 1 INTERNAL_MODE. -/
  fault : BitVec 2
  /-- TABLE (R50). -/
  table : Table
  /-- The command queue (R37), the next word first. -/
  queue : List CommandWord
  /-- The in-progress command, at most one (R37). -/
  inProgress : Option Block
  /-- Input frames the host has supplied and the device has not consumed (R52, R82), the next one first. -/
  frames : List FrameWord
  /-- Output words sent on the sample port (R52), oldest first. The model's own record of a stream (log 10). -/
  outputs : List F32
  /-- Response words sent on the command port (R80), oldest first. The model's own record of a stream (log 10). -/
  responses : List ResponseWord
  /-- How many draws of NaNDraw have been numbered (R11). The model's own field (log 2); no statement rests on it. -/
  draws : Nat
deriving DecidableEq, Repr

/-- MASK (R24): hardwired to SIZE - 1, with no writer of its own (log 11). -/
def State.mask (s : State) : U32 := s.size - 1#32

/-- The state after reset (R260). -/
def State.reset : State where
  size := 1024#32
  mode := 0#2
  envEn := false
  attackMs := 0x41200000#32
  decayMs := 0x43FA0000#32
  sampleRate := 0x472C4400#32
  attackCoeff := Config.coeff 0x41200000#32 0x472C4400#32
  decayCoeff := Config.coeff 0x43FA0000#32 0x472C4400#32
  envLast := 0#32
  phase := 0#32
  phaseInc := 0#32
  capState := .idle
  fault := 0#2
  table := []
  queue := []
  inProgress := none
  frames := []
  outputs := []
  responses := []
  draws := 0

end Sys2Proof.Machine
end

