-- ==== Sys2Proof/Machine/Flags.lean ====
section
/-! DEFINITION. The status indications (R40): CAP_STATUS.REC and CAP_REMAINING (R35, R39), the FAULT bits (R36, R233), the
capture-done field (R202, R238), and the status codes of a response (R81). WTOSC has no condition codes. -/

namespace Sys2Proof.Machine

/-- STATUS of a response word (R81). -/
def statusCode : Status → Byte
  | .ok => 0x00#8
  | .validationError => 0x01#8
  | .resourceError => 0x02#8
  | .faulted => 0x03#8

/-- The FAULT bit of a fault kind (R233). -/
def faultBit : Fault → BitVec 2
  | .nonfinitePhase => 0b01#2
  | .internalMode => 0b10#2

/-- CAP_STATUS (R39): bit 0 is REC, 1 while Recording. -/
def capStatus : CapState → U32
  | .idle => 0#32
  | .recording _ => 1#32

/-- CAP_REMAINING (R39): r while Recording(r), 0 while Idle. -/
def capRemaining : CapState → U32
  | .idle => 0#32
  | .recording r => r

/-- The capture-done field of PROCESS_BLOCK's response (R202): k + 1 if a capture completed at slot k, else 0. -/
def doneField : Option Nat → U32
  | none => 0#32
  | some k => BitVec.ofNat 32 (k + 1)

end Sys2Proof.Machine
end

