-- ==== Sys2Proof/Machine/Float.lean ====
section
/-! DEFINITION. binary32 (R9) and its arithmetic primitives (R10): every operation rounds its exact result once, ties to
even, subnormals kept, nothing fused. A finite value is held exactly as an integer count of 2^-149, the smallest
subnormal. The IEEE 754 special cases R10 refers to without listing them are log 18. -/

namespace Sys2Proof.Machine

/-! The fields and classes of a binary32 (R9). -/

/-- The sign, bit 31. -/
def signBit (x : F32) : Bool := x.getLsbD 31

/-- The biased exponent, bits 30:23. -/
def expField (x : F32) : Nat := (x.extractLsb' 23 8).toNat

/-- The fraction, bits 22:0. -/
def fracField (x : F32) : Nat := (x.extractLsb' 0 23).toNat

def isNaN (x : F32) : Bool := expField x == 255 && fracField x != 0

def isInf (x : F32) : Bool := expField x == 255 && fracField x == 0

/-- `isFinite` (R9): neither an infinity nor a NaN. -/
def isFinite (x : F32) : Bool := expField x != 255

/-- 2^149: the scale of `scaled` and `magnitude`: 1 is 2^149 smallest subnormals. -/
def scale : Nat := 2 ^ 149

/-- |⟦x⟧| · 2^149 for a finite x. For an infinity it is a number above that of every finite x. -/
def magnitude (x : F32) : Nat :=
  if expField x = 0 then fracField x else (2 ^ 23 + fracField x) * 2 ^ (expField x - 1)

/-- ⟦x⟧ · 2^149 for a finite x. -/
def scaled (x : F32) : Int := if signBit x then -(magnitude x : Int) else (magnitude x : Int)

/-! round32 (R9). -/

/-- The 31 bits below the sign of round32 of m · 2^-p, for p ≥ 149: to nearest, ties to even; subnormal below 2^-126, and
infinity (0x7F800000) on overflow. `drop` low bits of m lie below the result's last place; a carry out of the significand
runs into the exponent field. -/
def roundMag (m p : Nat) : Nat :=
  let drop := max (m.log2 - 23) (p - 149)
  let kept := m / 2 ^ drop
  let lost := m % 2 ^ drop
  let up := 2 ^ drop < 2 * lost ∨ (2 * lost = 2 ^ drop ∧ kept % 2 = 1)
  min ((drop - (p - 149)) * 2 ^ 23 + (if up then kept + 1 else kept)) 0x7F800000

/-- round32 of ±m · 2^-p, for p ≥ 149 (R9). -/
def round32 (neg : Bool) (m p : Nat) : F32 := BitVec.ofBool neg ++ BitVec.ofNat 31 (roundMag m p)

/-- round32 of ±num / den, for den > 0 (R9): the quotient to 2^-200, doubled, with its last bit set when anything is left
over, rounds as the exact ratio does. Used for decimal literals (R85). -/
def round32Ratio (neg : Bool) (num den : Nat) : F32 :=
  round32 neg (2 * (num * 2 ^ 200 / den) + (if num * 2 ^ 200 % den = 0 then 0 else 1)) 201

/-! Computed NaNs (R11). -/

/-- The d-th draw of NaNDraw (R11): a quiet NaN with a free sign and a free payload (log 2). -/
def nanDraw (d : Nat) : F32 :=
  (Config.freeNaN d).extractLsb' 22 1 ++ 0x1FF#9 ++ (Config.freeNaN d).extractLsb' 0 22

/-! The arithmetic primitives (R10). Their first argument numbers the draw of NaNDraw that a NaN result takes. -/

/-- The operand with its sign bit flipped; fsub adds it. -/
def fneg (x : F32) : F32 := x ^^^ 0x80000000#32

/-- `fabs` (R10): bit 31 cleared, bit-exact even for a NaN. -/
def fabs (x : F32) : F32 := x &&& 0x7FFFFFFF#32

/-- `fadd` (R10). ∞ - ∞ is a NaN; an exact zero sum is +0.0 unless both operands are -0.0. -/
def fadd (d : Nat) (a b : F32) : F32 :=
  if isNaN a || isNaN b then nanDraw d
  else if isInf a then
    if isInf b && signBit a != signBit b then nanDraw d else a
  else if isInf b then b
  else if scaled a + scaled b = 0 then
    if signBit a && signBit b then 0x80000000#32 else 0#32
  else round32 (decide (scaled a + scaled b < 0)) (scaled a + scaled b).natAbs 149

/-- `fsub` (R10): a - b is a + (-b). -/
def fsub (d : Nat) (a b : F32) : F32 := fadd d a (fneg b)

/-- `fmul` (R10). 0 × ∞ is a NaN; otherwise the sign is the exclusive or of the operands' signs. -/
def fmul (d : Nat) (a b : F32) : F32 :=
  if isNaN a || isNaN b then nanDraw d
  else if isInf a || isInf b then
    if magnitude a = 0 ∨ magnitude b = 0 then nanDraw d
    else BitVec.ofBool (signBit a != signBit b) ++ 0x7F800000#31
  else round32 (signBit a != signBit b) (magnitude a * magnitude b) 298

/-- `fgt` (R10): the ordered greater-than, false if either operand is NaN; +0.0 and -0.0 are equal. -/
def fgt (a b : F32) : Bool := !isNaN a && !isNaN b && decide (scaled b < scaled a)

/-- `toF32` (R10): the binary32 of the integer n. -/
def toF32 (n : Nat) : F32 := round32 false (n * scale) 149

/-- `floorNat` (R10): the largest integer ≤ ⟦p⟧ for finite p with ⟦p⟧ ≥ 0. Elsewhere the spec states no value: a free
value (log 13). -/
def floorNat (p : F32) : Nat :=
  if isFinite p ∧ 0 ≤ scaled p then (scaled p).toNat / scale else Config.freeFloor p

/-- WRAP (R177), for finite p and N = size: p itself if 0 ≤ ⟦p⟧ < N, else round32 of ⟦p⟧ − N·floor(⟦p⟧ / N), with N itself
taken to +0.0. -/
def wrap (size : Nat) (p : F32) : F32 :=
  if 0 ≤ scaled p ∧ scaled p < (size * scale : Nat) then p
  else
    let q := round32 false (scaled p % ((size * scale : Nat) : Int)).toNat 149
    if scaled q = (size * scale : Nat) then 0#32 else q

end Sys2Proof.Machine
end

