-- ==== Sys2Proof/Machine/Operands.lean ====
section
/-! DEFINITION. The operands of the commands and of the slots: the value checks of each argument, and the two samples of an
input frame. -/

namespace Sys2Proof.Machine

/-- A legal table size (R102): a ≥ 2 and a & (a - 1) = 0, that is, a power of two from 2. -/
def legalSize (a : U32) : Bool := decide (2#32 ≤ a) && (a &&& (a - 1#32)) == 0#32

/-- A legal mode index (R170): not above 2. -/
def legalMode (k : U32) : Bool := decide (k ≤ 2#32)

/-- A legal time or rate (R142, R143, R144): finite and > 0. -/
def legalTime (t : F32) : Bool := isFinite t && decide (0 < scaled t)

/-- The value of a BOOL argument, ARG[0] (R75). -/
def enableBit (b : U32) : Bool := b.getLsbD 0

/-- raw_input[k], bits 31:0 of frame k (R52, R82). -/
def frameRaw (f : FrameWord) : F32 := f.extractLsb' 0 32

/-- control_input[k], bits 63:32 of frame k (R52, R82). -/
def frameControl (f : FrameWord) : F32 := f.extractLsb' 32 32

end Sys2Proof.Machine
end

