-- ==== Sys2Proof/Machine/Ops.lean ====
section
/-! DEFINITION. The named operations over the state: the wavetable's reads and writes (R50, R100, R101), register reads
(R39), responses and outputs (R80, R52), taking a fault (R234) and reset, the only way back (R235, R261), the command
queue (R37, R58), and what the host does between steps. -/

namespace Sys2Proof.Machine

/-! The wavetable. -/

/-- The canonical form of a table: indices strictly rising, no entry equal to what an unlisted word reads as. -/
abbrev Table.wf (t : Table) : Prop := t.Pairwise (fun a b => a.1 < b.1) ∧ ∀ c ∈ t, c.2 ≠ 0#32

/-- The word at an index; a word not written since the last reallocation is 0x00000000, the zero-fill (R100). -/
def tableGet : Table → Nat → BitVec 32
  | [], _ => 0#32
  | (b, u) :: t, a => if a = b then u else tableGet t a

/-- The table with the word at index a set to v (R101), in canonical form. -/
def tableSet : Table → Nat → BitVec 32 → Table
  | [], a, v => if v = 0#32 then [] else [(a, v)]
  | (b, u) :: t, a, v =>
    if a < b then (if v = 0#32 then (b, u) :: t else (a, v) :: (b, u) :: t)
    else if a = b then (if v = 0#32 then t else (a, v) :: t)
    else (b, u) :: tableSet t a v

/-- `i & MASK` on the two's-complement form of an integer index (R8, R50); MASK has 32 bits, so the low 32 bits of i
decide. -/
def maskIndex (i : Int) (s : State) : Nat := (BitVec.ofInt 32 i &&& s.mask).toNat

/-- MemRead(i, 1) (R50, R100). -/
def memRead (i : Int) (s : State) : F32 := tableGet s.table (maskIndex i s)

/-- MemWrite(i, 1, v) (R50, R101). -/
def memWrite (i : Int) (v : F32) (s : State) : State :=
  { s with table := tableSet s.table (maskIndex i s) v }

/-! Registers. -/

/-- The value of register r as R39 lists it; numbers from 0x0F are reserved (none). -/
def registerValue (r : U32) (s : State) : Option U32 :=
  match r.toNat with
  | 0x00 => some s.size
  | 0x01 => some s.mask
  | 0x02 => some (s.mode.setWidth 32)
  | 0x03 => some (if s.envEn then 1#32 else 0#32)
  | 0x04 => some s.attackMs
  | 0x05 => some s.decayMs
  | 0x06 => some s.sampleRate
  | 0x07 => some s.attackCoeff
  | 0x08 => some s.decayCoeff
  | 0x09 => some s.envLast
  | 0x0A => some s.phase
  | 0x0B => some s.phaseInc
  | 0x0C => some (capStatus s.capState)
  | 0x0D => some (capRemaining s.capState)
  | 0x0E => some (s.fault.setWidth 32)
  | _ => none

/-! The ports' outgoing streams. -/

/-- A response word: STATUS[63:56], 0[55:32], DATA[31:0] (R80). -/
def responseWord (code : Status) (data : U32) : ResponseWord := statusCode code ++ 0#24 ++ data

/-- `respond(code, data)` (R12, R80): the response is sent. -/
def respond (code : Status) (data : U32) (s : State) : State :=
  { s with responses := s.responses ++ [responseWord code data] }

/-- `emit(k, v)` (R12, R52): the slot's output word is sent. -/
def emit (v : F32) (s : State) : State := { s with outputs := s.outputs ++ [v] }

/-! Errors and faults. -/

/-- `raise VALIDATION_ERROR()` (R231): a response with DATA 0, no state change. -/
def raiseValidationError (s : State) : State := respond .validationError 0#32 s

/-- `raise RESOURCE_ERROR()` (R232): a response with DATA 0, no state change. -/
def raiseResourceError (s : State) : State := respond .resourceError 0#32 s

/-- Fault entry (R234): FAULT[bit(kind)] is set, other bits stay. There is no vector, no saved pc and no mode change. The
block that raised it ends as `Block.afterEvent` says (R205), and `unlessFaulted` gates every later command. -/
def raiseFault (kind : Fault) (s : State) : State := { s with fault := s.fault ||| faultBit kind }

/-- The fault kind raised between two states, seen in their FAULT bits (R233): none on a device that was faulted before, since
a faulted device runs no slot (R235). -/
def raisedFault (s t : State) : Option Fault :=
  if s.fault ≠ 0#2 then none
  else if t.fault = faultBit .nonfinitePhase then some .nonfinitePhase
  else if t.fault = faultBit .internalMode then some .internalMode
  else none

/-- A fault is the fault outcome of the step that raised it, never its final state (R205, R234) (log 1). -/
def stopAtFault (s : State) : Host.Outcome State Fault Refusal → Host.Outcome State Fault Refusal
  | .next t =>
    match raisedFault s t with
    | some k => .fault k
    | none => .next t
  | o => o

/-- Check 1 of the decode order (R79): on a faulted device a command answers FAULTED and does nothing (R205); otherwise
the machine goes on to t. -/
def unlessFaulted (s t : State) : Host.Outcome State Fault Refusal :=
  .next (if s.fault = 0#2 then t else respond .faulted 0#32 s)

/-- Reset asserted between steps (R261, R262): every element of R260 takes its reset value, and the queue, the in-progress
command and the remaining frames are discarded. It is the only return from a fault (R235). What the ports have already
sent stays sent, and no draw of NaNDraw is used twice (log 16). Frames of an interrupted block that the host sends only
after the reset are frames like any other: they wait for the next OPC 0x08 word (log 22, DESIGN CHOICE). -/
def State.applyReset (s : State) : State :=
  { State.reset with outputs := s.outputs, responses := s.responses, draws := s.draws }

/-! The command queue and the host's inputs. -/

/-- The next command word of the queue and the state without it (R58): first in, first out. -/
def fetch (s : State) : Option (CommandWord × State) :=
  match s.queue with
  | [] => none
  | w :: ws => some (w, { s with queue := ws })

/-- A host path issues a command word (R37, R60): it joins the queue's end. -/
def State.issue (w : CommandWord) (s : State) : State := { s with queue := s.queue ++ [w] }

/-- The host supplies an input frame (R82). One supplied before any OPC 0x08 word is outstanding is kept, and the next such
word takes it (log 21, DESIGN CHOICE). -/
def State.supply (f : FrameWord) (s : State) : State := { s with frames := s.frames ++ [f] }

/-! Slots and blocks. -/

/-- What a sample slot tells its block. -/
inductive SlotEvent where
  /-- Nothing: the block goes on. -/
  | quiet
  /-- A capture completed in this slot (R122). -/
  | captureDone
  /-- The slot raised a fault (R234). -/
  | faulted
deriving DecidableEq, Repr

end Sys2Proof.Machine
end

