-- ==== Sys2Proof/Machine/Capture.lean ====
section
/-! DEFINITION. The Capture Controller: CAPTURE_START and the capture sample (R120 to R126). -/

namespace Sys2Proof.Machine

/-- CAPTURE_START (R120): Recording(SIZE), whatever CAP_STATE was. -/
def execCaptureStart (s : State) : Host.Outcome State Fault Refusal :=
  unlessFaulted s (respond .ok 0#32 { s with capState := .recording s.size })

/-- CAPTURE_COMPLETE(k) (R122): Idle, PHASE and PHASE_INC +0.0; ENV_LAST stays. -/
def captureComplete (s : State) : State := { s with capState := .idle, phase := 0#32, phaseInc := 0#32 }

/-- The capture sample at Recording(r) (R121, R123): raw_input[k] goes to word N - r, the output is +0.0, control_input[k]
is not read. -/
def captureSample (r : U32) (f : FrameWord) (s : State) : State × SlotEvent :=
  let t := emit 0#32 (memWrite ((s.size.toNat : Int) - r.toNat) (frameRaw f) s)
  if r = 1#32 then (captureComplete t, .captureDone)
  else ({ t with capState := .recording (r - 1#32) }, .quiet)

end Sys2Proof.Machine
end

