-- ==== Sys2Proof/Machine/Envelope.lean ====
section
/-! DEFINITION. The Envelope Follower: SET_ATTACK_MS, SET_DECAY_MS, SET_SAMPLE_RATE, SET_ENV_ENABLE and the envelope update
(R140 to R150). -/

namespace Sys2Proof.Machine

/-- RECOMPUTE (R141): both coefficients from COEFF, and ENV_LAST to +0.0. -/
def recompute (s : State) : State :=
  { s with
    attackCoeff := Config.coeff s.attackMs s.sampleRate
    decayCoeff := Config.coeff s.decayMs s.sampleRate
    envLast := 0#32 }

/-- SET_ATTACK_MS (R142). -/
def execSetAttackMs (t : F32) (s : State) : Host.Outcome State Fault Refusal :=
  unlessFaulted s <|
    if legalTime t then respond .ok 0#32 (recompute { s with attackMs := t }) else raiseValidationError s

/-- SET_DECAY_MS (R143). -/
def execSetDecayMs (t : F32) (s : State) : Host.Outcome State Fault Refusal :=
  unlessFaulted s <|
    if legalTime t then respond .ok 0#32 (recompute { s with decayMs := t }) else raiseValidationError s

/-- SET_SAMPLE_RATE (R144). -/
def execSetSampleRate (r : F32) (s : State) : Host.Outcome State Fault Refusal :=
  unlessFaulted s <|
    if legalTime r then respond .ok 0#32 (recompute { s with sampleRate := r }) else raiseValidationError s

/-- SET_ENV_ENABLE (R145): ENV_EN only; a malformed BOOL is a VALIDATION_ERROR (R75). -/
def execSetEnvEnable (b : U32) (s : State) : Host.Outcome State Fault Refusal :=
  unlessFaulted s <|
    if ArgKind.bool.wellFormed b then respond .ok 0#32 { s with envEn := enableBit b } else raiseValidationError s

/-- The follower's step toward m with coefficient c: c · (last − m) + m, as fsub, fmul, fadd (R147, R148). d numbers the
first of its three draws. -/
def followerStep (d : Nat) (c last m : F32) : F32 :=
  fadd (d + 2) (fmul (d + 1) c (fsub d last m)) m

/-- ATTACK(m) (R147): the new ENV_LAST. -/
def attack (d : Nat) (m : F32) (s : State) : F32 := followerStep d s.attackCoeff s.envLast m

/-- DECAY(m) (R148): the new ENV_LAST. -/
def decay (d : Nat) (m : F32) (s : State) : F32 := followerStep d s.decayCoeff s.envLast m

/-- ENV_UPDATE(x) (R146): the magnitude estimate and the state after it. Disabled, x itself passes, bit for bit, and
ENV_LAST stays; enabled, the attack branch runs if |x| > ENV_LAST, else the decay branch (R147, R148). -/
def envUpdate (d : Nat) (x : F32) (s : State) : F32 × State :=
  if s.envEn then
    let e := if fgt (fabs x) s.envLast then attack d (fabs x) s else decay d (fabs x) s
    (e, { s with envLast := e })
  else (x, s)

end Sys2Proof.Machine
end

