-- ==== Sys2Proof/Machine/Oscillator.lean ====
section
/-! DEFINITION. The Phase Accumulator and Interpolator: SET_MODE, the increment, the kernels and the playback sample (R170
to R181). Every operation of a slot that can give a NaN has its own draw number, counted from the slot's first. -/

namespace Sys2Proof.Machine

/-- SET_MODE (R170). -/
def execSetMode (k : U32) (s : State) : Host.Outcome State Fault Refusal :=
  unlessFaulted s <|
    if legalMode k then respond .ok 0#32 { s with mode := k.setWidth 2 } else raiseValidationError s

/-- The phase increment |m| · N (R171). -/
def increment (d : Nat) (m : F32) (s : State) : F32 := fmul d (fabs m) (toF32 s.size.toNat)

/-- The table index i = floorNat(PHASE) & MASK (R172). -/
def phaseIndex (s : State) : Nat := maskIndex (floorNat s.phase) s

/-- The fraction f = PHASE - floorNat(PHASE) (R172). -/
def phaseFraction (d : Nat) (s : State) : F32 := fsub d s.phase (toF32 (floorNat s.phase))

/-- The Truncate kernel (R173). -/
def truncate (i : Int) (s : State) : F32 := memRead i s

/-- The Linear2 kernel (R174): fsub, fmul, fadd. -/
def linear2 (d : Nat) (i : Int) (f : F32) (s : State) : F32 :=
  let a := memRead i s
  let b := memRead (i + 1) s
  fadd (d + 2) a (fmul (d + 1) f (fsub d b a))

/-- The Cubic4 kernel (R175) over its four points. -/
def hermite (d : Nat) (f inm1 in0 inp1 inp2 : F32) : F32 :=
  let c1 := fsub d inp1 inm1
  let c2 := fsub (d + 6)
    (fsub (d + 5) (fadd (d + 3) (fmul (d + 1) 0x40800000#32 inp1) (fmul (d + 2) 0x40000000#32 inm1))
      (fmul (d + 4) 0x40A00000#32 in0))
    inp2
  let c3 := fadd (d + 10) (fsub (d + 9) (fmul (d + 8) 0x40400000#32 (fsub (d + 7) in0 inp1)) inm1) inp2
  let sum := fadd (d + 14) c1 (fmul (d + 13) f (fadd (d + 12) c2 (fmul (d + 11) f c3)))
  fadd (d + 17) in0 (fmul (d + 16) (fmul (d + 15) 0x3F000000#32 f) sum)

/-- The Cubic4 kernel (R175): T(i-1), T(i), T(i+1), T(i+2), all masked. -/
def cubic4 (d : Nat) (i : Int) (f : F32) (s : State) : F32 :=
  hermite d f (memRead (i - 1) s) (memRead i s) (memRead (i + 1) s) (memRead (i + 2) s)

/-- INTERP(MODE, PHASE) (R176): none is the raise of FAULT(INTERNAL_MODE) at MODE = 3. -/
def interp (d : Nat) (s : State) : Option F32 :=
  match s.mode.toNat with
  | 0 => some (truncate (phaseIndex s) s)
  | 1 => some (linear2 (d + 1) (phaseIndex s) (phaseFraction d s) s)
  | 2 => some (cubic4 (d + 1) (phaseIndex s) (phaseFraction d s) s)
  | _ => none

/-- How many draws of NaNDraw a playback sample numbers: 3 in the envelope update, 1 in the increment, 1 in the fraction,
18 in the kernel, 1 in the advance. -/
def drawsPerSlot : Nat := 24

/-- The end of a playback sample (R179, R180): the phase advances by inc and wraps, or the slot raises
FAULT(NONFINITE_PHASE) and PHASE is not written. -/
def advance (d : Nat) (inc : F32) (s : State) : State × SlotEvent :=
  let p := fadd d s.phase inc
  if isFinite p then ({ s with phase := wrap s.size.toNat p }, .quiet)
  else (raiseFault .nonfinitePhase s, .faulted)

/-- The first half of a playback sample (R179): ENV_UPDATE on control_input[k], and PHASE_INC. The increment, and the state
after both. raw_input[k] is not read. -/
def beginPlayback (f : FrameWord) (s : State) : F32 × State :=
  let u := envUpdate s.draws (frameControl f) s
  let inc := increment (s.draws + 3) u.1 u.2
  (inc, { u.2 with phaseInc := inc, draws := s.draws + drawsPerSlot })

/-- The playback sample (R179): envelope and increment, then the output at the current phase, then the advance. -/
def playbackSample (f : FrameWord) (s : State) : State × SlotEvent :=
  let b := beginPlayback f s
  match interp (s.draws + 4) b.2 with
  | none => (raiseFault .internalMode b.2, .faulted)
  | some y => advance (s.draws + 23) b.1 (emit y b.2)

end Sys2Proof.Machine
end

