-- ==== Sys2Proof/Machine/Block.lean ====
section
/-! DEFINITION. The Block Processor and the system commands: PROCESS_BLOCK, READ_REG, invalid command words and the faulted
device (R200 to R205, R82). -/

namespace Sys2Proof.Machine

/-- SLOT(k) (R201): the kind of the slot is decided by CAP_STATE at its start. -/
def slot (f : FrameWord) (s : State) : State × SlotEvent :=
  match s.capState with
  | .recording r => captureSample r f s
  | .idle => playbackSample f s

/-- The block after a slot: the next sample index; `done` at a completion (R122, R200); the end of the slots at a fault
(R205). -/
def Block.afterEvent (b : Block) : SlotEvent → Block
  | .quiet => { b with todo := b.todo - 1, slot := b.slot + 1 }
  | .captureDone => { b with todo := b.todo - 1, slot := b.slot + 1, done := some b.slot }
  | .faulted => { b with todo := b.todo - 1, slot := b.slot + 1, verdict := some .faulted }

/-- One frame of the in-progress command: a slot runs on it, or it is consumed and ignored because the command was rejected
or the device is faulted (R82, R205). -/
def frameStep (b : Block) (f : FrameWord) (s : State) : Block × State :=
  match b.verdict with
  | some _ => ({ b with todo := b.todo - 1 }, s)
  | none => (b.afterEvent (slot f s).2, (slot f s).1)

/-- The status the block ends with: OK unless it was rejected or faulted (R200, R205). -/
def Block.status (b : Block) : Status := b.verdict.getD .ok

/-- DATA of the block's response: the capture-done field (R202), 0 for every non-OK status (R80). -/
def Block.data (b : Block) : U32 :=
  match b.verdict with
  | some _ => 0#32
  | none => doneField b.done

/-- Where a block stands once the frames at hand are used: it responds if no frame is owed, else it stays in progress and
waits for the host's next frame (R82, log 7). -/
def settle (b : Block) (rest : List FrameWord) (s : State) : State :=
  if b.todo = 0 then respond b.status b.data { s with frames := rest, inProgress := none }
  else { s with frames := rest, inProgress := some b }

/-- Runs a block over the frames at hand, in order (R200). -/
def runFrames : List FrameWord → Block → State → State
  | [], b, s => settle b [] s
  | f :: fs, b, s =>
    if b.todo = 0 then settle b (f :: fs) s
    else runFrames fs (frameStep b f s).1 (frameStep b f s).2

/-- Starts a command of opcode 0x08 with n frames to come, its status already decided or not, and runs it (R82). -/
def startBlock (n : Nat) (verdict : Option Status) (s : State) : State :=
  runFrames s.frames ⟨n, 0, none, verdict⟩ s

/-- PROCESS_BLOCK (R200); on a faulted device its frames are consumed and it answers FAULTED (R205). -/
def execProcessBlock (n : U32) (s : State) : Host.Outcome State Fault Refusal :=
  .next (startBlock n.toNat (if s.fault = 0#2 then none else some .faulted) s)

/-- READ_REG (R203); it is carried out on a faulted device too (R205). -/
def execReadReg (r : U32) (s : State) : Host.Outcome State Fault Refusal :=
  .next <|
    match registerValue r s with
    | some v => respond .ok v s
    | none => raiseValidationError s

/-- The status of a command word that is no command: FAULTED on a faulted device, unless OPC is READ_REG's (check 1 of
R79); else VALIDATION_ERROR (R204). -/
def rejectStatus (w : CommandWord) (s : State) : Status :=
  if s.fault ≠ 0#2 ∧ opcField w ≠ 0x09#8 then .faulted else .validationError

/-- A command word that is no command (R204): no state changes; for OPC 0x08 its ARG frames are consumed and ignored
(R82). -/
def rejectWord (w : CommandWord) (s : State) : State :=
  if opcField w = 0x08#8 then startBlock (argField w).toNat (some (rejectStatus w s)) s
  else respond (rejectStatus w s) 0#32 s

end Sys2Proof.Machine
end

