-- ==== Sys2Proof/Machine/Store.lean ====
section
/-! DEFINITION. The Wavetable Store: SET_SIZE and READ_TABLE (R100 to R106). -/

namespace Sys2Proof.Machine

/-- REALLOCATE(a) (R105, R62): a table of a zero words, SIZE (and with it MASK), Idle, PHASE and PHASE_INC +0.0, in one
step. -/
def reallocate (a : U32) (s : State) : State :=
  { s with table := [], size := a, capState := .idle, phase := 0#32, phaseInc := 0#32 }

/-- SET_SIZE (R102): the power-of-two check, then the same size (R103), then N_MAX (R104), then the genuine resize (R105). -/
def execSetSize (a : U32) (s : State) : Host.Outcome State Fault Refusal :=
  unlessFaulted s <|
    if ¬ legalSize a then raiseValidationError s
    else if a = s.size then respond .ok 0#32 s
    else if Config.nMax < a.toNat then raiseResourceError s
    else respond .ok 0#32 (reallocate a s)

/-- READ_TABLE (R106): DATA is the word at i & MASK, bit for bit. -/
def execReadTable (x : U32) (s : State) : Host.Outcome State Fault Refusal :=
  unlessFaulted s (respond .ok (memRead x.toNat s) s)

end Sys2Proof.Machine
end

