-- ==== Sys2Proof/Machine/Dispatch.lean ====
section
/-! DEFINITION. The dispatch: one arm per command, each one call of its meaning. -/

namespace Sys2Proof.Machine

def exec (i : Instr) (s : State) : Host.Outcome State Fault Refusal :=
  match i with
  | .captureStart => Sys2Proof.Machine.execCaptureStart s
  | .setSize a => Sys2Proof.Machine.execSetSize a s
  | .setMode k => Sys2Proof.Machine.execSetMode k s
  | .setAttackMs t => Sys2Proof.Machine.execSetAttackMs t s
  | .setDecayMs t => Sys2Proof.Machine.execSetDecayMs t s
  | .setEnvEnable b => Sys2Proof.Machine.execSetEnvEnable b s
  | .setSampleRate r => Sys2Proof.Machine.execSetSampleRate r s
  | .processBlock n => Sys2Proof.Machine.execProcessBlock n s
  | .readReg r => Sys2Proof.Machine.execReadReg r s
  | .readTable x => Sys2Proof.Machine.execReadTable x s

end Sys2Proof.Machine
end

