-- ==== Sys2Proof/Machine/Sequencer.lean ====
section
/-! DEFINITION. What the device does in one step (R20, R58, R79), past a fault too (R205). -/

namespace Sys2Proof.Machine

/-- The device's own transition. A command in progress takes the frames that have come since (R82). Otherwise the next command
word leaves the queue (R58): a word that is a command is executed, any other is rejected (R204). With an empty queue the
device is idle and keeps all its state (R245, R262) (log 9). A fault is taken as R205 says, so this transition also tells what
the device answers after it. -/
def deviceStep (s : State) : Host.Outcome State Fault Refusal :=
  match s.inProgress with
  | some b => .next (runFrames s.frames b s)
  | none =>
    match fetch s with
    | none => .next s
    | some (w, t) =>
      match decode w with
      | .ok i => exec i t
      | .error _ => .next (rejectWord w t)

end Sys2Proof.Machine
end

