-- ==== Sys2Proof/Machine/Step.lean ====
section
/-! DEFINITION. One step of the machine: the device's transition, with a raised fault as its outcome (R205, R234). -/

namespace Sys2Proof.Machine

/-- One step: what the device does, unless a fault is raised, which is the step's outcome and never a final state (R205,
R234) (log 1). -/
def step (s : State) : Host.Outcome State Fault Refusal := stopAtFault s (deviceStep s)

/-- The state with a command word of the opcode table at the head of the queue and no command in progress, so that the
very next step runs it. No frame is supplied: a PROCESS_BLOCK takes those the state already holds (log 15). -/
def State.withFetchWord (s : State) (nbits w : Nat) : State :=
  { s with queue := tableWord nbits w :: s.queue, inProgress := none }

end Sys2Proof.Machine
end

