-- ==== Sys2Proof/Safety.lean ====
section
/-! DEFINITION. What counts as a well-formed state and a fault-free run, in the terms the claims use (R38, R234, R60), and
the real-valued coefficient that COEFF stands for (R140). -/

namespace Sys2Proof.Safety

open Sys2Proof.Machine

/-- The well-formedness of R38, with the canonical form of the table's list. It is kept in faulted states too. -/
structure Inv (s : State) : Prop where
  /-- SIZE is a power of two from 2 … -/
  size_pow : ∃ k, 1 ≤ k ∧ s.size.toNat = 2 ^ k
  /-- … up to N_MAX. -/
  size_le : s.size.toNat ≤ Config.nMax
  /-- The table's list is in canonical form … -/
  table_wf : Table.wf s.table
  /-- … and lists no word beyond SIZE. -/
  table_range : ∀ c ∈ s.table, c.1 < s.size.toNat
  /-- MODE ∈ {0, 1, 2}. -/
  mode_legal : s.mode ≠ 3#2
  /-- ATTACK_MS, DECAY_MS and SAMPLE_RATE are finite and > 0. -/
  attack_legal : legalTime s.attackMs = true
  decay_legal : legalTime s.decayMs = true
  rate_legal : legalTime s.sampleRate = true
  /-- The coefficients are COEFF of the times and the rate. -/
  attack_coeff : s.attackCoeff = Config.coeff s.attackMs s.sampleRate
  decay_coeff : s.decayCoeff = Config.coeff s.decayMs s.sampleRate
  /-- PHASE is finite with 0 ≤ ⟦PHASE⟧ < SIZE. -/
  phase_finite : isFinite s.phase = true
  phase_nonneg : 0 ≤ scaled s.phase
  phase_lt : scaled s.phase < (s.size.toNat * scale : Nat)
  /-- CAP_STATE is Idle or Recording(r) with 1 ≤ r ≤ SIZE. -/
  cap_range : ∀ r, s.capState = .recording r → 1 ≤ r.toNat ∧ r.toNat ≤ s.size.toNat

/-- FAULT = 0: the premise R234 asks of a claim about a run. -/
def FaultFree (s : State) : Prop := s.fault = 0#2

/-- The device with no stop at a fault: its runs go on as R205 says a faulted device goes on, READ_REG answered and every
other command FAULTED (log 1). -/
def device : Host.Core := { Sys2Proof.core with step := deviceStep }

/-- Commands executed one after the other, each to completion (R58), until one stops. -/
def execAll : List Instr → State → Host.Outcome State Fault Refusal
  | [], s => .next s
  | i :: is, s =>
    match exec i s with
    | .next t => execAll is t
    | o => o

/-- cs is an interleaving of the two issuers' sequences that keeps each one's own order (R60). -/
inductive Interleaving {α : Type} : List α → List α → List α → Prop where
  | nil : Interleaving [] [] []
  | audio {a : α} {as bs cs : List α} : Interleaving as bs cs → Interleaving (a :: as) bs (a :: cs)
  | control {b : α} {as bs cs : List α} : Interleaving as bs cs → Interleaving as (b :: bs) (b :: cs)

/-- ⟦x⟧ (R9), the real value of a finite binary32. -/
noncomputable def realValue (x : F32) : ℝ := (scaled x : ℝ) / (scale : ℝ)

/-- c(t, s) = exp(ln(0.01) / (⟦t⟧ · ⟦s⟧ · 0.001)) in exact real arithmetic (R140). -/
noncomputable def coeffReal (t r : F32) : ℝ :=
  Real.exp (Real.log 0.01 / (realValue t * realValue r * 0.001))

/-- f is COEFF_ref (R6, R140): on legal arguments its value is a binary32 nearest to c(t, s), the even one of two. -/
def IsCoeffRef (f : F32 → F32 → F32) : Prop :=
  ∀ t r : F32, legalTime t = true → legalTime r = true →
    isFinite (f t r) = true ∧ signBit (f t r) = false ∧
    ∀ y : F32, isFinite y = true → realValue y ≠ realValue (f t r) →
      |realValue (f t r) - coeffReal t r| < |realValue y - coeffReal t r| ∨
      (|realValue (f t r) - coeffReal t r| = |realValue y - coeffReal t r| ∧ (f t r).getLsbD 0 = false)

end Sys2Proof.Safety
end

