-- ==== Sys2Proof/Certificates/Slice0/Obligations.lean ====
section
/-! DEFINITION. The statements about WTOSC, each from the spec's numbered rules. Response words are written out:
0x00… OK, 0x01… VALIDATION_ERROR, 0x02… RESOURCE_ERROR, 0x03… FAULTED (R80, R81). -/

open Sys2Proof Sys2Proof.Machine Sys2Proof.Safety

/-! ## Encoding -/

/-- The assembler examples of R85 decode to the commands they stand for (95_test_vectors.md ENC-1, ENC-4). -/
def Obligations.SpecExampleWordsDecode : Prop :=
  decode 0x0100000000000000#64 = .ok .captureStart ∧
  decode 0x0200000000000400#64 = .ok (.setSize 1024#32) ∧
  decode 0x0300000000000002#64 = .ok (.setMode 2#32) ∧
  decode 0x0400000041200000#64 = .ok (.setAttackMs 0x41200000#32) ∧
  decode 0x0500000040000000#64 = .ok (.setDecayMs 0x40000000#32) ∧
  decode 0x0600000000000001#64 = .ok (.setEnvEnable 1#32) ∧
  decode 0x07000000447A0000#64 = .ok (.setSampleRate 0x447A0000#32) ∧
  decode 0x0800000000000008#64 = .ok (.processBlock 8#32) ∧
  decode 0x090000000000000A#64 = .ok (.readReg 0x0A#32) ∧
  decode 0x0A00000000000006#64 = .ok (.readTable 6#32)

/-- Decoding the bytes of an encoded well-formed command, least significant byte first (R53), gives the command and leaves
the bytes after it, with every ARG value (R70, R76). -/
def Obligations.DecodeOfEncodedBytes : Prop :=
  ∀ (i : Instr) (rest : List Byte), i.wellFormed = true →
    decodeBytes (bytesOfWord 8 (encode i) ++ rest) = .ok (i, rest)

/-- A word that decodes is the encoding of what it decodes to, and that command is well formed: no bit is dropped. -/
def Obligations.EncodeOfDecodedWord : Prop :=
  ∀ (w : CommandWord) (i : Instr), decode w = .ok i → encode i = w ∧ i.wellFormed = true

/-- A word is a command exactly when it matches one of R76's match/mask pairs. -/
def Obligations.DecodedWordsAreTheOpcodeTable : Prop :=
  ∀ w : CommandWord, (∃ i, decode w = .ok i) ↔
    (w &&& 0xFFFFFFFFFFFFFFFF#64 = 0x0100000000000000#64 ∨
     w &&& 0xFFFFFFFFFFFFFFFE#64 = 0x0600000000000000#64 ∨
     ∃ opc ∈ [2, 3, 4, 5, 7, 8, 9, 10], w &&& 0xFFFFFFFF00000000#64 = BitVec.ofNat 64 opc <<< 56)

/-! ## The sequencer -/

/-- When no command is in progress and the next word of the queue is a command, the device does that command's meaning, run
on the state with the word taken from the queue (R58); the step answers what the device did, or the fault raised in it (R205,
R234). -/
def Obligations.StepRunsDecodedInstruction : Prop :=
  ∀ (w : CommandWord) (ws : List CommandWord) (i : Instr) (s : State),
    s.inProgress = none → s.queue = w :: ws → decode w = .ok i →
    deviceStep s = exec i { s with queue := ws } ∧ step s = stopAtFault s (exec i { s with queue := ws })

/-- With an empty queue and nothing in progress the device is idle with all state kept (R245). That an idle device takes a
step at all is the model's choice (log 9). -/
def Obligations.IdleStepKeepsState : Prop :=
  ∀ s : State, s.inProgress = none → s.queue = [] → step s = .next s

/-- The device goes on from every state: nothing suspends, retries or times out (R245). The step answers the state the device
ends in, but for the fault it raised (R205, R234). -/
def Obligations.StepAnswersNextOrItsFault : Prop :=
  ∀ s : State, ∃ t, deviceStep s = .next t ∧
    (raisedFault s t = none → step s = .next t) ∧ (∀ k, raisedFault s t = some k → step s = .fault k)

/-- On a device without a fault, a fault is the fault outcome of its step, with the kind whose FAULT bit is set, and never the
step's final state (R205, R234). -/
def Obligations.FaultIsTheOutcomeOfItsStep : Prop :=
  ∀ s t : State, FaultFree s → deviceStep s = .next t →
    (FaultFree t → step s = .next t) ∧ (¬ FaultFree t → ∃ k, t.fault = faultBit k ∧ step s = .fault k)

/-- No run that starts without a fault ends in a faulted state (R205, R234). -/
def Obligations.NoRunEndsFaulted : Prop :=
  ∀ (n : Nat) (s t : State), FaultFree s → Host.Core.run Sys2Proof.core n s = .next t → FaultFree t

/-- Words issued later do not change what the words before them do: a run over a queue ends as it ends, in a state or in a
fault, whatever stands behind it in the queue; so does a run of the device past a fault (R58, R60, R264). -/
def Obligations.LaterCommandsDoNotAffectEarlierOnes : Prop :=
  ∀ (n : Nat) (ws rest : List CommandWord) (s : State), n ≤ ws.length →
    (∀ t, Host.Core.run Sys2Proof.core n { s with queue := ws } = .next t →
      Host.Core.run Sys2Proof.core n { s with queue := ws ++ rest } = .next { t with queue := t.queue ++ rest }) ∧
    (∀ k, Host.Core.run Sys2Proof.core n { s with queue := ws } = .fault k →
      Host.Core.run Sys2Proof.core n { s with queue := ws ++ rest } = .fault k) ∧
    (∀ t, Host.Core.run device n { s with queue := ws } = .next t →
      Host.Core.run device n { s with queue := ws ++ rest } = .next { t with queue := t.queue ++ rest })

/-- Register and table reads of one path, interleaved in any way with the other path's commands, PROCESS_BLOCK included, change
nothing but the response stream (R55, R60): the run ends in the same state but for the responses, or in the same fault; so does
a run of the device past a fault. Every block has its frames at hand: the frames that all the OPC 0x08 words take (R87) are
there. -/
def Obligations.InterleavedReadsDisturbNothing : Prop :=
  ∀ (ws reads q : List CommandWord) (s : State),
    Interleaving ws reads q → s.inProgress = none →
    (ws.map fun w => if w.extractLsb' 56 8 = 0x08#8 then (w.extractLsb' 0 32).toNat else 0).sum ≤ s.frames.length →
    (∀ w ∈ reads, ∃ x, decode w = .ok (.readReg x) ∨ decode w = .ok (.readTable x)) →
    (∀ u, Host.Core.run Sys2Proof.core ws.length { s with queue := ws } = .next u →
      ∃ r, Host.Core.run Sys2Proof.core q.length { s with queue := q } = .next { u with responses := r }) ∧
    (∀ k, Host.Core.run Sys2Proof.core ws.length { s with queue := ws } = .fault k →
      Host.Core.run Sys2Proof.core q.length { s with queue := q } = .fault k) ∧
    (∀ u, Host.Core.run device ws.length { s with queue := ws } = .next u →
      ∃ r, Host.Core.run device q.length { s with queue := q } = .next { u with responses := r })

/-- An invalid command word answers VALIDATION_ERROR and changes no state, on a device without a fault, and with READ_REG's
OPC on a faulted one too (R79): a reserved opcode (R77), RSV ≠ 0 (R78), ARG ≠ 0
for CAPTURE_START (R72), ARG > 1 for SET_ENV_ENABLE (R75). For OPC 0x08 its ARG frames are consumed (R204). -/
def Obligations.InvalidWordIsRejected : Prop :=
  ∀ (w : CommandWord) (ws : List CommandWord) (s : State),
    s.inProgress = none → s.queue = w :: ws → (s.fault = 0#2 ∨ w.extractLsb' 56 8 = 0x09#8) →
    (w.extractLsb' 56 8 = 0x00#8 ∨ 0x0B#8 ≤ w.extractLsb' 56 8 ∨ w.extractLsb' 32 24 ≠ 0#24 ∨
      (w.extractLsb' 56 8 = 0x01#8 ∧ w.extractLsb' 0 32 ≠ 0#32) ∨
      (w.extractLsb' 56 8 = 0x06#8 ∧ 1#32 < w.extractLsb' 0 32)) →
    (w.extractLsb' 56 8 ≠ 0x08#8 →
      step s = .next { s with queue := ws, responses := s.responses ++ [0x0100000000000000#64] }) ∧
    (w.extractLsb' 56 8 = 0x08#8 → (w.extractLsb' 0 32).toNat ≤ s.frames.length →
      step s = .next { s with queue := ws, frames := s.frames.drop (w.extractLsb' 0 32).toNat,
                              responses := s.responses ++ [0x0100000000000000#64] })

/-- On a faulted device every command word whose OPC is not READ_REG's, valid or not, answers FAULTED with no effect;
PROCESS_BLOCK's frames are consumed (R205, R79). -/
def Obligations.FaultedDeviceAnswersFaulted : Prop :=
  ∀ (w : CommandWord) (ws : List CommandWord) (s : State),
    s.inProgress = none → s.queue = w :: ws → s.fault ≠ 0#2 → w.extractLsb' 56 8 ≠ 0x09#8 →
    (w.extractLsb' 56 8 ≠ 0x08#8 →
      step s = .next { s with queue := ws, responses := s.responses ++ [0x0300000000000000#64] }) ∧
    (w.extractLsb' 56 8 = 0x08#8 → (w.extractLsb' 0 32).toNat ≤ s.frames.length →
      step s = .next { s with queue := ws, frames := s.frames.drop (w.extractLsb' 0 32).toNat,
                              responses := s.responses ++ [0x0300000000000000#64] })

/-- Each executed command adds exactly one response word (R80); a PROCESS_BLOCK still waiting for frames adds none until
it ends: the wait is the model's choice (log 7), and so is the wait of one that is rejected or meets a faulted device (log 8). -/
def Obligations.EachCommandRespondsOnce : Prop :=
  ∀ (i : Instr) (s t : State), exec i s = .next t →
    ((∀ n, i = .processBlock n → n.toNat ≤ s.frames.length) → ∃ w, t.responses = s.responses ++ [w]) ∧
    (∀ n, i = .processBlock n → s.frames.length < n.toNat →
      t.responses = s.responses ∧ t.inProgress.isSome = true)

/-- Every response a step of the device adds, and so a step, has a STATUS of at most 3 and bits 55:32 zero, and DATA 0 unless STATUS is OK (R80, R81). -/
def Obligations.ResponsesKeepTheirForm : Prop :=
  ∀ s t : State, (deviceStep s = .next t ∨ step s = .next t) →
    ∃ added, t.responses = s.responses ++ added ∧
      ∀ w ∈ added, w.extractLsb' 56 8 ≤ 3#8 ∧ w.extractLsb' 32 24 = 0#24 ∧
        (w.extractLsb' 56 8 ≠ 0#8 → w.extractLsb' 0 32 = 0#32)

/-! ## Reset -/

/-- The reset state (R260): every element the spec names, and nothing else that a reader could meet. -/
def Obligations.ResetStateIsTheSpecs : Prop :=
  State.reset.size = 1024#32 ∧ State.reset.mask = 1023#32 ∧ (∀ x, memRead x State.reset = 0#32) ∧
  State.reset.mode = 0#2 ∧ State.reset.envEn = false ∧ State.reset.attackMs = 0x41200000#32 ∧
  State.reset.decayMs = 0x43FA0000#32 ∧ State.reset.sampleRate = 0x472C4400#32 ∧
  State.reset.attackCoeff = Config.coeff 0x41200000#32 0x472C4400#32 ∧
  State.reset.decayCoeff = Config.coeff 0x43FA0000#32 0x472C4400#32 ∧
  State.reset.envLast = 0#32 ∧ State.reset.phase = 0#32 ∧ State.reset.phaseInc = 0#32 ∧
  State.reset.capState = .idle ∧ State.reset.fault = 0#2 ∧ State.reset.queue = [] ∧
  State.reset.inProgress = none ∧ State.reset.frames = []

/-- The reset state satisfies R38 (R263). -/
def Obligations.ResetStateIsWellFormed : Prop := Inv State.reset

/-- Reset, asserted in any state, clears both FAULT bits, empties the queue, discards the command in progress and its
remaining frames, and drops the captured table and every setting (R261). -/
def Obligations.ResetClearsEverything : Prop :=
  ∀ s : State,
    s.applyReset.fault = 0#2 ∧ s.applyReset.queue = [] ∧ s.applyReset.inProgress = none ∧ s.applyReset.frames = [] ∧
    (∀ x, memRead x s.applyReset = 0#32) ∧ s.applyReset.size = 1024#32 ∧ s.applyReset.mode = 0#2 ∧
    s.applyReset.envEn = false ∧ s.applyReset.attackMs = 0x41200000#32 ∧ s.applyReset.decayMs = 0x43FA0000#32 ∧
    s.applyReset.sampleRate = 0x472C4400#32 ∧ s.applyReset.attackCoeff = State.reset.attackCoeff ∧
    s.applyReset.decayCoeff = State.reset.decayCoeff ∧ s.applyReset.envLast = 0#32 ∧ s.applyReset.phase = 0#32 ∧
    s.applyReset.phaseInc = 0#32 ∧ s.applyReset.capState = .idle

/-! ## Invariants -/

/-- Every command preserves R38: SIZE a power of two up to N_MAX, the table within it, MODE legal, times and rate finite
and positive, coefficients COEFF of them, PHASE finite in [0, SIZE), the capture count in range. The device keeps it past a
fault too. -/
def Obligations.EveryStepKeepsTheInvariant : Prop :=
  ∀ s t : State, Inv s → (step s = .next t → Inv t) ∧ (deviceStep s = .next t → Inv t)

/-- No command clears a FAULT bit; only reset does (R36). -/
def Obligations.FaultBitsAreSticky : Prop :=
  ∀ s t : State, (step s = .next t ∨ deviceStep s = .next t) → s.fault &&& t.fault = s.fault

/-- PROCESS_BLOCK alone raises a fault, one kind at most, and answers FAULTED when it does (R230, R233,
R237). The meaning takes the fault as a next state; its step answers the fault (log 1). -/
def Obligations.OnlyBlocksRaiseFaults : Prop :=
  ∀ (i : Instr) (s t : State), FaultFree s → exec i s = .next t →
    (raisedFault s t = none ↔ FaultFree t) ∧
    (raisedFault s t ≠ none → ∃ n, i = .processBlock n ∧
      (n.toNat ≤ s.frames.length → t.responses = s.responses ++ [0x0300000000000000#64]))

/-- FAULT(INTERNAL_MODE) is unreachable: MODE = 3 is never written, no step sets FAULT bit 1, and none answers that fault
(R170, R176). -/
def Obligations.InternalModeFaultIsUnreachable : Prop :=
  ∀ s : State, s.mode ≠ 3#2 → s.fault.getLsbD 1 = false →
    step s ≠ .fault .internalMode ∧
    ∀ t, (step s = .next t ∨ deviceStep s = .next t) → t.mode ≠ 3#2 ∧ t.fault.getLsbD 1 = false

/-! ## Commands -/

/-- CAPTURE_START gives Recording(SIZE), whatever CAP_STATE was, and changes nothing else (R120). -/
def Obligations.CaptureStartRestartsTheCountdown : Prop :=
  ∀ s : State, s.fault = 0#2 →
    exec .captureStart s =
      .next { s with capState := .recording s.size, responses := s.responses ++ [0#64] }

/-- SET_SIZE, in the order of its checks: not a power of two from 2, VALIDATION_ERROR (R102); the size held, no change
(R103); above N_MAX, RESOURCE_ERROR (R104); else the genuine resize (R105). -/
def Obligations.SetSizeFollowsItsChecks : Prop :=
  ∀ (a : U32) (s : State), s.fault = 0#2 →
    ((¬ ∃ k, 1 ≤ k ∧ a.toNat = 2 ^ k) →
      exec (.setSize a) s = .next { s with responses := s.responses ++ [0x0100000000000000#64] }) ∧
    ((∃ k, 1 ≤ k ∧ a.toNat = 2 ^ k) → a = s.size →
      exec (.setSize a) s = .next { s with responses := s.responses ++ [0#64] }) ∧
    ((∃ k, 1 ≤ k ∧ a.toNat = 2 ^ k) → a ≠ s.size → Config.nMax < a.toNat →
      exec (.setSize a) s = .next { s with responses := s.responses ++ [0x0200000000000000#64] }) ∧
    ((∃ k, 1 ≤ k ∧ a.toNat = 2 ^ k) → a ≠ s.size → a.toNat ≤ Config.nMax →
      ∃ t, exec (.setSize a) s = .next t ∧ t.mask = a - 1#32 ∧ (∀ x, memRead x t = 0#32) ∧
        t = { s with table := [], size := a, capState := .idle, phase := 0#32, phaseInc := 0#32,
                     responses := s.responses ++ [0#64] })

/-- SET_MODE writes MODE alone for an index up to 2 and rejects every other (R170). -/
def Obligations.SetModeWritesModeOrRejects : Prop :=
  ∀ (k : U32) (s : State), s.fault = 0#2 →
    (k.toNat ≤ 2 →
      exec (.setMode k) s = .next { s with mode := BitVec.ofNat 2 k.toNat, responses := s.responses ++ [0#64] }) ∧
    (3 ≤ k.toNat →
      exec (.setMode k) s = .next { s with responses := s.responses ++ [0x0100000000000000#64] })

/-- The three envelope setters: an argument that is finite and > 0, that is, with bits strictly between those of +0.0 and
+∞, is written, both coefficients are recomputed and ENV_LAST is +0.0; any other is rejected (R141 to R144). -/
def Obligations.EnvelopeSettersRecomputeOrReject : Prop :=
  ∀ (v : F32) (s : State), s.fault = 0#2 →
    (0 < v.toNat ∧ v.toNat < 0x7F800000 →
      exec (.setAttackMs v) s =
        .next { s with attackMs := v, attackCoeff := Config.coeff v s.sampleRate,
                       decayCoeff := Config.coeff s.decayMs s.sampleRate, envLast := 0#32,
                       responses := s.responses ++ [0#64] } ∧
      exec (.setDecayMs v) s =
        .next { s with decayMs := v, attackCoeff := Config.coeff s.attackMs s.sampleRate,
                       decayCoeff := Config.coeff v s.sampleRate, envLast := 0#32,
                       responses := s.responses ++ [0#64] } ∧
      exec (.setSampleRate v) s =
        .next { s with sampleRate := v, attackCoeff := Config.coeff s.attackMs v,
                       decayCoeff := Config.coeff s.decayMs v, envLast := 0#32,
                       responses := s.responses ++ [0#64] }) ∧
    (v.toNat = 0 ∨ 0x7F800000 ≤ v.toNat →
      exec (.setAttackMs v) s = .next { s with responses := s.responses ++ [0x0100000000000000#64] } ∧
      exec (.setDecayMs v) s = .next { s with responses := s.responses ++ [0x0100000000000000#64] } ∧
      exec (.setSampleRate v) s = .next { s with responses := s.responses ++ [0x0100000000000000#64] })

/-- SET_ENV_ENABLE writes ENV_EN alone from a BOOL argument (R145) and rejects a malformed one (R75). -/
def Obligations.SetEnvEnableWritesTheFlag : Prop :=
  ∀ (b : U32) (s : State), s.fault = 0#2 →
    (b = 0#32 → exec (.setEnvEnable b) s = .next { s with envEn := false, responses := s.responses ++ [0#64] }) ∧
    (b = 1#32 → exec (.setEnvEnable b) s = .next { s with envEn := true, responses := s.responses ++ [0#64] }) ∧
    (2 ≤ b.toNat →
      exec (.setEnvEnable b) s = .next { s with responses := s.responses ++ [0x0100000000000000#64] })

/-- READ_REG answers the register of R39's table by its number, and VALIDATION_ERROR from 0x0F on; it changes nothing
else, and it runs on a faulted device (R203, R205). -/
def Obligations.ReadRegAnswersTheRegister : Prop :=
  ∀ (r : U32) (s : State),
    exec (.readReg r) s =
      .next { s with responses := s.responses ++
        [match [s.size, s.size - 1#32, s.mode.setWidth 32, if s.envEn then 1#32 else 0#32, s.attackMs, s.decayMs,
            s.sampleRate, s.attackCoeff, s.decayCoeff, s.envLast, s.phase, s.phaseInc,
            match s.capState with | .idle => 0#32 | .recording _ => 1#32,
            match s.capState with | .idle => 0#32 | .recording x => x,
            s.fault.setWidth 32][r.toNat]? with
         | some v => (0#32 ++ v : BitVec 64)
         | none => 0x0100000000000000#64] }

/-- READ_TABLE answers the word at its index modulo the table size, bit for bit, and changes nothing else (R106). -/
def Obligations.ReadTableAnswersTheMaskedWord : Prop :=
  ∀ (x : U32) (k : Nat) (s : State), s.fault = 0#2 → s.size.toNat = 2 ^ k →
    exec (.readTable x) s =
      .next { s with responses := s.responses ++
        [(0#32 ++ tableGet s.table (x.toNat % s.size.toNat) : BitVec 64)] }

/-! ## PROCESS_BLOCK -/

/-- A block of length 0 changes no state and answers OK with DATA 0 (R200). -/
def Obligations.EmptyBlockChangesNothing : Prop :=
  ∀ s : State, s.fault = 0#2 → s.inProgress = none →
    exec (.processBlock 0#32) s = .next { s with responses := s.responses ++ [0#64] }

/-- n capture samples at Recording(r), n ≤ r: sample j goes, bit for bit, to word N - r + j; every other word stays; every
output is +0.0; the capture ends exactly when n = r, with PHASE and PHASE_INC +0.0 and DATA n; nothing else changes (R121
to R124). -/
def Obligations.CaptureStoresExactlyItsSamples : Prop :=
  ∀ (n r : U32) (k : Nat) (s : State),
    s.fault = 0#2 → s.capState = .recording r → s.size.toNat = 2 ^ k → Table.wf s.table →
    1 ≤ r.toNat → r.toNat ≤ s.size.toNat → n.toNat ≤ r.toNat → n.toNat ≤ s.frames.length →
    ∃ t, exec (.processBlock n) s = .next t ∧
      (∀ j < n.toNat, memRead ((s.size.toNat : Int) - r.toNat + j) t = (s.frames.getD j 0#64).extractLsb' 0 32) ∧
      (∀ a < s.size.toNat, (a < s.size.toNat - r.toNat ∨ s.size.toNat - r.toNat + n.toNat ≤ a) →
        memRead a t = memRead a s) ∧
      t = { s with
        table := t.table
        capState := if n = r then .idle else .recording (r - n)
        phase := if n = r then 0#32 else s.phase
        phaseInc := if n = r then 0#32 else s.phaseInc
        outputs := s.outputs ++ List.replicate n.toNat 0#32
        frames := s.frames.drop n.toNat
        inProgress := none
        responses := s.responses ++ [if n = r then (0#32 ++ n : BitVec 64) else 0#64] }

/-- A capture of N words takes exactly N samples, however they fall across blocks, blocks of length 0 included: until then
it is Recording what is left, then it is Idle; sample j stands in word j, bit for bit, and every output is +0.0 (R124). -/
def Obligations.CaptureTakesExactlyNSamples : Prop :=
  ∀ (ns : List U32) (m k : Nat) (s : State),
    s.fault = 0#2 → s.capState = .recording s.size → s.size.toNat = 2 ^ k → Table.wf s.table →
    m = (ns.map BitVec.toNat).sum → m ≤ s.size.toNat → m ≤ s.frames.length →
    ∃ t, execAll (ns.map .processBlock) s = .next t ∧
      (m < s.size.toNat → t.capState = .recording (s.size - BitVec.ofNat 32 m)) ∧
      (m = s.size.toNat → t.capState = .idle ∧ t.phase = 0#32 ∧ t.phaseInc = 0#32) ∧
      (∀ j < m, memRead j t = (s.frames.getD j 0#64).extractLsb' 0 32) ∧
      (∀ a < s.size.toNat, m ≤ a → memRead a t = memRead a s) ∧
      t.outputs = s.outputs ++ List.replicate m 0#32 ∧ t.frames = s.frames.drop m

/-- The playback sample, as a block of one slot (R179): the magnitude estimate (R146 to R148), the increment (R171), the
output of the kernel that MODE selects at the current phase (R172 to R176), then the advance and WRAP (R177), or the
fault when the advanced phase is not finite (R180, R205). d numbers the slot's draws of NaNDraw (log 2). The meaning
takes the fault as a next state (log 1). -/
def Obligations.PlaybackSlotFollowsTheRules : Prop :=
  ∀ (f : FrameWord) (fs : List FrameWord) (s : State),
    s.fault = 0#2 → s.capState = .idle → s.mode ≠ 3#2 → s.frames = f :: fs →
    ∃ d d' : Nat,
      let x : F32 := f.extractLsb' 32 32
      let c := if fgt (fabs x) s.envLast then s.attackCoeff else s.decayCoeff
      let e := fadd (d + 2) (fmul (d + 1) c (fsub d s.envLast (fabs x))) (fabs x)
      let m := if s.envEn then e else x
      let inc := fmul (d + 3) (fabs m) (toF32 s.size.toNat)
      let i : Int := maskIndex (floorNat s.phase) s
      let g := fsub (d + 4) s.phase (toF32 (floorNat s.phase))
      let y :=
        if s.mode = 0#2 then memRead i s
        else if s.mode = 1#2 then
          fadd (d + 7) (memRead i s) (fmul (d + 6) g (fsub (d + 5) (memRead (i + 1) s) (memRead i s)))
        else
          let c1 := fsub (d + 5) (memRead (i + 1) s) (memRead (i - 1) s)
          let c2 := fsub (d + 11) (fsub (d + 10) (fadd (d + 8) (fmul (d + 6) 0x40800000#32 (memRead (i + 1) s))
            (fmul (d + 7) 0x40000000#32 (memRead (i - 1) s))) (fmul (d + 9) 0x40A00000#32 (memRead i s)))
            (memRead (i + 2) s)
          let c3 := fadd (d + 15) (fsub (d + 14) (fmul (d + 13) 0x40400000#32
            (fsub (d + 12) (memRead i s) (memRead (i + 1) s))) (memRead (i - 1) s)) (memRead (i + 2) s)
          let h := fadd (d + 19) c1 (fmul (d + 18) g (fadd (d + 17) c2 (fmul (d + 16) g c3)))
          fadd (d + 22) (memRead i s) (fmul (d + 21) (fmul (d + 20) 0x3F000000#32 g) h)
      let p := fadd (d + 23) s.phase inc
      exec (.processBlock 1#32) s =
        .next { s with
          envLast := if s.envEn then e else s.envLast
          phaseInc := inc
          phase := if isFinite p then wrap s.size.toNat p else s.phase
          fault := if isFinite p then s.fault else 0b01#2
          outputs := s.outputs ++ [y]
          frames := fs
          inProgress := none
          draws := d'
          responses := s.responses ++ [if isFinite p then 0#64 else 0x0300000000000000#64] }

/-- At MODE = 3 a playback slot raises FAULT(INTERNAL_MODE) before any output; ENV_LAST and PHASE_INC are written, PHASE is
not (R176, R237, R205). The meaning takes the fault as a next state (log 1). -/
def Obligations.ModeThreeRaisesInternalMode : Prop :=
  ∀ (f : FrameWord) (fs : List FrameWord) (s : State),
    s.fault = 0#2 → s.capState = .idle → s.mode = 3#2 → s.frames = f :: fs →
    ∃ d d' : Nat,
      let x : F32 := f.extractLsb' 32 32
      let c := if fgt (fabs x) s.envLast then s.attackCoeff else s.decayCoeff
      let e := fadd (d + 2) (fmul (d + 1) c (fsub d s.envLast (fabs x))) (fabs x)
      let m := if s.envEn then e else x
      exec (.processBlock 1#32) s =
        .next { s with
          envLast := if s.envEn then e else s.envLast
          phaseInc := fmul (d + 3) (fabs m) (toF32 s.size.toNat)
          fault := 0b10#2
          frames := fs
          inProgress := none
          draws := d'
          responses := s.responses ++ [0x0300000000000000#64] }

/-- A fault ends the block at once: no later slot runs and no later word is emitted, and the remaining frames of the block
are consumed and ignored (R205). The meaning takes the fault as a next state (log 1). -/
def Obligations.FaultEndsTheBlock : Prop :=
  ∀ (n : U32) (s t : State), s.fault = 0#2 → 1 ≤ n.toNat → n.toNat ≤ s.frames.length →
    exec (.processBlock 1#32) s = .next t → t.fault ≠ 0#2 →
    exec (.processBlock n) s = .next { t with frames := s.frames.drop n.toNat }

/-- A block of n + m samples does what a block of n and then a block of m do, whatever happens in them, a capture's completion
included; only a fault in the first part is excepted (R59, R201, R271, R272). Its one response is FAULTED if the second part
faulted; else OK, with DATA the first part's if a capture completed there, else n more than the second part's if one completed
there, else 0 (R202, R205). -/
def Obligations.SplittingABlockChangesNothing : Prop :=
  ∀ (n m : U32) (s t u : State), n.toNat + m.toNat < 2 ^ 32 → n.toNat + m.toNat ≤ s.frames.length →
    exec (.processBlock n) s = .next t → t.fault = 0#2 → exec (.processBlock m) t = .next u →
    ∃ w v : ResponseWord, t.responses = s.responses ++ [w] ∧ u.responses = t.responses ++ [v] ∧
      exec (.processBlock (n + m)) s = .next { u with responses := s.responses ++
        [if u.fault ≠ 0#2 then 0x0300000000000000#64
         else if w.extractLsb' 0 32 ≠ 0#32 then (0#32 ++ w.extractLsb' 0 32 : BitVec 64)
         else if v.extractLsb' 0 32 ≠ 0#32 then (0#32 ++ (n + v.extractLsb' 0 32) : BitVec 64)
         else 0#64] }

/-- The model's choice of log 7, and of log 8 for a faulted device: a block whose frames come in two pieces waits after the
first and, with the second, ends as the block that had them all. -/
def Obligations.BlockWaitsForItsFrames : Prop :=
  ∀ (n : U32) (fs gs : List FrameWord) (s : State), fs.length < n.toNat →
    ∃ t, exec (.processBlock n) { s with frames := fs } = .next t ∧ t.frames = [] ∧
      deviceStep { t with frames := gs } = exec (.processBlock n) { s with frames := fs ++ gs } ∧
      step { t with frames := gs } = stopAtFault t (exec (.processBlock n) { s with frames := fs ++ gs })

/-- PROCESS_BLOCK writes no configuration register and leaves the queue alone (R200); each slot of a block that does not
fault takes one frame and one output word (R52, R200). -/
def Obligations.BlockKeepsConfigurationAndFraming : Prop :=
  ∀ (n : U32) (s t : State), n.toNat ≤ s.frames.length → exec (.processBlock n) s = .next t →
    t.size = s.size ∧ t.mode = s.mode ∧ t.envEn = s.envEn ∧ t.attackMs = s.attackMs ∧ t.decayMs = s.decayMs ∧
    t.sampleRate = s.sampleRate ∧ t.attackCoeff = s.attackCoeff ∧ t.decayCoeff = s.decayCoeff ∧
    t.queue = s.queue ∧ t.inProgress = none ∧ t.frames = s.frames.drop n.toNat ∧
    (t.fault = 0#2 → t.outputs.length = s.outputs.length + n.toNat)

/-- A control input that is NaN or infinite, at a playback slot, raises NONFINITE_PHASE in that slot, ENV_EN 0 or 1: the
slot's output is emitted, PHASE is kept (R268, R180). The meaning takes the fault as a next state (log 1). -/
def Obligations.NonfiniteControlRaisesAFault : Prop :=
  ∀ (f : FrameWord) (fs : List FrameWord) (s : State),
    s.fault = 0#2 → s.capState = .idle → s.mode ≠ 3#2 → s.frames = f :: fs →
    isFinite (f.extractLsb' 32 32) = false →
    ∃ t, exec (.processBlock 1#32) s = .next t ∧ t.fault = 0b01#2 ∧ t.phase = s.phase ∧
      t.outputs.length = s.outputs.length + 1

/-- Until a capture completes, the table is all +0.0 and every output is +0.0 (R263, R266). -/
def Obligations.OutputIsSilentWithoutACapture : Prop :=
  ∀ (n : U32) (s t : State), Inv s → s.table = [] → s.capState = .idle →
    exec (.processBlock n) s = .next t →
    ∃ j, t.outputs = s.outputs ++ List.replicate j 0#32

/-- PHASE_INC is read by READ_REG 0x0B alone: its value changes nothing else that any command does (R34). -/
def Obligations.PhaseIncIsNeverRead : Prop :=
  ∀ (i : Instr) (x : F32) (s t : State), i ≠ .readReg 0x0B#32 → exec i s = .next t →
    ∃ y, exec i { s with phaseInc := x } = .next { t with phaseInc := y }

/-- Once ENV_LAST is a NaN, or the input is, an enabled update gives a NaN, whatever NaNDraw is; so does an infinite input
over a finite ENV_LAST, with any attack coefficient of positive sign (R149). ENV_LAST alone is written. -/
def Obligations.NaNStaysInTheFollower : Prop :=
  ∀ (d : Nat) (x : F32) (s : State), s.envEn = true →
    (isNaN x = true ∨ isNaN s.envLast = true ∨
      (isInf x = true ∧ isFinite s.envLast = true ∧ signBit s.attackCoeff = false)) →
    isNaN (envUpdate d x s).1 = true ∧ (envUpdate d x s).2 = { s with envLast := (envUpdate d x s).1 }

/-! ## binary32 -/

/-- round32 is roundTiesToEven with overflow to infinity (R9), for the exact value ±m · 2^-p. It keeps the sign. It is infinite
exactly from 2^128 − 2^103 up, the midpoint between the largest finite value and 2^128. A finite result is no farther from the
exact value than any finite binary32 of that sign is, and where another is as near, the result is the even one. Distances are
in units of 2^-p. -/
def Obligations.RoundingIsToNearest : Prop :=
  ∀ (neg : Bool) (m p : Nat), 149 ≤ p →
    signBit (round32 neg m p) = neg ∧
    (isFinite (round32 neg m p) = false ↔ (2 ^ 128 - 2 ^ 103) * 2 ^ p ≤ m) ∧
    (isFinite (round32 neg m p) = false → isInf (round32 neg m p) = true) ∧
    (isFinite (round32 neg m p) = true → ∀ y : F32, isFinite y = true →
      |((magnitude (round32 neg m p) * 2 ^ (p - 149) : Nat) : Int) - m| ≤
        |((magnitude y * 2 ^ (p - 149) : Nat) : Int) - m| ∧
      (|((magnitude (round32 neg m p) * 2 ^ (p - 149) : Nat) : Int) - m| =
          |((magnitude y * 2 ^ (p - 149) : Nat) : Int) - m| →
        magnitude y ≠ magnitude (round32 neg m p) → (round32 neg m p).getLsbD 0 = false))

/-- WRAP of every finite p lands in [0, N), for every legal N, after arbitrarily large positive or negative excursions
(R177). -/
def Obligations.WrapLandsInRange : Prop :=
  ∀ (k : Nat) (p : F32), 1 ≤ k → k ≤ 31 → isFinite p = true →
    isFinite (wrap (2 ^ k) p) = true ∧ 0 ≤ scaled (wrap (2 ^ k) p) ∧
      scaled (wrap (2 ^ k) p) < (2 ^ k * scale : Nat)

/-- For ⟦p⟧ ≥ N, WRAP(p) is the exact residue of p modulo N, with no rounding (R177). -/
def Obligations.WrapIsExactFromNUp : Prop :=
  ∀ (k : Nat) (p : F32), 1 ≤ k → k ≤ 31 → isFinite p = true → ((2 ^ k * scale : Nat) : Int) ≤ scaled p →
    scaled (wrap (2 ^ k) p) = scaled p % ((2 ^ k * scale : Nat) : Int)

/-- WRAP is the source's loop of repeated subtraction for 0 ≤ ⟦p⟧ ≤ N · 2^24: every step but the last leaves a value of at
least N, and the loop ends at WRAP(p), bit for bit (R178 (a), the part for p ≥ 0). -/
def Obligations.WrapEqualsTheSubtractionLoop : Prop :=
  ∀ (k d : Nat) (p : F32), 1 ≤ k → k ≤ 31 → isFinite p = true → 0 ≤ scaled p →
    scaled p ≤ (2 ^ k * scale * 2 ^ 24 : Nat) →
    ∃ n, (fun q => fsub d q (toF32 (2 ^ k)))^[n] p = wrap (2 ^ k) p ∧
      ∀ j < n, ((2 ^ k * scale : Nat) : Int) ≤ scaled ((fun q => fsub d q (toF32 (2 ^ k)))^[j] p)

/-- For −N · 2^24 ≤ ⟦p⟧ < 0 the source's loop of repeated add and subtract ends at WRAP(p), bit for bit, and every step but the
last leaves a value outside [0, N) (R178 (a), the part for p < 0). -/
def Obligations.WrapOfANegativeEqualsTheSourceLoop : Prop :=
  ∀ (k d : Nat) (p : F32), 1 ≤ k → k ≤ 31 → isFinite p = true → scaled p < 0 →
    -((2 ^ k * scale * 2 ^ 24 : Nat) : Int) ≤ scaled p →
    let body : F32 → F32 := fun q =>
      if ((2 ^ k * scale : Nat) : Int) ≤ scaled q then fsub d q (toF32 (2 ^ k)) else fadd d q (toF32 (2 ^ k))
    ∃ n, body^[n] p = wrap (2 ^ k) p ∧
      ∀ j < n, ¬ (0 ≤ scaled (body^[j] p) ∧ scaled (body^[j] p) < (2 ^ k * scale : Nat))

/-- The fraction f = PHASE − floor(PHASE) is exact and in [0, 1) (R172). -/
def Obligations.FractionIsExact : Prop :=
  ∀ (k d : Nat) (s : State), k ≤ 31 → s.size.toNat = 2 ^ k → isFinite s.phase = true → 0 ≤ scaled s.phase →
    scaled s.phase < (s.size.toNat * scale : Nat) →
    scaled (phaseFraction d s) = scaled s.phase % (scale : Int) ∧ isFinite (phaseFraction d s) = true ∧
      phaseIndex s = floorNat s.phase

/-- The increment is |m| · N exactly when that product is a normal binary32 (R171), and never negative. -/
def Obligations.IncrementIsExact : Prop :=
  ∀ (k d : Nat) (m : F32) (s : State), k ≤ 31 → s.size.toNat = 2 ^ k → isFinite m = true →
    2 ^ 23 ≤ magnitude m * 2 ^ k → magnitude m * 2 ^ k < scale * 2 ^ 128 →
    scaled (increment d m s) = (magnitude m * 2 ^ k : Nat) ∧ isFinite (increment d m s) = true

/-- At f = +0.0 the Linear2 and Cubic4 outputs equal the word T(i) in value, wherever they are finite (R174, R175). -/
def Obligations.KernelsMeetTruncateAtIntegerPhase : Prop :=
  ∀ (d : Nat) (i : Int) (s : State), isFinite (memRead i s) = true →
    (isFinite (linear2 d i 0#32 s) = true → scaled (linear2 d i 0#32 s) = scaled (truncate i s)) ∧
    (isFinite (cubic4 d i 0#32 s) = true → scaled (cubic4 d i 0#32 s) = scaled (truncate i s))

/-- c(t, s) is in the open interval (0, 1) for every legal t and s (R140). -/
def Obligations.CoefficientLiesInUnitInterval : Prop :=
  ∀ t r : F32, legalTime t = true → legalTime r = true → 0 < coeffReal t r ∧ coeffReal t r < 1
end

