-- ==== Sys2Proof/Laws/State.lean ====
section
/-! SUPPORT. What each named update of the state does to each field: true by rfl, so that no proof unfolds an update. -/

namespace Sys2Proof.Machine

/-! `respond` -/

@[simp] theorem respond_size (c : Status) (v : U32) (s : State) : (respond c v s).size = s.size := rfl
@[simp] theorem respond_mode (c : Status) (v : U32) (s : State) : (respond c v s).mode = s.mode := rfl
@[simp] theorem respond_envEn (c : Status) (v : U32) (s : State) : (respond c v s).envEn = s.envEn := rfl
@[simp] theorem respond_attackMs (c : Status) (v : U32) (s : State) : (respond c v s).attackMs = s.attackMs := rfl
@[simp] theorem respond_decayMs (c : Status) (v : U32) (s : State) : (respond c v s).decayMs = s.decayMs := rfl
@[simp] theorem respond_sampleRate (c : Status) (v : U32) (s : State) : (respond c v s).sampleRate = s.sampleRate := rfl
@[simp] theorem respond_attackCoeff (c : Status) (v : U32) (s : State) : (respond c v s).attackCoeff = s.attackCoeff := rfl
@[simp] theorem respond_decayCoeff (c : Status) (v : U32) (s : State) : (respond c v s).decayCoeff = s.decayCoeff := rfl
@[simp] theorem respond_envLast (c : Status) (v : U32) (s : State) : (respond c v s).envLast = s.envLast := rfl
@[simp] theorem respond_phase (c : Status) (v : U32) (s : State) : (respond c v s).phase = s.phase := rfl
@[simp] theorem respond_phaseInc (c : Status) (v : U32) (s : State) : (respond c v s).phaseInc = s.phaseInc := rfl
@[simp] theorem respond_capState (c : Status) (v : U32) (s : State) : (respond c v s).capState = s.capState := rfl
@[simp] theorem respond_fault (c : Status) (v : U32) (s : State) : (respond c v s).fault = s.fault := rfl
@[simp] theorem respond_table (c : Status) (v : U32) (s : State) : (respond c v s).table = s.table := rfl
@[simp] theorem respond_queue (c : Status) (v : U32) (s : State) : (respond c v s).queue = s.queue := rfl
@[simp] theorem respond_inProgress (c : Status) (v : U32) (s : State) : (respond c v s).inProgress = s.inProgress := rfl
@[simp] theorem respond_frames (c : Status) (v : U32) (s : State) : (respond c v s).frames = s.frames := rfl
@[simp] theorem respond_outputs (c : Status) (v : U32) (s : State) : (respond c v s).outputs = s.outputs := rfl
@[simp] theorem respond_responses (c : Status) (v : U32) (s : State) : (respond c v s).responses = s.responses ++ [responseWord c v] := rfl
@[simp] theorem respond_draws (c : Status) (v : U32) (s : State) : (respond c v s).draws = s.draws := rfl

/-! `emit` -/

@[simp] theorem emit_size (v : F32) (s : State) : (emit v s).size = s.size := rfl
@[simp] theorem emit_mode (v : F32) (s : State) : (emit v s).mode = s.mode := rfl
@[simp] theorem emit_envEn (v : F32) (s : State) : (emit v s).envEn = s.envEn := rfl
@[simp] theorem emit_attackMs (v : F32) (s : State) : (emit v s).attackMs = s.attackMs := rfl
@[simp] theorem emit_decayMs (v : F32) (s : State) : (emit v s).decayMs = s.decayMs := rfl
@[simp] theorem emit_sampleRate (v : F32) (s : State) : (emit v s).sampleRate = s.sampleRate := rfl
@[simp] theorem emit_attackCoeff (v : F32) (s : State) : (emit v s).attackCoeff = s.attackCoeff := rfl
@[simp] theorem emit_decayCoeff (v : F32) (s : State) : (emit v s).decayCoeff = s.decayCoeff := rfl
@[simp] theorem emit_envLast (v : F32) (s : State) : (emit v s).envLast = s.envLast := rfl
@[simp] theorem emit_phase (v : F32) (s : State) : (emit v s).phase = s.phase := rfl
@[simp] theorem emit_phaseInc (v : F32) (s : State) : (emit v s).phaseInc = s.phaseInc := rfl
@[simp] theorem emit_capState (v : F32) (s : State) : (emit v s).capState = s.capState := rfl
@[simp] theorem emit_fault (v : F32) (s : State) : (emit v s).fault = s.fault := rfl
@[simp] theorem emit_table (v : F32) (s : State) : (emit v s).table = s.table := rfl
@[simp] theorem emit_queue (v : F32) (s : State) : (emit v s).queue = s.queue := rfl
@[simp] theorem emit_inProgress (v : F32) (s : State) : (emit v s).inProgress = s.inProgress := rfl
@[simp] theorem emit_frames (v : F32) (s : State) : (emit v s).frames = s.frames := rfl
@[simp] theorem emit_outputs (v : F32) (s : State) : (emit v s).outputs = s.outputs ++ [v] := rfl
@[simp] theorem emit_responses (v : F32) (s : State) : (emit v s).responses = s.responses := rfl
@[simp] theorem emit_draws (v : F32) (s : State) : (emit v s).draws = s.draws := rfl

/-! `memWrite` -/

@[simp] theorem memWrite_size (i : Int) (v : F32) (s : State) : (memWrite i v s).size = s.size := rfl
@[simp] theorem memWrite_mode (i : Int) (v : F32) (s : State) : (memWrite i v s).mode = s.mode := rfl
@[simp] theorem memWrite_envEn (i : Int) (v : F32) (s : State) : (memWrite i v s).envEn = s.envEn := rfl
@[simp] theorem memWrite_attackMs (i : Int) (v : F32) (s : State) : (memWrite i v s).attackMs = s.attackMs := rfl
@[simp] theorem memWrite_decayMs (i : Int) (v : F32) (s : State) : (memWrite i v s).decayMs = s.decayMs := rfl
@[simp] theorem memWrite_sampleRate (i : Int) (v : F32) (s : State) : (memWrite i v s).sampleRate = s.sampleRate := rfl
@[simp] theorem memWrite_attackCoeff (i : Int) (v : F32) (s : State) : (memWrite i v s).attackCoeff = s.attackCoeff := rfl
@[simp] theorem memWrite_decayCoeff (i : Int) (v : F32) (s : State) : (memWrite i v s).decayCoeff = s.decayCoeff := rfl
@[simp] theorem memWrite_envLast (i : Int) (v : F32) (s : State) : (memWrite i v s).envLast = s.envLast := rfl
@[simp] theorem memWrite_phase (i : Int) (v : F32) (s : State) : (memWrite i v s).phase = s.phase := rfl
@[simp] theorem memWrite_phaseInc (i : Int) (v : F32) (s : State) : (memWrite i v s).phaseInc = s.phaseInc := rfl
@[simp] theorem memWrite_capState (i : Int) (v : F32) (s : State) : (memWrite i v s).capState = s.capState := rfl
@[simp] theorem memWrite_fault (i : Int) (v : F32) (s : State) : (memWrite i v s).fault = s.fault := rfl
@[simp] theorem memWrite_table (i : Int) (v : F32) (s : State) : (memWrite i v s).table = tableSet s.table (maskIndex i s) v := rfl
@[simp] theorem memWrite_queue (i : Int) (v : F32) (s : State) : (memWrite i v s).queue = s.queue := rfl
@[simp] theorem memWrite_inProgress (i : Int) (v : F32) (s : State) : (memWrite i v s).inProgress = s.inProgress := rfl
@[simp] theorem memWrite_frames (i : Int) (v : F32) (s : State) : (memWrite i v s).frames = s.frames := rfl
@[simp] theorem memWrite_outputs (i : Int) (v : F32) (s : State) : (memWrite i v s).outputs = s.outputs := rfl
@[simp] theorem memWrite_responses (i : Int) (v : F32) (s : State) : (memWrite i v s).responses = s.responses := rfl
@[simp] theorem memWrite_draws (i : Int) (v : F32) (s : State) : (memWrite i v s).draws = s.draws := rfl

/-! `raiseFault` -/

@[simp] theorem raiseFault_size (k : Fault) (s : State) : (raiseFault k s).size = s.size := rfl
@[simp] theorem raiseFault_mode (k : Fault) (s : State) : (raiseFault k s).mode = s.mode := rfl
@[simp] theorem raiseFault_envEn (k : Fault) (s : State) : (raiseFault k s).envEn = s.envEn := rfl
@[simp] theorem raiseFault_attackMs (k : Fault) (s : State) : (raiseFault k s).attackMs = s.attackMs := rfl
@[simp] theorem raiseFault_decayMs (k : Fault) (s : State) : (raiseFault k s).decayMs = s.decayMs := rfl
@[simp] theorem raiseFault_sampleRate (k : Fault) (s : State) : (raiseFault k s).sampleRate = s.sampleRate := rfl
@[simp] theorem raiseFault_attackCoeff (k : Fault) (s : State) : (raiseFault k s).attackCoeff = s.attackCoeff := rfl
@[simp] theorem raiseFault_decayCoeff (k : Fault) (s : State) : (raiseFault k s).decayCoeff = s.decayCoeff := rfl
@[simp] theorem raiseFault_envLast (k : Fault) (s : State) : (raiseFault k s).envLast = s.envLast := rfl
@[simp] theorem raiseFault_phase (k : Fault) (s : State) : (raiseFault k s).phase = s.phase := rfl
@[simp] theorem raiseFault_phaseInc (k : Fault) (s : State) : (raiseFault k s).phaseInc = s.phaseInc := rfl
@[simp] theorem raiseFault_capState (k : Fault) (s : State) : (raiseFault k s).capState = s.capState := rfl
@[simp] theorem raiseFault_fault (k : Fault) (s : State) : (raiseFault k s).fault = s.fault ||| faultBit k := rfl
@[simp] theorem raiseFault_table (k : Fault) (s : State) : (raiseFault k s).table = s.table := rfl
@[simp] theorem raiseFault_queue (k : Fault) (s : State) : (raiseFault k s).queue = s.queue := rfl
@[simp] theorem raiseFault_inProgress (k : Fault) (s : State) : (raiseFault k s).inProgress = s.inProgress := rfl
@[simp] theorem raiseFault_frames (k : Fault) (s : State) : (raiseFault k s).frames = s.frames := rfl
@[simp] theorem raiseFault_outputs (k : Fault) (s : State) : (raiseFault k s).outputs = s.outputs := rfl
@[simp] theorem raiseFault_responses (k : Fault) (s : State) : (raiseFault k s).responses = s.responses := rfl
@[simp] theorem raiseFault_draws (k : Fault) (s : State) : (raiseFault k s).draws = s.draws := rfl

/-! `captureComplete` -/

@[simp] theorem captureComplete_size (s : State) : (captureComplete s).size = s.size := rfl
@[simp] theorem captureComplete_mode (s : State) : (captureComplete s).mode = s.mode := rfl
@[simp] theorem captureComplete_envEn (s : State) : (captureComplete s).envEn = s.envEn := rfl
@[simp] theorem captureComplete_attackMs (s : State) : (captureComplete s).attackMs = s.attackMs := rfl
@[simp] theorem captureComplete_decayMs (s : State) : (captureComplete s).decayMs = s.decayMs := rfl
@[simp] theorem captureComplete_sampleRate (s : State) : (captureComplete s).sampleRate = s.sampleRate := rfl
@[simp] theorem captureComplete_attackCoeff (s : State) : (captureComplete s).attackCoeff = s.attackCoeff := rfl
@[simp] theorem captureComplete_decayCoeff (s : State) : (captureComplete s).decayCoeff = s.decayCoeff := rfl
@[simp] theorem captureComplete_envLast (s : State) : (captureComplete s).envLast = s.envLast := rfl
@[simp] theorem captureComplete_phase (s : State) : (captureComplete s).phase = 0#32 := rfl
@[simp] theorem captureComplete_phaseInc (s : State) : (captureComplete s).phaseInc = 0#32 := rfl
@[simp] theorem captureComplete_capState (s : State) : (captureComplete s).capState = .idle := rfl
@[simp] theorem captureComplete_fault (s : State) : (captureComplete s).fault = s.fault := rfl
@[simp] theorem captureComplete_table (s : State) : (captureComplete s).table = s.table := rfl
@[simp] theorem captureComplete_queue (s : State) : (captureComplete s).queue = s.queue := rfl
@[simp] theorem captureComplete_inProgress (s : State) : (captureComplete s).inProgress = s.inProgress := rfl
@[simp] theorem captureComplete_frames (s : State) : (captureComplete s).frames = s.frames := rfl
@[simp] theorem captureComplete_outputs (s : State) : (captureComplete s).outputs = s.outputs := rfl
@[simp] theorem captureComplete_responses (s : State) : (captureComplete s).responses = s.responses := rfl
@[simp] theorem captureComplete_draws (s : State) : (captureComplete s).draws = s.draws := rfl

/-! `reallocate` -/

@[simp] theorem reallocate_size (a : U32) (s : State) : (reallocate a s).size = a := rfl
@[simp] theorem reallocate_mode (a : U32) (s : State) : (reallocate a s).mode = s.mode := rfl
@[simp] theorem reallocate_envEn (a : U32) (s : State) : (reallocate a s).envEn = s.envEn := rfl
@[simp] theorem reallocate_attackMs (a : U32) (s : State) : (reallocate a s).attackMs = s.attackMs := rfl
@[simp] theorem reallocate_decayMs (a : U32) (s : State) : (reallocate a s).decayMs = s.decayMs := rfl
@[simp] theorem reallocate_sampleRate (a : U32) (s : State) : (reallocate a s).sampleRate = s.sampleRate := rfl
@[simp] theorem reallocate_attackCoeff (a : U32) (s : State) : (reallocate a s).attackCoeff = s.attackCoeff := rfl
@[simp] theorem reallocate_decayCoeff (a : U32) (s : State) : (reallocate a s).decayCoeff = s.decayCoeff := rfl
@[simp] theorem reallocate_envLast (a : U32) (s : State) : (reallocate a s).envLast = s.envLast := rfl
@[simp] theorem reallocate_phase (a : U32) (s : State) : (reallocate a s).phase = 0#32 := rfl
@[simp] theorem reallocate_phaseInc (a : U32) (s : State) : (reallocate a s).phaseInc = 0#32 := rfl
@[simp] theorem reallocate_capState (a : U32) (s : State) : (reallocate a s).capState = .idle := rfl
@[simp] theorem reallocate_fault (a : U32) (s : State) : (reallocate a s).fault = s.fault := rfl
@[simp] theorem reallocate_table (a : U32) (s : State) : (reallocate a s).table = [] := rfl
@[simp] theorem reallocate_queue (a : U32) (s : State) : (reallocate a s).queue = s.queue := rfl
@[simp] theorem reallocate_inProgress (a : U32) (s : State) : (reallocate a s).inProgress = s.inProgress := rfl
@[simp] theorem reallocate_frames (a : U32) (s : State) : (reallocate a s).frames = s.frames := rfl
@[simp] theorem reallocate_outputs (a : U32) (s : State) : (reallocate a s).outputs = s.outputs := rfl
@[simp] theorem reallocate_responses (a : U32) (s : State) : (reallocate a s).responses = s.responses := rfl
@[simp] theorem reallocate_draws (a : U32) (s : State) : (reallocate a s).draws = s.draws := rfl

/-! `recompute` -/

@[simp] theorem recompute_size (s : State) : (recompute s).size = s.size := rfl
@[simp] theorem recompute_mode (s : State) : (recompute s).mode = s.mode := rfl
@[simp] theorem recompute_envEn (s : State) : (recompute s).envEn = s.envEn := rfl
@[simp] theorem recompute_attackMs (s : State) : (recompute s).attackMs = s.attackMs := rfl
@[simp] theorem recompute_decayMs (s : State) : (recompute s).decayMs = s.decayMs := rfl
@[simp] theorem recompute_sampleRate (s : State) : (recompute s).sampleRate = s.sampleRate := rfl
@[simp] theorem recompute_attackCoeff (s : State) : (recompute s).attackCoeff = Config.coeff s.attackMs s.sampleRate := rfl
@[simp] theorem recompute_decayCoeff (s : State) : (recompute s).decayCoeff = Config.coeff s.decayMs s.sampleRate := rfl
@[simp] theorem recompute_envLast (s : State) : (recompute s).envLast = 0#32 := rfl
@[simp] theorem recompute_phase (s : State) : (recompute s).phase = s.phase := rfl
@[simp] theorem recompute_phaseInc (s : State) : (recompute s).phaseInc = s.phaseInc := rfl
@[simp] theorem recompute_capState (s : State) : (recompute s).capState = s.capState := rfl
@[simp] theorem recompute_fault (s : State) : (recompute s).fault = s.fault := rfl
@[simp] theorem recompute_table (s : State) : (recompute s).table = s.table := rfl
@[simp] theorem recompute_queue (s : State) : (recompute s).queue = s.queue := rfl
@[simp] theorem recompute_inProgress (s : State) : (recompute s).inProgress = s.inProgress := rfl
@[simp] theorem recompute_frames (s : State) : (recompute s).frames = s.frames := rfl
@[simp] theorem recompute_outputs (s : State) : (recompute s).outputs = s.outputs := rfl
@[simp] theorem recompute_responses (s : State) : (recompute s).responses = s.responses := rfl
@[simp] theorem recompute_draws (s : State) : (recompute s).draws = s.draws := rfl

/-! MASK follows SIZE alone (R24). -/

theorem mask_of_size (s t : State) (h : t.size = s.size) : t.mask = s.mask := by simp [State.mask, h]

theorem maskIndex_of_size (i : Int) (s t : State) (h : t.size = s.size) : maskIndex i t = maskIndex i s := by
  simp [maskIndex, mask_of_size s t h]

end Sys2Proof.Machine
end

