-- ==== Sys2Proof/Laws/Memory.lean ====
section
/-! SUPPORT. The wavetable's laws: a read after a write, the canonical form, and the range of its indices (R50, R100, R101). -/

namespace Sys2Proof.Machine

/-- Below every listed index a table reads as zero. -/
theorem tableGet_of_lt (t : Table) (a : Nat) (h : ∀ c ∈ t, a < c.1) : tableGet t a = 0#32 := by
  induction t with
  | nil => rfl
  | cons c t ih =>
    obtain ⟨b, u⟩ := c
    have hb : a < b := h (b, u) (by simp)
    simp only [tableGet, if_neg (Nat.ne_of_lt hb)]
    exact ih fun c hc => h c (List.mem_cons_of_mem _ hc)

/-- A read of the written index gives the value written (R100, R101). -/
theorem tableGet_tableSet_same (t : Table) (a : Nat) (v : BitVec 32) (h : Table.wf t) :
    tableGet (tableSet t a v) a = v := by
  induction t with
  | nil => by_cases hv : v = 0#32 <;> simp [tableSet, tableGet, hv]
  | cons c t ih =>
    obtain ⟨b, u⟩ := c
    obtain ⟨hs, hz⟩ := h
    rw [List.pairwise_cons] at hs
    simp only [tableSet]
    split
    · rename_i hab
      split
      · rename_i hv
        rw [hv]
        refine tableGet_of_lt _ _ fun c hc => ?_
        rcases List.mem_cons.mp hc with rfl | hc
        · exact hab
        · exact Nat.lt_trans hab (hs.1 c hc)
      · simp [tableGet]
    · split
      · rename_i hab
        split
        · rename_i hv
          subst hab hv
          exact tableGet_of_lt _ _ fun c hc => hs.1 c hc
        · simp [tableGet]
      · rename_i hab
        simp only [tableGet, if_neg hab]
        exact ih ⟨hs.2, fun c hc => hz c (List.mem_cons_of_mem _ hc)⟩

/-- A write leaves every other index alone (R101). -/
theorem tableGet_tableSet_other (t : Table) (a b : Nat) (v : BitVec 32) (hab : b ≠ a) :
    tableGet (tableSet t a v) b = tableGet t b := by
  induction t with
  | nil => by_cases hv : v = 0#32 <;> simp [tableSet, tableGet, hv, hab]
  | cons c t ih =>
    obtain ⟨c, u⟩ := c
    simp only [tableSet]
    split
    · split <;> simp [tableGet, hab]
    · split
      · rename_i h
        subst h
        split <;> simp [tableGet, hab]
      · simp only [tableGet, ih]

/-- What a written table lists: the index written, or an index it listed before. -/
theorem mem_tableSet (t : Table) (a : Nat) (v : BitVec 32) (c : Nat × BitVec 32) (h : c ∈ tableSet t a v) :
    (c = (a, v) ∧ v ≠ 0#32) ∨ c ∈ t := by
  induction t with
  | nil =>
    by_cases hv : v = 0#32 <;> simp [tableSet, hv] at h
    exact .inl ⟨h, hv⟩
  | cons d t ih =>
    obtain ⟨b, u⟩ := d
    simp only [tableSet] at h
    split at h
    · split at h
      · exact .inr h
      · rename_i hv
        rcases List.mem_cons.mp h with rfl | h
        · exact .inl ⟨rfl, hv⟩
        · exact .inr h
    · split at h
      · split at h
        · exact .inr (List.mem_cons_of_mem _ h)
        · rename_i hv
          rcases List.mem_cons.mp h with rfl | h
          · exact .inl ⟨rfl, hv⟩
          · exact .inr (List.mem_cons_of_mem _ h)
      · rcases List.mem_cons.mp h with rfl | h
        · exact .inr (by simp)
        · exact (ih h).imp_right (List.mem_cons_of_mem _)

/-- A write keeps the canonical form. -/
theorem tableSet_wf (t : Table) (a : Nat) (v : BitVec 32) (h : Table.wf t) : Table.wf (tableSet t a v) := by
  obtain ⟨hs, hz⟩ := h
  refine ⟨?_, fun c hc => ?_⟩
  · induction t with
    | nil => by_cases hv : v = 0#32 <;> simp [tableSet, hv]
    | cons d t ih =>
      obtain ⟨b, u⟩ := d
      have hs' := List.pairwise_cons.mp hs
      simp only [tableSet]
      split
      · rename_i hab
        split
        · exact hs
        · refine List.pairwise_cons.mpr ⟨fun c hc => ?_, hs⟩
          rcases List.mem_cons.mp hc with rfl | hc
          · exact hab
          · exact Nat.lt_trans hab (hs'.1 c hc)
      · split
        · rename_i hab
          subst hab
          split
          · exact hs'.2
          · exact List.pairwise_cons.mpr ⟨hs'.1, hs'.2⟩
        · rename_i hlt hne
          refine List.pairwise_cons.mpr ⟨fun c hc => ?_, ih hs'.2 fun c hc => hz c (List.mem_cons_of_mem _ hc)⟩
          rcases mem_tableSet _ _ _ _ hc with ⟨rfl, -⟩ | hc
          · show b < a
            omega
          · exact hs'.1 c hc
  · rcases mem_tableSet _ _ _ _ hc with ⟨rfl, hv⟩ | hc
    · exact hv
    · exact hz c hc

/-- Every memory operation keeps the canonical form: a write, and the reallocation. -/
theorem memWrite_wf (i : Int) (v : F32) (s : State) (h : Table.wf s.table) : Table.wf (memWrite i v s).table :=
  tableSet_wf _ _ _ h

theorem reallocate_wf (a : U32) (s : State) : Table.wf (reallocate a s).table := by simp [Table.wf]

/-- MemRead after MemWrite of an index with the same masked value (R100). -/
theorem memRead_memWrite_same (i j : Int) (v : F32) (s : State) (h : Table.wf s.table)
    (hij : maskIndex j s = maskIndex i s) : memRead j (memWrite i v s) = v := by
  have hm : maskIndex j (memWrite i v s) = maskIndex i s := (maskIndex_of_size j s _ rfl).trans hij
  simp only [memRead, hm, memWrite_table, tableGet_tableSet_same _ _ _ h]

/-- MemWrite leaves every word of another masked index alone (R101). -/
theorem memRead_memWrite_other (i j : Int) (v : F32) (s : State) (hij : maskIndex j s ≠ maskIndex i s) :
    memRead j (memWrite i v s) = memRead j s := by
  have hm : maskIndex j (memWrite i v s) = maskIndex j s := maskIndex_of_size j s _ rfl
  simp only [memRead, hm, memWrite_table, tableGet_tableSet_other _ _ _ _ hij]

/-- MemRead reads TABLE and SIZE, nothing else. -/
theorem memRead_congr (i : Int) (s t : State) (hs : t.size = s.size) (ht : t.table = s.table) :
    memRead i t = memRead i s := by
  simp only [memRead, maskIndex_of_size i s t hs, ht]

/-- A masked index lies below a power-of-two SIZE (R50), and is the index's residue (R8). -/
theorem maskIndex_eq (i : Int) (s : State) (k : Nat) (hk : s.size.toNat = 2 ^ k) :
    (maskIndex i s : Int) = i % (s.size.toNat : Int) := by
  have hlt := s.size.isLt
  have hk32 : k < 32 := by
    by_contra h
    have : 2 ^ 32 ≤ 2 ^ k := Nat.pow_le_pow_right (by norm_num) (by omega)
    omega
  have hm : s.mask.toNat = 2 ^ k - 1 := by
    have : 1 ≤ 2 ^ k := Nat.one_le_two_pow
    simp only [State.mask, BitVec.toNat_sub, BitVec.toNat_ofNat, hk]
    rw [hk] at hlt
    omega
  have h2 : (BitVec.ofInt 32 i &&& s.mask).toNat = (BitVec.ofInt 32 i).toNat % 2 ^ k := by
    rw [BitVec.toNat_and, hm, Nat.and_two_pow_sub_one_eq_mod]
  have hd : ((2 ^ k : Nat) : Int) ∣ ((2 ^ 32 : Nat) : Int) := by
    exact_mod_cast Nat.pow_dvd_pow 2 (by omega : k ≤ 32)
  rw [maskIndex, h2, hk, BitVec.toNat_ofInt]
  rw [Int.natCast_mod, Int.toNat_of_nonneg (Int.emod_nonneg _ (by norm_num))]
  exact Int.emod_emod_of_dvd _ hd

theorem maskIndex_lt (i : Int) (s : State) (k : Nat) (hk : s.size.toNat = 2 ^ k) :
    maskIndex i s < s.size.toNat := by
  have h := maskIndex_eq i s k hk
  have hp : (0 : Int) < s.size.toNat := by rw [hk]; exact_mod_cast Nat.two_pow_pos k
  have := Int.emod_lt_of_pos i hp
  omega

end Sys2Proof.Machine
end

