-- ==== Sys2Proof/Laws/Ops.lean ====
section
/-! SUPPORT. What each shared operation can do, said once: unlessFaulted, the slots, the frames of a block, a step of the device, and the machine's step
over it. -/

namespace Sys2Proof.Machine

/-! The gate of check 1 (R79). -/

theorem unlessFaulted_ok (s t : State) (h : s.fault = 0#2) : unlessFaulted s t = .next t := by
  simp [unlessFaulted, h]

theorem unlessFaulted_faulted (s t : State) (h : s.fault ≠ 0#2) :
    unlessFaulted s t = .next (respond .faulted 0#32 s) := by
  simp [unlessFaulted, h]

/-! The envelope update changes ENV_LAST alone, and only when enabled (R146). -/

theorem envUpdate_frame (d : Nat) (x : F32) (s : State) :
    (envUpdate d x s).2 = { s with envLast := if s.envEn then (envUpdate d x s).1 else s.envLast } := by
  by_cases h : s.envEn = true
  · rw [if_pos h, envUpdate, if_pos h]
  · rw [if_neg h, envUpdate, if_neg h]

/-- The first half of a playback sample writes ENV_LAST, if enabled, and PHASE_INC, nothing else of the spec's (R179). -/
theorem beginPlayback_frame (f : FrameWord) (s : State) :
    (beginPlayback f s).2 =
      { s with
        envLast := if s.envEn then (envUpdate s.draws (frameControl f) s).1 else s.envLast
        phaseInc := (beginPlayback f s).1
        draws := s.draws + drawsPerSlot } := by
  simp only [beginPlayback]
  rw [envUpdate_frame]

/-! Fields a slot reads only through SIZE, MODE, PHASE and TABLE. -/

theorem interp_congr (d : Nat) (s t : State) (hm : t.mode = s.mode) (hp : t.phase = s.phase) (hs : t.size = s.size)
    (ht : t.table = s.table) : interp d t = interp d s := by
  have hr : ∀ i, memRead i t = memRead i s := fun i => memRead_congr i s t hs ht
  have hi : phaseIndex t = phaseIndex s := by rw [phaseIndex, phaseIndex, hp, maskIndex_of_size _ s t hs]
  simp only [interp, hm, hi, truncate, linear2, cubic4, phaseFraction, hp, hr]

/-- INTERP raises FAULT(INTERNAL_MODE) at MODE = 3 alone (R176). -/
theorem interp_eq_none_iff (d : Nat) (s : State) : interp d s = none ↔ s.mode = 3#2 := by
  obtain ⟨m, hm⟩ : ∃ m, m = s.mode := ⟨_, rfl⟩
  have hlt := m.isLt
  have h3 : m = 3#2 ↔ m.toNat = 3 := by
    rw [← BitVec.toNat_inj]
    simp
  rw [← hm, h3]
  simp only [interp, ← hm]
  have : m.toNat = 0 ∨ m.toNat = 1 ∨ m.toNat = 2 ∨ m.toNat = 3 := by omega
  rcases this with h | h | h | h <;> simp [h]

/-- The advance either moves PHASE or sets FAULT bit 0, nothing else (R179, R180). -/
theorem advance_cases (d : Nat) (inc : F32) (s : State) :
    (isFinite (fadd d s.phase inc) = true ∧
      advance d inc s = ({ s with phase := wrap s.size.toNat (fadd d s.phase inc) }, .quiet)) ∨
    (isFinite (fadd d s.phase inc) = false ∧ advance d inc s = (raiseFault .nonfinitePhase s, .faulted)) := by
  by_cases h : isFinite (fadd d s.phase inc) = true
  · exact .inl ⟨h, by simp [advance, h]⟩
  · exact .inr ⟨by simpa using h, by simp [advance, h]⟩

/-- A playback sample (R179): it advances, or faults on its phase, or at MODE = 3 faults before its output. -/
theorem playbackSample_cases (f : FrameWord) (s : State) :
    ∃ e inc d, (e = s.envLast ∨ s.envEn = true) ∧
    ((∃ y p, isFinite p = true ∧ playbackSample f s =
        ({ s with envLast := e, phaseInc := inc, draws := d, outputs := s.outputs ++ [y],
                  phase := wrap s.size.toNat p }, .quiet)) ∨
     (∃ y, playbackSample f s =
        ({ s with envLast := e, phaseInc := inc, draws := d, outputs := s.outputs ++ [y],
                  fault := s.fault ||| faultBit .nonfinitePhase }, .faulted)) ∨
     (s.mode = 3#2 ∧ playbackSample f s =
        ({ s with envLast := e, phaseInc := inc, draws := d,
                  fault := s.fault ||| faultBit .internalMode }, .faulted))) := by
  have hb := beginPlayback_frame f s
  refine ⟨if s.envEn = true then (envUpdate s.draws (frameControl f) s).1 else s.envLast, (beginPlayback f s).1,
    s.draws + drawsPerSlot, by cases s.envEn <;> simp, ?_⟩
  simp only [playbackSample]
  generalize (beginPlayback f s).2 = t at hb ⊢
  subst hb
  cases h : interp (s.draws + 4) _ with
  | none => exact .inr (.inr ⟨(interp_eq_none_iff _ _).mp h, rfl⟩)
  | some y =>
    rcases advance_cases (s.draws + 23) (beginPlayback f s).1 (emit y _) with ⟨hp, h2⟩ | ⟨-, h2⟩
    · exact .inl ⟨y, _, hp, h2⟩
    · exact .inr (.inl ⟨y, h2⟩)

/-- A slot (R201): a capture sample while Recording, a playback sample while Idle. -/
theorem slot_recording (f : FrameWord) (s : State) (r : U32) (h : s.capState = .recording r) :
    slot f s = captureSample r f s := by simp [slot, h]

theorem slot_idle (f : FrameWord) (s : State) (h : s.capState = .idle) : slot f s = playbackSample f s := by
  simp [slot, h]

/-! The fields of a state that no slot writes and no slot reads: the ports' queues, the in-progress record, the responses. -/

/-- The state with other ports. -/
def withPorts (q : List CommandWord) (b : Option Block) (fs : List FrameWord) (rs : List ResponseWord) (s : State) : State :=
  { s with queue := q, inProgress := b, frames := fs, responses := rs }

section Ports
variable (q : List CommandWord) (b : Option Block) (fs : List FrameWord) (rs : List ResponseWord)

theorem envUpdate_ports (d : Nat) (x : F32) (s : State) :
    envUpdate d x (withPorts q b fs rs s) =
      ((envUpdate d x s).1, withPorts q b fs rs (envUpdate d x s).2) := by
  cases h : s.envEn <;> simp [envUpdate, withPorts, attack, decay, h]

theorem interp_ports (d : Nat) (s : State) : interp d (withPorts q b fs rs s) = interp d s :=
  interp_congr d s _ rfl rfl rfl rfl

theorem advance_ports (d : Nat) (inc : F32) (s : State) :
    advance d inc (withPorts q b fs rs s) = (withPorts q b fs rs (advance d inc s).1, (advance d inc s).2) := by
  cases h : isFinite (fadd d s.phase inc) <;> simp [advance, withPorts, raiseFault, h]

theorem beginPlayback_ports (f : FrameWord) (s : State) :
    beginPlayback f (withPorts q b fs rs s) =
      ((beginPlayback f s).1, withPorts q b fs rs (beginPlayback f s).2) := by
  simp only [beginPlayback]
  rw [show (withPorts q b fs rs s).draws = s.draws from rfl, envUpdate_ports q b fs rs]
  rfl

theorem playbackSample_ports (f : FrameWord) (s : State) :
    playbackSample f (withPorts q b fs rs s) =
      (withPorts q b fs rs (playbackSample f s).1, (playbackSample f s).2) := by
  simp only [playbackSample]
  rw [show (withPorts q b fs rs s).draws = s.draws from rfl, beginPlayback_ports q b fs rs]
  simp only [interp_ports]
  cases interp (s.draws + 4) (beginPlayback f s).2 with
  | none => rfl
  | some y => exact advance_ports q b fs rs (s.draws + 23) (beginPlayback f s).1 (emit y (beginPlayback f s).2)

/-- A slot neither reads nor writes the ports but for its output word. -/
theorem slot_ports (f : FrameWord) (s : State) :
    slot f (withPorts q b fs rs s) = (withPorts q b fs rs (slot f s).1, (slot f s).2) := by
  simp only [slot]
  rw [show (withPorts q b fs rs s).capState = s.capState from rfl]
  cases s.capState with
  | recording r =>
    simp only [captureSample]
    split <;> rfl
  | idle => exact playbackSample_ports q b fs rs f s

end Ports

/-! A block over its frames. -/

/-- What a block's frames keep: anything every slot keeps and the ports' fields do not touch. -/
theorem runFrames_keeps (P : State → Prop) (hslot : ∀ f s, P s → P (slot f s).1)
    (hports : ∀ q b fs rs s, P s → P (withPorts q b fs rs s)) (fs : List FrameWord) (b : Block) (s : State) (h : P s) :
    P (runFrames fs b s) := by
  have hsettle : ∀ (b : Block) (rest : List FrameWord) (s : State), P s → P (settle b rest s) := by
    intro b rest s h
    simp only [settle]
    split
    · exact hports s.queue none rest (s.responses ++ [responseWord b.status b.data]) s h
    · exact hports s.queue (some b) rest s.responses s h
  induction fs generalizing b s with
  | nil => exact hsettle b [] s h
  | cons f fs ih =>
    simp only [runFrames]
    split
    · exact hsettle b (f :: fs) s h
    · refine ih _ _ ?_
      simp only [frameStep]
      split
      · exact h
      · exact hslot f s h

/-- With no frame owed a block ends where it stands. -/
theorem runFrames_done (fs : List FrameWord) (b : Block) (s : State) (h : b.todo = 0) :
    runFrames fs b s = settle b fs s := by
  cases fs <;> simp [runFrames, h]

theorem runFrames_cons (f : FrameWord) (fs : List FrameWord) (b : Block) (s : State) (h : b.todo ≠ 0) :
    runFrames (f :: fs) b s = runFrames fs (frameStep b f s).1 (frameStep b f s).2 := by
  simp [runFrames, h]

/-- A block whose status is decided consumes its frames, ignores them, and answers (R82, R205). -/
theorem runFrames_verdict (v : Status) (n k : Nat) (done : Option Nat) (fs : List FrameWord) (s : State)
    (h : n ≤ fs.length) :
    runFrames fs ⟨n, k, done, some v⟩ s =
      respond v 0#32 { s with frames := fs.drop n, inProgress := none } := by
  induction fs generalizing n with
  | nil =>
    have : n = 0 := by simpa using h
    subst this
    rfl
  | cons f fs ih =>
    cases n with
    | zero => rfl
    | succ n =>
      rw [runFrames_cons _ _ _ _ (by simp)]
      exact ih n (by simpa using h)

/-- Every frame step uses one frame. -/
theorem frameStep_todo (b : Block) (f : FrameWord) (s : State) : (frameStep b f s).1.todo = b.todo - 1 := by
  simp only [frameStep]
  split
  · rfl
  · cases (slot f s).2 <;> rfl

/-- A block and the state after a list of frames. -/
def frameSteps : List FrameWord → Block → State → Block × State
  | [], b, s => (b, s)
  | f :: fs, b, s => frameSteps fs (frameStep b f s).1 (frameStep b f s).2

theorem frameSteps_todo (fs : List FrameWord) (b : Block) (s : State) :
    (frameSteps fs b s).1.todo = b.todo - fs.length := by
  induction fs generalizing b s with
  | nil => simp [frameSteps]
  | cons f fs ih =>
    simp only [frameSteps, ih, frameStep_todo, List.length_cons]
    omega

/-- A block runs over a list as over its first part and then the rest (R200). -/
theorem runFrames_append (fs gs : List FrameWord) (b : Block) (s : State) (h : fs.length ≤ b.todo) :
    runFrames (fs ++ gs) b s = runFrames gs (frameSteps fs b s).1 (frameSteps fs b s).2 := by
  induction fs generalizing b s with
  | nil => rfl
  | cons f fs ih =>
    simp only [List.length_cons] at h
    rw [List.cons_append, runFrames_cons _ _ _ _ (by omega), frameSteps]
    exact ih _ _ (by rw [frameStep_todo]; omega)

theorem frameStep_ports (q : List CommandWord) (p : Option Block) (fs : List FrameWord) (rs : List ResponseWord) (b : Block)
    (f : FrameWord) (s : State) :
    frameStep b f (withPorts q p fs rs s) = ((frameStep b f s).1, withPorts q p fs rs (frameStep b f s).2) := by
  simp only [frameStep, slot_ports]
  split <;> rfl

theorem frameSteps_ports (q : List CommandWord) (p : Option Block) (fs : List FrameWord) (rs : List ResponseWord)
    (gs : List FrameWord) (b : Block) (s : State) :
    frameSteps gs b (withPorts q p fs rs s) = ((frameSteps gs b s).1, withPorts q p fs rs (frameSteps gs b s).2) := by
  induction gs generalizing b s with
  | nil => rfl
  | cons g gs ih => rw [frameSteps, frameStep_ports, frameSteps, ih]

/-- What a block does to the state's other fields does not depend on the frames and the in-progress record it finds there. -/
theorem runFrames_ports (q : List CommandWord) (p p' : Option Block) (fs fs' : List FrameWord) (rs : List ResponseWord)
    (gs : List FrameWord) (b : Block) (s : State) :
    runFrames gs b (withPorts q p fs rs s) = runFrames gs b (withPorts q p' fs' rs s) := by
  induction gs generalizing b s with
  | nil =>
    simp only [runFrames, settle]
    split <;> rfl
  | cons g gs ih =>
    simp only [runFrames]
    split
    · rename_i h
      simp only [settle, if_pos h]
      rfl
    · rw [frameStep_ports, frameStep_ports]
      exact ih _ _

/-! A command and a step, said once. -/

/-- The state after a command that writes registers of its own, before its response. -/
def WritesRegisters (i : Instr) (s t : State) : Prop :=
  (i = .captureStart ∧ t = { s with capState := .recording s.size }) ∨
  (∃ a, i = .setSize a ∧ legalSize a = true ∧ a ≠ s.size ∧ a.toNat ≤ Config.nMax ∧ t = reallocate a s) ∨
  (∃ k, i = .setMode k ∧ legalMode k = true ∧ t = { s with mode := k.setWidth 2 }) ∨
  (∃ v, i = .setAttackMs v ∧ legalTime v = true ∧ t = recompute { s with attackMs := v }) ∨
  (∃ v, i = .setDecayMs v ∧ legalTime v = true ∧ t = recompute { s with decayMs := v }) ∨
  (∃ v, i = .setSampleRate v ∧ legalTime v = true ∧ t = recompute { s with sampleRate := v }) ∨
  (∃ b, i = .setEnvEnable b ∧ ArgKind.bool.wellFormed b = true ∧ t = { s with envEn := enableBit b })

/-- What executing a command can do (R200 to R205 and the commands' rules): answer and leave the rest as it is, write its
own registers and answer OK, or run a block. -/
theorem exec_cases (i : Instr) (s t : State) (h : exec i s = .next t) :
    (∃ c v, (c ≠ .ok → v = 0#32) ∧ t = respond c v s) ∨
    (s.fault = 0#2 ∧ ∃ u, WritesRegisters i s u ∧ t = respond .ok 0#32 u) ∨
    (∃ n, i = .processBlock n ∧
      t = startBlock n.toNat (if s.fault = 0#2 then none else some .faulted) s) := by
  have gate : ∀ u : State, unlessFaulted s u = .next t →
      (s.fault = 0#2 ∧ t = u) ∨ t = respond .faulted 0#32 s := by
    intro u hu
    by_cases hf : s.fault = 0#2
    · rw [unlessFaulted_ok s u hf] at hu
      exact .inl ⟨hf, by cases hu; rfl⟩
    · rw [unlessFaulted_faulted s u hf] at hu
      exact .inr (by cases hu; rfl)
  cases i with
  | captureStart =>
    rcases gate _ h with ⟨hf, rfl⟩ | rfl
    · exact .inr (.inl ⟨hf, _, .inl ⟨rfl, rfl⟩, rfl⟩)
    · exact .inl ⟨_, _, fun _ => rfl, rfl⟩
  | setSize a =>
    rcases gate _ h with ⟨hf, ht⟩ | rfl
    · split at ht
      · exact .inl ⟨_, _, fun _ => rfl, ht⟩
      · split at ht
        · exact .inl ⟨_, _, fun _ => rfl, ht⟩
        · split at ht
          · exact .inl ⟨_, _, fun _ => rfl, ht⟩
          · rename_i h1 h2 h3
            exact .inr (.inl ⟨hf, _, .inr (.inl ⟨a, rfl, by simpa using h1, h2, by omega, rfl⟩), ht⟩)
    · exact .inl ⟨_, _, fun _ => rfl, rfl⟩
  | setMode k =>
    rcases gate _ h with ⟨hf, ht⟩ | rfl
    · split at ht
      · rename_i h1
        exact .inr (.inl ⟨hf, _, .inr (.inr (.inl ⟨k, rfl, h1, rfl⟩)), ht⟩)
      · exact .inl ⟨_, _, fun _ => rfl, ht⟩
    · exact .inl ⟨_, _, fun _ => rfl, rfl⟩
  | setAttackMs v =>
    rcases gate _ h with ⟨hf, ht⟩ | rfl
    · split at ht
      · rename_i h1
        exact .inr (.inl ⟨hf, _, .inr (.inr (.inr (.inl ⟨v, rfl, h1, rfl⟩))), ht⟩)
      · exact .inl ⟨_, _, fun _ => rfl, ht⟩
    · exact .inl ⟨_, _, fun _ => rfl, rfl⟩
  | setDecayMs v =>
    rcases gate _ h with ⟨hf, ht⟩ | rfl
    · split at ht
      · rename_i h1
        exact .inr (.inl ⟨hf, _, .inr (.inr (.inr (.inr (.inl ⟨v, rfl, h1, rfl⟩)))), ht⟩)
      · exact .inl ⟨_, _, fun _ => rfl, ht⟩
    · exact .inl ⟨_, _, fun _ => rfl, rfl⟩
  | setEnvEnable b =>
    rcases gate _ h with ⟨hf, ht⟩ | rfl
    · split at ht
      · rename_i h1
        exact .inr (.inl ⟨hf, _, .inr (.inr (.inr (.inr (.inr (.inr ⟨b, rfl, h1, rfl⟩))))), ht⟩)
      · exact .inl ⟨_, _, fun _ => rfl, ht⟩
    · exact .inl ⟨_, _, fun _ => rfl, rfl⟩
  | setSampleRate v =>
    rcases gate _ h with ⟨hf, ht⟩ | rfl
    · split at ht
      · rename_i h1
        exact .inr (.inl ⟨hf, _, .inr (.inr (.inr (.inr (.inr (.inl ⟨v, rfl, h1, rfl⟩))))), ht⟩)
      · exact .inl ⟨_, _, fun _ => rfl, ht⟩
    · exact .inl ⟨_, _, fun _ => rfl, rfl⟩
  | processBlock n =>
    refine .inr (.inr ⟨n, rfl, ?_⟩)
    simp only [exec, execProcessBlock, Host.Outcome.next.injEq] at h
    exact h.symm
  | readReg r =>
    simp only [exec, execReadReg, Host.Outcome.next.injEq] at h
    split at h
    · exact .inl ⟨_, _, fun hc => absurd rfl hc, h.symm⟩
    · exact .inl ⟨_, _, fun _ => rfl, h.symm⟩
  | readTable x =>
    rcases gate _ h with ⟨hf, ht⟩ | rfl
    · exact .inl ⟨_, _, fun hc => absurd rfl hc, ht⟩
    · exact .inl ⟨_, _, fun _ => rfl, rfl⟩

/-- What the device can do in one step (R58): run the in-progress block on, stay idle, execute the next command, or reject the next word. -/
theorem deviceStep_cases (s t : State) (h : deviceStep s = .next t) :
    (∃ b, s.inProgress = some b ∧ t = runFrames s.frames b s) ∨
    (s.inProgress = none ∧ s.queue = [] ∧ t = s) ∨
    (∃ w ws, s.inProgress = none ∧ s.queue = w :: ws ∧
      ((∃ i, decode w = .ok i ∧ exec i { s with queue := ws } = .next t) ∨
       (∃ e, decode w = .error e ∧ t = rejectWord w { s with queue := ws }))) := by
  simp only [deviceStep] at h
  cases hp : s.inProgress with
  | some b =>
    simp only [hp, Host.Outcome.next.injEq] at h
    exact .inl ⟨b, rfl, h.symm⟩
  | none =>
    simp only [hp, fetch] at h
    cases hq : s.queue with
    | nil =>
      simp only [hq, Host.Outcome.next.injEq] at h
      exact .inr (.inl ⟨rfl, rfl, h.symm⟩)
    | cons w ws =>
      simp only [hq] at h
      refine .inr (.inr ⟨w, ws, rfl, rfl, ?_⟩)
      cases hd : decode w with
      | ok i =>
        simp only [hd] at h
        exact .inl ⟨i, rfl, h⟩
      | error e =>
        simp only [hd, Host.Outcome.next.injEq] at h
        exact .inr ⟨e, rfl, h.symm⟩

/-- Starting a block keeps what its frames keep. -/
theorem startBlock_keeps (P : State → Prop) (hslot : ∀ f s, P s → P (slot f s).1)
    (hports : ∀ q b fs rs s, P s → P (withPorts q b fs rs s)) (n : Nat) (v : Option Status) (s : State) (h : P s) :
    P (startBlock n v s) :=
  runFrames_keeps P hslot hports _ _ _ h

/-- A property that every slot and every register write keeps, and that does not look at the ports, is kept by every
transition of the device. -/
theorem deviceStep_keeps (P : State → Prop) (hslot : ∀ f s, P s → P (slot f s).1)
    (hports : ∀ q b fs rs s, P s → P (withPorts q b fs rs s))
    (hregs : ∀ i s t, WritesRegisters i s t → P s → P t) (s t : State) (h : deviceStep s = .next t) (hs : P s) : P t := by
  have hr : ∀ c v u, P u → P (respond c v u) := fun c v u hu =>
    hports u.queue u.inProgress u.frames (u.responses ++ [responseWord c v]) u hu
  rcases deviceStep_cases s t h with ⟨b, -, rfl⟩ | ⟨-, -, rfl⟩ | ⟨w, ws, -, -, hw⟩
  · exact runFrames_keeps P hslot hports _ _ _ hs
  · exact hs
  · have hq : P { s with queue := ws } := hports ws s.inProgress s.frames s.responses s hs
    rcases hw with ⟨i, -, he⟩ | ⟨e, -, rfl⟩
    · rcases exec_cases i _ t he with ⟨c, v, -, rfl⟩ | ⟨-, u, hu, rfl⟩ | ⟨n, -, rfl⟩
      · exact hr _ _ _ hq
      · exact hr _ _ _ (hregs i _ _ hu hq)
      · exact startBlock_keeps P hslot hports _ _ _ hq
    · simp only [rejectWord]
      split
      · exact startBlock_keeps P hslot hports _ _ _ hq
      · exact hr _ _ _ hq

/-! The stop at a fault (R205, R234). -/

/-- No fault is raised where the FAULT bits stay (R233). -/
theorem raisedFault_same (s t : State) (h : t.fault = s.fault) : raisedFault s t = none := by
  by_cases hs : s.fault = 0#2 <;> simp [raisedFault, hs, h, faultBit]

/-- Without a fault before, one is raised exactly when a FAULT bit is set after, and it is the kind of that bit (R233). -/
theorem raisedFault_eq_some_iff (s t : State) (k : Fault) :
    raisedFault s t = some k ↔ s.fault = 0#2 ∧ t.fault = faultBit k := by
  rw [raisedFault]
  generalize s.fault = f
  generalize t.fault = g
  revert f g
  cases k <;> decide

/-- A next state passes on unless a fault was raised. -/
theorem stopAtFault_next_iff (s u t : State) :
    stopAtFault s (.next u) = .next t ↔ u = t ∧ raisedFault s t = none := by
  simp only [stopAtFault]
  cases h : raisedFault s u with
  | none =>
    simp only [Host.Outcome.next.injEq]
    exact ⟨fun e => ⟨e, e ▸ h⟩, fun e => e.1⟩
  | some k =>
    simp only [reduceCtorEq, false_iff]
    rintro ⟨rfl, h'⟩
    simp [h'] at h

/-- A transition that leaves the FAULT bits alone is the step. -/
theorem stopAtFault_same (s t : State) (h : t.fault = s.fault) : stopAtFault s (.next t) = .next t := by
  simp [stopAtFault, raisedFault_same s t h]

/-- Executing a command always answers a next state. -/
theorem exec_next (i : Instr) (s : State) : ∃ t, exec i s = .next t := by
  cases i <;> exact ⟨_, rfl⟩

/-- The device always goes on (R245). -/
theorem deviceStep_next (s : State) : ∃ t, deviceStep s = .next t := by
  simp only [deviceStep]
  split
  · exact ⟨_, rfl⟩
  · split
    · exact ⟨_, rfl⟩
    · split
      · exact exec_next _ _
      · exact ⟨_, rfl⟩

/-- The machine's step answers the device's next state exactly when no fault was raised in it (R205, R234). -/
theorem step_next_iff (s t : State) : step s = .next t ↔ deviceStep s = .next t ∧ raisedFault s t = none := by
  obtain ⟨u, hu⟩ := deviceStep_next s
  rw [step, hu, stopAtFault_next_iff, Host.Outcome.next.injEq]

/-- The machine's step faults exactly when the device raised that fault (R234). -/
theorem step_fault_iff (s : State) (k : Fault) :
    step s = .fault k ↔ ∃ t, deviceStep s = .next t ∧ raisedFault s t = some k := by
  obtain ⟨u, hu⟩ := deviceStep_next s
  rw [step, hu]
  simp only [stopAtFault, Host.Outcome.next.injEq, exists_eq_left']
  cases raisedFault s u <;> simp

end Sys2Proof.Machine
end

