-- ==== Sys2Proof/Laws/Block.lean ====
section
/-! SUPPORT. A block as a whole: what its frames do when they all are there, when it ends and when it waits, how its parts
compose, and what a fault does to it (R82, R200 to R205). -/

namespace Sys2Proof.Machine

/-! The ports. -/

/-- What a block does to the rest of the state does not depend on the queue, and it leaves the queue alone (R58). -/
theorem runFrames_queue (q : List CommandWord) (fs : List FrameWord) (b : Block) (s : State) :
    runFrames fs b { s with queue := q } = { runFrames fs b s with queue := q } := by
  induction fs generalizing b s with
  | nil =>
    simp only [runFrames, settle]
    split <;> rfl
  | cons f fs ih =>
    by_cases h : b.todo = 0
    · simp [runFrames, h, settle, respond]
    · rw [runFrames_cons _ _ _ _ h, runFrames_cons _ _ _ _ h]
      have h1 := frameStep_ports q s.inProgress s.frames s.responses b f s
      have h2 := frameStep_ports s.queue s.inProgress s.frames s.responses b f s
      change frameStep b f { s with queue := q } = _ at h1
      change frameStep b f s = _ at h2
      rw [h1, ← ih, h2]
      rfl

/-- No slot writes the queue or the responses. -/
theorem frameSteps_keeps_ports (fs : List FrameWord) (b : Block) (s : State) :
    (frameSteps fs b s).2.queue = s.queue ∧ (frameSteps fs b s).2.responses = s.responses := by
  have h := frameSteps_ports s.queue s.inProgress s.frames s.responses fs b s
  exact ⟨congrArg (·.2.queue) h, congrArg (·.2.responses) h⟩

/-! Parts. -/

theorem frameSteps_append (fs gs : List FrameWord) (b : Block) (s : State) :
    frameSteps (fs ++ gs) b s = frameSteps gs (frameSteps fs b s).1 (frameSteps fs b s).2 := by
  induction fs generalizing b s with
  | nil => rfl
  | cons f fs ih => exact ih _ _

/-- With enough frames a block takes its own and ends (R200). -/
theorem runFrames_enough (fs : List FrameWord) (b : Block) (s : State) (h : b.todo ≤ fs.length) :
    runFrames fs b s =
      settle (frameSteps (fs.take b.todo) b s).1 (fs.drop b.todo) (frameSteps (fs.take b.todo) b s).2 := by
  have h1 := runFrames_append (fs.take b.todo) (fs.drop b.todo) b s (by simp)
  rw [List.take_append_drop] at h1
  rw [h1, runFrames_done]
  rw [frameSteps_todo, List.length_take]
  omega

/-- With too few frames a block takes them all and waits, with no response (log 7). -/
theorem runFrames_short (fs : List FrameWord) (b : Block) (s : State) (h : fs.length < b.todo) :
    runFrames fs b s =
      { (frameSteps fs b s).2 with frames := [], inProgress := some (frameSteps fs b s).1 } := by
  have h1 := runFrames_append fs [] b s h.le
  rw [List.append_nil] at h1
  have h2 : (frameSteps fs b s).1.todo ≠ 0 := by
    rw [frameSteps_todo]
    omega
  rw [h1, runFrames, settle, if_neg h2]

/-- The states of a block's slots depend on the block's verdict alone. -/
theorem frameSteps_verdict (fs : List FrameWord) (b c : Block) (s : State) (h : b.verdict = c.verdict) :
    (frameSteps fs b s).1.verdict = (frameSteps fs c s).1.verdict ∧
      (frameSteps fs b s).2 = (frameSteps fs c s).2 := by
  induction fs generalizing b c s with
  | nil => exact ⟨h, rfl⟩
  | cons f fs ih =>
    have h2 : (frameStep b f s).2 = (frameStep c f s).2 := by simp only [frameStep, ← h]; cases b.verdict <;> rfl
    have h1 : (frameStep b f s).1.verdict = (frameStep c f s).1.verdict := by
      simp only [frameStep, ← h]
      cases hb : b.verdict with
      | some v => rfl
      | none => cases (slot f s).2 <;> simp [Block.afterEvent, ← h, hb]
    simp only [frameSteps]
    rw [← h2]
    exact ih _ _ _ h1

/-- PROCESS_BLOCK with all its frames at hand (R200): its slots, the frames used up, the response. -/
theorem execProcessBlock_enough (n : U32) (s : State) (h : n.toNat ≤ s.frames.length) :
    ∃ b t, frameSteps (s.frames.take n.toNat)
        ⟨n.toNat, 0, none, if s.fault = 0#2 then none else some .faulted⟩ s = (b, t) ∧
      execProcessBlock n s =
        .next (respond b.status b.data { t with frames := s.frames.drop n.toNat, inProgress := none }) := by
  refine ⟨_, _, rfl, ?_⟩
  have h0 : (frameSteps (s.frames.take n.toNat)
      ⟨n.toNat, 0, none, if s.fault = 0#2 then none else some .faulted⟩ s).1.todo = 0 := by
    rw [frameSteps_todo, List.length_take]
    simp only
    omega
  simp only [execProcessBlock, startBlock]
  rw [runFrames_enough _ _ _ (by exact h), settle, if_pos h0]

/-- A block of one slot. -/
theorem execProcessBlock_one (f : FrameWord) (fs : List FrameWord) (s : State) (hf : s.fault = 0#2)
    (hfr : s.frames = f :: fs) :
    execProcessBlock 1#32 s =
      .next (settle ((⟨1, 0, none, none⟩ : Block).afterEvent (slot f s).2) fs (slot f s).1) := by
  simp only [execProcessBlock, if_pos hf, startBlock, hfr]
  rw [show (1#32).toNat = 1 from rfl, runFrames_cons _ _ _ _ (by simp)]
  simp only [frameStep]
  rw [runFrames_done]
  cases (slot f s).2 <;> rfl

/-! Faults. -/

/-- On a device without a fault, a slot reports a fault exactly when it sets a FAULT bit, and then sets one (R234). -/
theorem slot_fault (f : FrameWord) (s : State) (hs : s.fault = 0#2) :
    ((slot f s).2 = .faulted ↔ (slot f s).1.fault ≠ 0#2) ∧
      ((slot f s).1.fault = 0#2 ∨ (slot f s).1.fault = 0b01#2 ∨ ((slot f s).1.fault = 0b10#2 ∧ s.mode = 3#2)) := by
  cases hc : s.capState with
  | recording r =>
    rw [slot_recording f s r hc, captureSample]
    split <;> simp [hs]
  | idle =>
    rw [slot_idle f s hc]
    obtain ⟨e, inc, d, -, ⟨y, p, -, h⟩ | ⟨y, h⟩ | ⟨hm, h⟩⟩ := playbackSample_cases f s <;> rw [h]
    · simp [hs]
    · simp [hs, faultBit]
    · simp [hs, faultBit, hm]

/-- A slot clears no FAULT bit and writes no MODE (R36, R25). -/
theorem slot_keeps_fault (f : FrameWord) (s : State) :
    s.fault &&& (slot f s).1.fault = s.fault ∧ (slot f s).1.mode = s.mode := by
  cases hc : s.capState with
  | recording r =>
    rw [slot_recording f s r hc, captureSample]
    split <;> simp
  | idle =>
    rw [slot_idle f s hc]
    have hor : ∀ b : BitVec 2, s.fault &&& (s.fault ||| b) = s.fault := fun b => by
      ext j hj
      simp
      intro h
      simp [h]
    obtain ⟨e, inc, d, -, ⟨y, p, -, h⟩ | ⟨y, h⟩ | ⟨hm, h⟩⟩ := playbackSample_cases f s <;> rw [h]
    · simp
    · exact ⟨hor _, rfl⟩
    · exact ⟨hor _, rfl⟩

/-- A block that started on a device without a fault has a verdict exactly when it has set a FAULT bit (R205). -/
theorem frameSteps_fault (fs : List FrameWord) (b : Block) (s : State) (hb : b.verdict = none ↔ s.fault = 0#2) :
    (frameSteps fs b s).1.verdict = none ↔ (frameSteps fs b s).2.fault = 0#2 := by
  induction fs generalizing b s with
  | nil => exact hb
  | cons f fs ih =>
    apply ih
    simp only [frameStep]
    cases hv : b.verdict with
    | some v =>
      simp only [hv] at hb ⊢
      simpa using hb
    | none =>
      have h := (slot_fault f s (hb.mp hv)).1
      simp only
      cases he : (slot f s).2 <;> simp [he, Block.afterEvent, hv] at h ⊢ <;> exact h

/-- A block whose status is decided keeps it (R205). -/
theorem frameSteps_decided (fs : List FrameWord) (b : Block) (s : State) (h : b.verdict ≠ none) :
    (frameSteps fs b s).1.verdict ≠ none := by
  induction fs generalizing b s with
  | nil => exact h
  | cons f fs ih =>
    apply ih
    simp only [frameStep]
    cases hv : b.verdict with
    | none => exact absurd hv h
    | some v => simp

/-! The capture-done field. -/

/-- CAP_STATE is Idle after a slot that began Idle, which completes no capture, and after one that completes a capture
(R122, R201). -/
theorem slot_capState (f : FrameWord) (s : State) :
    (s.capState = .idle → (slot f s).2 ≠ .captureDone ∧ (slot f s).1.capState = .idle) ∧
      ((slot f s).2 = .captureDone → (slot f s).1.capState = .idle) := by
  cases hc : s.capState with
  | recording r =>
    rw [slot_recording f s r hc, captureSample]
    split <;> simp
  | idle =>
    rw [slot_idle f s hc]
    obtain ⟨e, inc, d, -, ⟨y, p, -, h⟩ | ⟨y, h⟩ | ⟨hm, h⟩⟩ := playbackSample_cases f s <;> rw [h] <;> simp [hc]

/-- Where a capture completes (R202): one frame at most, the same whatever the block's slot number; CAP_STATE is Idle from
there on, and no capture completes from Idle. -/
theorem frameSteps_done (fs : List FrameWord) (s : State) (v : Option Status) :
    ∃ e : Option Nat, ∀ b : Block, b.verdict = v →
      (frameSteps fs b s).1.done = (match e with | some j => some (b.slot + j) | none => b.done) ∧
      (∀ j, e = some j → j < fs.length ∧ (frameSteps fs b s).2.capState = .idle) ∧
      (s.capState = .idle → e = none ∧ (frameSteps fs b s).2.capState = .idle) ∧
      ((frameSteps fs b s).1.verdict = none → (frameSteps fs b s).1.slot = b.slot + fs.length) := by
  induction fs generalizing s v with
  | nil => exact ⟨none, fun b hb => ⟨rfl, by simp, fun h => ⟨rfl, h⟩, fun _ => rfl⟩⟩
  | cons f fs ih =>
    cases v with
    | some w =>
      obtain ⟨e, he⟩ := ih s (some w)
      refine ⟨e, fun b hb => ?_⟩
      have hs : frameStep b f s = ({ b with todo := b.todo - 1 }, s) := by simp [frameStep, hb]
      obtain ⟨h1, h2, h3, -⟩ := he { b with todo := b.todo - 1 } hb
      simp only [frameSteps, hs]
      exact ⟨h1, fun j hj => ⟨by have := (h2 j hj).1; simp; omega, (h2 j hj).2⟩, h3,
        fun h => absurd h (frameSteps_decided fs _ s (by simp [hb]))⟩
    | none =>
      have hstep : ∀ b : Block, b.verdict = none → frameStep b f s = (b.afterEvent (slot f s).2, (slot f s).1) := by
        intro b hb
        simp [frameStep, hb]
      obtain ⟨c1, c2⟩ := slot_capState f s
      cases hev : (slot f s).2 with
      | captureDone =>
        obtain ⟨e, he⟩ := ih (slot f s).1 none
        refine ⟨some 0, fun b hb => ?_⟩
        simp only [frameSteps, hstep b hb, hev, Block.afterEvent]
        obtain ⟨h1, -, h3, h4⟩ := he { b with todo := b.todo - 1, slot := b.slot + 1, done := some b.slot } hb
        obtain ⟨h5, h6⟩ := h3 (c2 hev)
        refine ⟨by rw [h1, h5]; simp, fun j hj => ?_, fun hc => absurd hev (c1 hc).1, fun h => ?_⟩
        · cases hj
          exact ⟨by simp, h6⟩
        · rw [h4 h]
          simp
          omega
      | quiet =>
        obtain ⟨e, he⟩ := ih (slot f s).1 none
        refine ⟨e.map (· + 1), fun b hb => ?_⟩
        simp only [frameSteps, hstep b hb, hev, Block.afterEvent]
        obtain ⟨h1, h2, h3, h4⟩ := he { b with todo := b.todo - 1, slot := b.slot + 1 } hb
        refine ⟨by rw [h1]; cases e <;> simp; omega, fun j hj => ?_, fun hc => ?_, fun h => by rw [h4 h]; simp; omega⟩
        · cases e with
          | none => simp at hj
          | some i =>
            simp at hj
            exact ⟨by have := (h2 i rfl).1; simp; omega, (h2 i rfl).2⟩
        · exact ⟨by rw [(h3 (c1 hc).2).1]; rfl, (h3 (c1 hc).2).2⟩
      | faulted =>
        obtain ⟨e, he⟩ := ih (slot f s).1 (some .faulted)
        refine ⟨e.map (· + 1), fun b hb => ?_⟩
        simp only [frameSteps, hstep b hb, hev, Block.afterEvent]
        obtain ⟨h1, h2, h3, h4⟩ := he { b with todo := b.todo - 1, slot := b.slot + 1, verdict := some .faulted } rfl
        refine ⟨by rw [h1]; cases e <;> simp; omega, fun j hj => ?_, fun hc => ?_, fun h => by rw [h4 h]; simp; omega⟩
        · cases e with
          | none => simp at hj
          | some i =>
            simp at hj
            exact ⟨by have := (h2 i rfl).1; simp; omega, (h2 i rfl).2⟩
        · exact ⟨by rw [(h3 (c1 hc).2).1]; rfl, (h3 (c1 hc).2).2⟩

/-! Responses. -/

/-- The fields of a response word (R80). -/
theorem responseWord_fields (c : Status) (v : U32) :
    (responseWord c v).extractLsb' 56 8 = statusCode c ∧ (responseWord c v).extractLsb' 32 24 = 0#24 ∧
      (responseWord c v).extractLsb' 0 32 = v := by
  have h1 := v.isLt
  have h2 := (statusCode c).isLt
  have h : (responseWord c v).toNat = (statusCode c).toNat * 2 ^ 56 + v.toNat := by
    simp only [responseWord, BitVec.toNat_append]
    rw [← Nat.shiftLeft_add_eq_or_of_lt h1, ← Nat.shiftLeft_add_eq_or_of_lt (by simp)]
    simp [Nat.shiftLeft_eq]
    omega
  refine ⟨?_, ?_, ?_⟩ <;> apply BitVec.eq_of_toNat_eq
  · simp only [BitVec.extractLsb'_toNat, Nat.shiftRight_eq_div_pow, h]
    omega
  · simp only [BitVec.extractLsb'_toNat, Nat.shiftRight_eq_div_pow, h, BitVec.toNat_ofNat]
    omega
  · simp only [BitVec.extractLsb'_toNat, Nat.shiftRight_eq_div_pow, h]
    omega

end Sys2Proof.Machine
end

