-- ==== Sys2Proof/Laws/Decode.lean ====
section
/-! SUPPORT. The fields of a command word, before and after encoding (R70), what a decoded word holds (R76 to R79), and the
bytes of a word (R53). -/

namespace Sys2Proof

/-- A command word as a number: OPC · 2^56 + ARG (R70). -/
theorem encode_toNat (i : Instr) : (encode i).toNat = i.opcode.toNat * 2 ^ 56 + i.arg.toNat := by
  have h1 := i.arg.isLt
  simp only [encode, BitVec.toNat_append]
  rw [← Nat.shiftLeft_add_eq_or_of_lt h1, ← Nat.shiftLeft_add_eq_or_of_lt (by simp)]
  simp [Nat.shiftLeft_eq]
  omega

/-- The fields of an encoded command (R70). -/
theorem fields_encode (i : Instr) :
    opcField (encode i) = i.opcode ∧ rsvField (encode i) = 0#24 ∧ argField (encode i) = i.arg := by
  have h := encode_toNat i
  have h1 := i.arg.isLt
  have h2 := i.opcode.isLt
  refine ⟨?_, ?_, ?_⟩ <;> apply BitVec.eq_of_toNat_eq
  · simp only [opcField, BitVec.extractLsb'_toNat, Nat.shiftRight_eq_div_pow, h]
    omega
  · simp only [rsvField, BitVec.extractLsb'_toNat, Nat.shiftRight_eq_div_pow, h, BitVec.toNat_ofNat]
    omega
  · simp only [argField, BitVec.extractLsb'_toNat, Nat.shiftRight_eq_div_pow, h]
    omega

/-- A word is its three fields (R70). -/
theorem word_fields (w : CommandWord) : w = opcField w ++ rsvField w ++ argField w := by
  have h := w.isLt
  apply BitVec.eq_of_toNat_eq
  have h1 : (argField w).toNat < 2 ^ 32 := (argField w).isLt
  have h2 : (rsvField w).toNat < 2 ^ 24 := (rsvField w).isLt
  rw [BitVec.toNat_append, BitVec.toNat_append, ← Nat.shiftLeft_add_eq_or_of_lt h1, ← Nat.shiftLeft_add_eq_or_of_lt h2]
  simp [opcField, rsvField, argField, BitVec.extractLsb'_toNat, Nat.shiftRight_eq_div_pow, Nat.shiftLeft_eq]
  omega

/-- What a word holds that decodes to a command (R79). -/
theorem decode_ok (w : CommandWord) (i : Instr) (h : decode w = .ok i) :
    opcField w = i.opcode ∧ rsvField w = 0#24 ∧ argField w = i.arg ∧ i.wellFormed = true := by
  simp only [decode] at h
  split at h
  · cases h
  · rename_i row hrow
    split at h
    · cases h
    · rename_i hr
      split at h
      · rename_i hw
        have hm := List.mem_of_find?_eq_some hrow
        have ho := List.find?_some hrow
        simp only [Except.ok.injEq] at h
        simp [opcodeMap] at hm
        simp at hr ho
        rcases hm with rfl | rfl | rfl | rfl | rfl | rfl | rfl | rfl | rfl | rfl <;> subst h <;>
          simp_all [Instr.opcode, Instr.arg, Instr.wellFormed, Instr.kind, ArgKind.wellFormed]
      · cases h

/-- The bytes of a word, least significant first, are that word again, and the bytes after them stay (R53). -/
theorem wordOfBytes_bytesOfWord (w : CommandWord) (rest : List Byte) :
    (bytesOfWord 8 w ++ rest).take 8 = bytesOfWord 8 w ∧ (bytesOfWord 8 w ++ rest).drop 8 = rest ∧
      wordOfBytes (bytesOfWord 8 w) = w := by
  have hl : (bytesOfWord 8 w).length = 8 := by simp [bytesOfWord]
  refine ⟨by rw [List.take_append_of_le_length (by omega), List.take_of_length_le (by omega)],
    by rw [List.drop_append_of_le_length (by omega), List.drop_of_length_le (by omega)]; rfl, ?_⟩
  apply BitVec.eq_of_toNat_eq
  have h := w.isLt
  simp [bytesOfWord, wordOfBytes, List.range, List.range.loop, natOfBytes, BitVec.extractLsb'_toNat,
    Nat.shiftRight_eq_div_pow]
  omega

end Sys2Proof
end

