-- ==== Sys2Proof/Laws/Float.lean ====
section
/-! SUPPORT. The laws of the binary32 primitives (R9, R10): the fields of a packed value, the value round32 gives, when it
is exact, and how far it can round up. -/

namespace Sys2Proof.Machine

/-! Packing: a sign and 31 bits. -/

/-- ⟦·⟧ · 2^149 of the 31 bits below the sign. -/
def magOfBits (b : Nat) : Nat := if b / 2 ^ 23 = 0 then b else (2 ^ 23 + b % 2 ^ 23) * 2 ^ (b / 2 ^ 23 - 1)

theorem signBit_pack (neg : Bool) (b : Nat) : signBit (BitVec.ofBool neg ++ BitVec.ofNat 31 b : F32) = neg := by
  simp only [signBit]
  rw [BitVec.getLsbD_append]
  simp

theorem toNat_pack (neg : Bool) (b : Nat) (h : b < 2 ^ 31) :
    (BitVec.ofBool neg ++ BitVec.ofNat 31 b : F32).toNat = neg.toNat * 2 ^ 31 + b := by
  rw [BitVec.toNat_append, BitVec.toNat_ofNat, Nat.mod_eq_of_lt h, ← Nat.shiftLeft_add_eq_or_of_lt h,
    Nat.shiftLeft_eq, BitVec.toNat_ofBool]

theorem expField_eq (x : F32) : expField x = x.toNat / 2 ^ 23 % 2 ^ 8 := by
  simp [expField, BitVec.extractLsb'_toNat, Nat.shiftRight_eq_div_pow]

theorem fracField_eq (x : F32) : fracField x = x.toNat % 2 ^ 23 := by
  simp [fracField, BitVec.extractLsb'_toNat]

theorem expField_pack (neg : Bool) (b : Nat) (h : b < 2 ^ 31) :
    expField (BitVec.ofBool neg ++ BitVec.ofNat 31 b : F32) = b / 2 ^ 23 := by
  rw [expField_eq, toNat_pack neg b h]
  have := Bool.toNat_le neg
  omega

theorem fracField_pack (neg : Bool) (b : Nat) (h : b < 2 ^ 31) :
    fracField (BitVec.ofBool neg ++ BitVec.ofNat 31 b : F32) = b % 2 ^ 23 := by
  rw [fracField_eq, toNat_pack neg b h]
  omega

theorem magnitude_pack (neg : Bool) (b : Nat) (h : b < 2 ^ 31) :
    magnitude (BitVec.ofBool neg ++ BitVec.ofNat 31 b : F32) = magOfBits b := by
  simp only [magnitude, magOfBits, expField_pack neg b h, fracField_pack neg b h]
  split
  · rename_i h0
    have := Nat.div_add_mod b (2 ^ 23)
    rw [h0] at this
    omega
  · rfl

/-- The fields bound the magnitude's significand. -/
theorem fracField_lt (x : F32) : fracField x < 2 ^ 23 := by
  rw [fracField_eq]
  exact Nat.mod_lt _ (by norm_num)

theorem expField_lt (x : F32) : expField x < 2 ^ 8 := by
  rw [expField_eq]
  exact Nat.mod_lt _ (by norm_num)

/-- Every magnitude is a significand below 2^24 times a power of two below 2^254. -/
theorem magnitude_form (x : F32) : ∃ c e, c < 2 ^ 24 ∧ e ≤ expField x - 1 ∧ magnitude x = c * 2 ^ e := by
  have hf := fracField_lt x
  simp only [magnitude]
  split
  · exact ⟨fracField x, 0, by omega, Nat.zero_le _, by simp⟩
  · exact ⟨2 ^ 23 + fracField x, expField x - 1, by omega, Nat.le_refl _, rfl⟩

/-! The value round32 gives. -/

/-- A significand K and a drop count put together as round32 does have the value K · 2^(drop count). -/
theorem magOfBits_round (e K : Nat) (hK : K ≤ 2 ^ 24) (he : e = 0 ∨ 2 ^ 23 ≤ K) :
    magOfBits (e * 2 ^ 23 + K) = K * 2 ^ e := by
  by_cases h24 : K = 2 ^ 24
  · subst h24
    have h1 : (e * 2 ^ 23 + 2 ^ 24) / 2 ^ 23 = e + 2 := by omega
    have h2 : (e * 2 ^ 23 + 2 ^ 24) % 2 ^ 23 = 0 := by omega
    simp only [magOfBits, h1, h2]
    rw [if_neg (by omega), show e + 2 - 1 = e + 1 from by omega, pow_succ]
    ring
  · by_cases hlo : K < 2 ^ 23
    · have he0 : e = 0 := by omega
      subst he0
      have h1 : (0 * 2 ^ 23 + K) / 2 ^ 23 = 0 := by omega
      simp only [magOfBits, h1]
      simp
    · have h1 : (e * 2 ^ 23 + K) / 2 ^ 23 = e + 1 := by omega
      have h2 : (e * 2 ^ 23 + K) % 2 ^ 23 = K - 2 ^ 23 := by omega
      simp only [magOfBits, h1, h2]
      rw [if_neg (by omega), Nat.add_sub_cancel, show 2 ^ 23 + (K - 2 ^ 23) = K from by omega]

/-- The places of m below the last place of its rounding to the grid of R9, for a value m · 2^-p. -/
def dropOf (m p : Nat) : Nat := max (m.log2 - 23) (p - 149)

theorem kept_lt (m p : Nat) : m / 2 ^ dropOf m p < 2 ^ 24 := by
  rw [Nat.div_lt_iff_lt_mul (Nat.two_pow_pos _), ← pow_add]
  have h : m < 2 ^ (m.log2 + 1) := Nat.lt_log2_self
  refine Nat.lt_of_lt_of_le h (Nat.pow_le_pow_right (by norm_num) ?_)
  simp only [dropOf]
  omega

theorem kept_ge (m p : Nat) (h : dropOf m p ≠ p - 149) : 2 ^ 23 ≤ m / 2 ^ dropOf m p := by
  have hd : dropOf m p = m.log2 - 23 ∧ 23 < m.log2 := by
    simp only [dropOf] at h ⊢
    omega
  have hm : m ≠ 0 := by
    rintro rfl
    simp at hd
  rw [Nat.le_div_iff_mul_le (Nat.two_pow_pos _), ← pow_add, hd.1]
  have : 23 + (m.log2 - 23) = m.log2 := by omega
  rw [this]
  exact Nat.log2_self_le hm

/-- The significand round32 chooses: the kept places, or one more. -/
def roundedSig (m p : Nat) : Nat :=
  let kept := m / 2 ^ dropOf m p
  let lost := m % 2 ^ dropOf m p
  if 2 ^ dropOf m p < 2 * lost ∨ (2 * lost = 2 ^ dropOf m p ∧ kept % 2 = 1) then kept + 1 else kept

theorem roundMag_eq (m p : Nat) :
    roundMag m p = min ((dropOf m p - (p - 149)) * 2 ^ 23 + roundedSig m p) 0x7F800000 := rfl

theorem roundedSig_le (m p : Nat) : roundedSig m p ≤ 2 ^ 24 := by
  have := kept_lt m p
  simp only [roundedSig]
  split <;> omega

theorem roundedSig_ge (m p : Nat) : m / 2 ^ dropOf m p ≤ roundedSig m p := by
  simp only [roundedSig]
  split <;> omega

theorem roundMag_lt (m p : Nat) : roundMag m p < 2 ^ 31 := by
  rw [roundMag_eq]
  have : min ((dropOf m p - (p - 149)) * 2 ^ 23 + roundedSig m p) 0x7F800000 ≤ 0x7F800000 := Nat.min_le_right _ _
  omega

theorem signBit_round32 (neg : Bool) (m p : Nat) : signBit (round32 neg m p) = neg := signBit_pack _ _

theorem expField_round32 (neg : Bool) (m p : Nat) : expField (round32 neg m p) = roundMag m p / 2 ^ 23 :=
  expField_pack _ _ (roundMag_lt m p)

/-- round32 is finite exactly when it stays below the infinity's bits. -/
theorem isFinite_round32 (neg : Bool) (m p : Nat) :
    isFinite (round32 neg m p) = true ↔ (dropOf m p - (p - 149)) * 2 ^ 23 + roundedSig m p < 0x7F800000 := by
  have h : isFinite (round32 neg m p) = true ↔ roundMag m p / 2 ^ 23 ≠ 255 := by
    simp [isFinite, expField_round32]
  rw [h, roundMag_eq]
  omega

/-- The value of a finite round32: the chosen significand at its place. -/
theorem magnitude_round32 (neg : Bool) (m p : Nat) (h : isFinite (round32 neg m p) = true) :
    magnitude (round32 neg m p) = roundedSig m p * 2 ^ (dropOf m p - (p - 149)) := by
  have hlt := (isFinite_round32 neg m p).mp h
  have hb : roundMag m p = (dropOf m p - (p - 149)) * 2 ^ 23 + roundedSig m p := by
    rw [roundMag_eq]
    omega
  rw [round32, magnitude_pack _ _ (roundMag_lt m p), hb]
  refine magOfBits_round _ _ (roundedSig_le m p) ?_
  by_cases hd : dropOf m p = p - 149
  · exact .inl (by omega)
  · exact .inr (Nat.le_trans (kept_ge m p hd) (roundedSig_ge m p))

/-- A value below 2^j, with j small enough, rounds to a finite value of at most 2^j. -/
theorem round32_le_pow (neg : Bool) (m p j : Nat) (hj : j ≤ 100) (hp : 149 ≤ p) (h : m < 2 ^ (p + j)) :
    isFinite (round32 neg m p) = true ∧ magnitude (round32 neg m p) ≤ 2 ^ (149 + j) := by
  have hlog : m ≠ 0 → m.log2 < p + j := fun hm => (Nat.log2_lt hm).mpr h
  have hdrop : dropOf m p - (p - 149) ≤ 125 + j := by
    by_cases hm : m = 0
    · subst hm
      simp only [dropOf, Nat.log2_zero]
      omega
    · have := hlog hm
      simp only [dropOf]
      omega
  have hle := roundedSig_le m p
  have hfin : isFinite (round32 neg m p) = true := by
    rw [isFinite_round32]
    omega
  refine ⟨hfin, ?_⟩
  rw [magnitude_round32 neg m p hfin]
  calc roundedSig m p * 2 ^ (dropOf m p - (p - 149)) ≤ 2 ^ 24 * 2 ^ (125 + j) :=
        Nat.mul_le_mul hle (Nat.pow_le_pow_right (by norm_num) hdrop)
    _ = 2 ^ (149 + j) := by rw [← pow_add]; congr 1; omega

/-- A significand below 2^24 at a place of the grid is not rounded. -/
theorem roundedSig_exact (c e p : Nat) (hc : c < 2 ^ 24) (he : p - 149 ≤ e) :
    roundedSig (c * 2 ^ e) p * 2 ^ dropOf (c * 2 ^ e) p = c * 2 ^ e := by
  have hd : dropOf (c * 2 ^ e) p ≤ e := by
    by_cases h0 : c * 2 ^ e = 0
    · rw [h0]
      simp only [dropOf, Nat.log2_zero]
      omega
    · have : (c * 2 ^ e).log2 < 24 + e := by
        rw [Nat.log2_lt h0, pow_add]
        exact Nat.mul_lt_mul_of_pos_right hc (Nat.two_pow_pos e)
      simp only [dropOf]
      omega
  have hdvd : 2 ^ dropOf (c * 2 ^ e) p ∣ c * 2 ^ e := Dvd.dvd.mul_left (Nat.pow_dvd_pow 2 hd) c
  have hmod : c * 2 ^ e % 2 ^ dropOf (c * 2 ^ e) p = 0 := Nat.mod_eq_zero_of_dvd hdvd
  have hpos := Nat.two_pow_pos (dropOf (c * 2 ^ e) p)
  simp only [roundedSig, hmod]
  rw [if_neg (by omega)]
  exact Nat.div_mul_cancel hdvd

/-- round32 is exact on a significand below 2^24 at a place of the grid, wherever it stays finite. -/
theorem round32_exact (neg : Bool) (c e p : Nat) (hc : c < 2 ^ 24) (he : p - 149 ≤ e)
    (hf : isFinite (round32 neg (c * 2 ^ e) p) = true) :
    magnitude (round32 neg (c * 2 ^ e) p) = c * 2 ^ (e - (p - 149)) := by
  rw [magnitude_round32 _ _ _ hf]
  have h := roundedSig_exact c e p hc he
  have hd : p - 149 ≤ dropOf (c * 2 ^ e) p := by simp only [dropOf]; omega
  refine Nat.eq_of_mul_eq_mul_right (Nat.two_pow_pos (p - 149)) ?_
  rw [Nat.mul_assoc, ← pow_add, Nat.mul_assoc, ← pow_add]
  rw [Nat.sub_add_cancel hd, Nat.sub_add_cancel he]
  exact h

/-! Signs and special values. -/

theorem extract_xor (x c : F32) (n l : Nat) (h : c.extractLsb' n l = 0#l) :
    (x ^^^ c).extractLsb' n l = x.extractLsb' n l := by
  rw [BitVec.extractLsb'_xor, h, BitVec.xor_zero]

theorem magnitude_fneg (x : F32) : magnitude (fneg x) = magnitude x := by
  have he : expField (fneg x) = expField x := by rw [expField, fneg, extract_xor x _ 23 8 (by decide)]; rfl
  have hf : fracField (fneg x) = fracField x := by rw [fracField, fneg, extract_xor x _ 0 23 (by decide)]; rfl
  simp only [magnitude, he, hf]

theorem expField_fneg (x : F32) : expField (fneg x) = expField x := by
  rw [expField, fneg, extract_xor x _ 23 8 (by decide)]
  rfl

theorem fracField_fneg (x : F32) : fracField (fneg x) = fracField x := by
  rw [fracField, fneg, extract_xor x _ 0 23 (by decide)]
  rfl

theorem signBit_fneg (x : F32) : signBit (fneg x) = !signBit x := by
  simp [signBit, fneg]

theorem scaled_fneg (x : F32) : scaled (fneg x) = -scaled x := by
  simp only [scaled, signBit_fneg, magnitude_fneg]
  cases signBit x <;> simp

theorem expField_fabs (x : F32) : expField (fabs x) = expField x := by
  have h : (fabs x).extractLsb' 23 8 = x.extractLsb' 23 8 := by
    rw [fabs, BitVec.extractLsb'_and, show (0x7FFFFFFF#32).extractLsb' 23 8 = BitVec.allOnes 8 from by decide,
      BitVec.and_allOnes]
  rw [expField, h]
  rfl

theorem fracField_fabs (x : F32) : fracField (fabs x) = fracField x := by
  have h : (fabs x).extractLsb' 0 23 = x.extractLsb' 0 23 := by
    rw [fabs, BitVec.extractLsb'_and, show (0x7FFFFFFF#32).extractLsb' 0 23 = BitVec.allOnes 23 from by decide,
      BitVec.and_allOnes]
  rw [fracField, h]
  rfl

theorem signBit_fabs (x : F32) : signBit (fabs x) = false := by
  simp [signBit, fabs]

theorem magnitude_fabs (x : F32) : magnitude (fabs x) = magnitude x := by
  simp only [magnitude, expField_fabs, fracField_fabs]

theorem isFinite_fneg (x : F32) : isFinite (fneg x) = isFinite x := by simp only [isFinite, expField_fneg]

theorem isFinite_fabs (x : F32) : isFinite (fabs x) = isFinite x := by simp only [isFinite, expField_fabs]

/-- A finite value is neither class of special values. -/
theorem finite_not_special (x : F32) (h : isFinite x = true) : isNaN x = false ∧ isInf x = false := by
  simp only [isFinite, bne_iff_ne] at h
  simp [isNaN, isInf, h]

theorem scaled_round32 (neg : Bool) (m p : Nat) :
    scaled (round32 neg m p) = if neg then -(magnitude (round32 neg m p) : Int) else magnitude (round32 neg m p) := by
  simp only [scaled, signBit_round32]

/-- toF32 is exact on a power of two up to 2^31 (R10). -/
theorem toF32_pow (k : Nat) (hk : k ≤ 31) :
    isFinite (toF32 (2 ^ k)) = true ∧ signBit (toF32 (2 ^ k)) = false ∧ magnitude (toF32 (2 ^ k)) = 2 ^ k * scale := by
  have hm : 2 ^ k * scale = 1 * 2 ^ (k + 149) := by rw [scale, ← pow_add, one_mul]
  have hlt : 2 ^ k * scale < 2 ^ (149 + (k + 1)) := by
    rw [scale, ← pow_add]
    exact Nat.pow_lt_pow_right (by norm_num) (by omega)
  have hfin := (round32_le_pow false (2 ^ k * scale) 149 (k + 1) (by omega) (by omega) hlt).1
  refine ⟨hfin, signBit_round32 _ _ _, ?_⟩
  rw [toF32]
  rw [hm] at hfin ⊢
  rw [round32_exact false 1 (k + 149) 149 (by norm_num) (by omega) hfin]
  simp

/-- The sum of two finite values: +0.0 or -0.0 for an exact zero, else the rounded exact sum (R10). -/
theorem fadd_finite (d : Nat) (a b : F32) (ha : isFinite a = true) (hb : isFinite b = true) :
    fadd d a b =
      if scaled a + scaled b = 0 then (if signBit a && signBit b then 0x80000000#32 else 0#32)
      else round32 (decide (scaled a + scaled b < 0)) (scaled a + scaled b).natAbs 149 := by
  simp only [fadd, finite_not_special a ha, finite_not_special b hb]
  simp

/-- The product of two finite values: the rounded exact product (R10). -/
theorem fmul_finite (d : Nat) (a b : F32) (ha : isFinite a = true) (hb : isFinite b = true) :
    fmul d a b = round32 (signBit a != signBit b) (magnitude a * magnitude b) 298 := by
  simp only [fmul, finite_not_special a ha, finite_not_special b hb]
  simp

/-- A computed NaN is a quiet NaN, whatever the draw (R11). -/
theorem nanDraw_fields (d : Nat) : expField (nanDraw d) = 255 ∧ 2 ^ 22 ≤ fracField (nanDraw d) := by
  generalize hb : Config.freeNaN d = b
  have h : (nanDraw d).toNat = (b.extractLsb' 22 1).toNat * 2 ^ 31 + (0x1FF * 2 ^ 22 + (b.extractLsb' 0 22).toNat) := by
    have h1 : (b.extractLsb' 0 22).toNat < 2 ^ 22 := (b.extractLsb' 0 22).isLt
    simp only [nanDraw, hb, BitVec.toNat_append, BitVec.toNat_ofNat]
    rw [← Nat.shiftLeft_add_eq_or_of_lt h1, Nat.shiftLeft_eq]
    rw [show (0x1FF : Nat) % 2 ^ 9 = 0x1FF from rfl,
      ← Nat.shiftLeft_add_eq_or_of_lt (show 0x1FF < 2 ^ 9 from by decide), Nat.shiftLeft_eq]
    omega
  have h1 : (b.extractLsb' 0 22).toNat < 2 ^ 22 := (b.extractLsb' 0 22).isLt
  have h2 : (b.extractLsb' 22 1).toNat < 2 ^ 1 := (b.extractLsb' 22 1).isLt
  rw [expField_eq, fracField_eq, h]
  omega

/-! Exactness and finiteness of the primitives' results. -/

/-- A finite value of non-negative sign is its magnitude. -/
theorem scaled_of_nonneg (x : F32) (h : 0 ≤ scaled x) : scaled x = magnitude x := by
  simp only [scaled] at h ⊢
  split at h
  · rename_i hs
    simp only [hs, if_true]
    omega
  · rename_i hs
    simp [hs]

/-- A finite magnitude lies below 2^128. -/
theorem magnitude_lt (x : F32) (h : isFinite x = true) : magnitude x < 2 ^ 149 * 2 ^ 128 := by
  obtain ⟨c, e, hc, he, hm⟩ := magnitude_form x
  have h1 := expField_lt x
  have h2 : expField x ≠ 255 := by simpa [isFinite] using h
  rw [hm]
  calc c * 2 ^ e < 2 ^ 24 * 2 ^ e := Nat.mul_lt_mul_of_pos_right hc (Nat.two_pow_pos e)
    _ ≤ 2 ^ 24 * 2 ^ 253 := Nat.mul_le_mul_left _ (Nat.pow_le_pow_right (by norm_num) (by omega))
    _ = 2 ^ 149 * 2 ^ 128 := by rw [← pow_add, ← pow_add]

/-- A significand below 2^24 at a place of the grid, below 2^128, is a binary32: round32 gives exactly it. -/
theorem round32_of_sig (neg : Bool) (c e : Nat) (hc : c < 2 ^ 24) (h : c * 2 ^ e < 2 ^ 149 * 2 ^ 128) :
    isFinite (round32 neg (c * 2 ^ e) 149) = true ∧ magnitude (round32 neg (c * 2 ^ e) 149) = c * 2 ^ e := by
  have hfin : isFinite (round32 neg (c * 2 ^ e) 149) = true := by
    rw [isFinite_round32]
    have h1 := roundedSig_exact c e 149 hc (by omega)
    have hs := roundedSig_le (c * 2 ^ e) 149
    simp only [Nat.sub_self, Nat.sub_zero]
    have hd : dropOf (c * 2 ^ e) 149 ≤ 253 := by
      by_cases h0 : c * 2 ^ e = 0
      · rw [h0]
        simp [dropOf]
      · have : (c * 2 ^ e).log2 < 149 + 128 := (Nat.log2_lt h0).mpr (by rw [pow_add 2 149 128]; exact h)
        simp only [dropOf]
        omega
    by_cases hd2 : dropOf (c * 2 ^ e) 149 = 253
    · rw [hd2] at h1 ⊢
      have : roundedSig (c * 2 ^ e) 149 < 2 ^ 24 := by
        by_contra hge
        have h3 : 2 ^ 24 * 2 ^ 253 ≤ roundedSig (c * 2 ^ e) 149 * 2 ^ 253 := Nat.mul_le_mul_right _ (by omega)
        rw [h1, show (2 : Nat) ^ 24 * 2 ^ 253 = 2 ^ 149 * 2 ^ 128 from by rw [← pow_add, ← pow_add]] at h3
        exact absurd h (Nat.not_lt.mpr h3)
      omega
    · omega
  exact ⟨hfin, by rw [round32_exact neg c e 149 hc (by omega) hfin, Nat.sub_self, Nat.sub_zero]⟩

/-- A residue of a finite magnitude modulo a power of two is again a significand at a place of the grid. -/
theorem magnitude_mod (x : F32) (h : isFinite x = true) (j : Nat) :
    ∃ c e, c < 2 ^ 24 ∧ magnitude x % 2 ^ j = c * 2 ^ e ∧ c * 2 ^ e < 2 ^ 149 * 2 ^ 128 := by
  obtain ⟨c, e, hc, he, hm⟩ := magnitude_form x
  have hle : magnitude x % 2 ^ j < 2 ^ 149 * 2 ^ 128 := lt_of_le_of_lt (Nat.mod_le _ _) (magnitude_lt x h)
  by_cases hj : j ≤ e
  · have h0 : magnitude x % 2 ^ j = 0 := by
      rw [hm]
      exact Nat.mod_eq_zero_of_dvd (Dvd.dvd.mul_left (Nat.pow_dvd_pow 2 hj) c)
    exact ⟨0, 0, by norm_num, by simp [h0], by positivity⟩
  · have h1 : magnitude x % 2 ^ j = c % 2 ^ (j - e) * 2 ^ e := by
      rw [hm, show (2 : Nat) ^ j = 2 ^ (j - e) * 2 ^ e by rw [← pow_add]; congr 1; omega, Nat.mul_mod_mul_right]
    exact ⟨_, e, lt_of_le_of_lt (Nat.mod_le _ _) hc, h1, by rw [← h1]; exact hle⟩

/-- The difference of two finite values (R10). -/
theorem fsub_finite (d : Nat) (a b : F32) (ha : isFinite a = true) (hb : isFinite b = true) :
    fsub d a b =
      if scaled a - scaled b = 0 then (if signBit a && !signBit b then 0x80000000#32 else 0#32)
      else round32 (decide (scaled a - scaled b < 0)) (scaled a - scaled b).natAbs 149 := by
  rw [fsub, fadd_finite _ _ _ ha (by rw [isFinite_fneg]; exact hb), scaled_fneg, signBit_fneg, ← sub_eq_add_neg]

theorem isFinite_iff (x : F32) : isFinite x = true ↔ isNaN x = false ∧ isInf x = false := by
  simp only [isFinite, isNaN, isInf]
  by_cases h : expField x = 255 <;> by_cases h2 : fracField x = 0 <;> simp [h, h2]

theorem isFinite_nanDraw (d : Nat) : isFinite (nanDraw d) = false := by simp [isFinite, (nanDraw_fields d).1]

/-- A finite sum has finite operands. -/
theorem finite_of_fadd (d : Nat) (a b : F32) (h : isFinite (fadd d a b) = true) :
    isFinite a = true ∧ isFinite b = true := by
  simp only [fadd] at h
  split at h
  · rw [isFinite_nanDraw] at h
    cases h
  · rename_i h1
    split at h
    · rename_i h2
      split at h
      · rw [isFinite_nanDraw] at h
        cases h
      · rw [isFinite_iff, h2] at h
        cases h.2
    · rename_i h2
      split at h
      · rename_i h3
        rw [isFinite_iff, h3] at h
        cases h.2
      · rename_i h3
        rw [isFinite_iff, isFinite_iff]
        simp at h1 h2 h3
        exact ⟨⟨h1.1, h2⟩, h1.2, h3⟩

/-- A finite product has finite operands. -/
theorem finite_of_fmul (d : Nat) (a b : F32) (h : isFinite (fmul d a b) = true) :
    isFinite a = true ∧ isFinite b = true := by
  simp only [fmul] at h
  split at h
  · rw [isFinite_nanDraw] at h
    cases h
  · rename_i h1
    split at h
    · split at h
      · rw [isFinite_nanDraw] at h
        cases h
      · exfalso
        revert h
        cases (signBit a != signBit b) <;> decide
    · rename_i h2
      rw [isFinite_iff, isFinite_iff]
      simp at h1 h2
      exact ⟨⟨h1.1, h2.1⟩, h1.2, h2.2⟩

end Sys2Proof.Machine
end

