-- ==== Sys2Proof/Laws/Operands.lean ====
section
/-! SUPPORT. The argument checks in plain arithmetic (R102, R142 to R144, R170), and the bounds of N_MAX (R6). -/

namespace Sys2Proof.Machine

/-- A legal size is a power of two from 2 (R102). -/
theorem legalSize_iff (a : U32) : legalSize a = true ↔ ∃ k, 1 ≤ k ∧ a.toNat = 2 ^ k := by
  have hlt := a.isLt
  have hsub : 2 ≤ a.toNat → (a &&& (a - 1#32)).toNat = a.toNat &&& (a.toNat - 1) := fun h => by
    rw [BitVec.toNat_and, BitVec.toNat_sub, BitVec.toNat_ofNat,
      show (2 ^ 32 - 1 % 2 ^ 32 + a.toNat) % 2 ^ 32 = a.toNat - 1 by omega]
  simp only [legalSize, Bool.and_eq_true, decide_eq_true_eq, beq_iff_eq, BitVec.le_def, BitVec.toNat_ofNat]
  constructor
  · rintro ⟨h2, h⟩
    have h2' : 2 ≤ a.toNat := by simpa using h2
    have hn : a.toNat &&& (a.toNat - 1) = 0 := by rw [← hsub h2', h]; rfl
    obtain ⟨k, hk⟩ := (Nat.and_sub_one_eq_zero_iff_isPowerOfTwo (by omega)).mp hn
    refine ⟨k, Nat.pos_of_ne_zero ?_, hk⟩
    rintro rfl
    simp at hk
    omega
  · rintro ⟨k, hk, h⟩
    have h2 : 2 ≤ a.toNat := by
      rw [h]
      exact Nat.pow_le_pow_right (n := 2) (by norm_num) hk
    refine ⟨by simpa using h2, BitVec.eq_of_toNat_eq ?_⟩
    rw [hsub h2]
    exact (Nat.and_sub_one_eq_zero_iff_isPowerOfTwo (by omega)).mpr ⟨k, h⟩

/-- A legal time or rate has its bits strictly between those of +0.0 and +∞ (R142). -/
theorem legalTime_iff (v : F32) : legalTime v = true ↔ 0 < v.toNat ∧ v.toNat < 0x7F800000 := by
  have hlt := v.isLt
  have hs : signBit v = decide (2 ^ 31 ≤ v.toNat) := by
    simp only [signBit, BitVec.getLsbD, Nat.testBit_eq_decide_div_mod_eq]
    congr 1
    apply propext
    omega
  simp only [legalTime, Bool.and_eq_true, decide_eq_true_eq, isFinite, bne_iff_ne, scaled, hs, magnitude, expField_eq,
    fracField_eq]
  by_cases h31 : 2 ^ 31 ≤ v.toNat
  · simp only [h31, if_true]
    constructor
    · rintro ⟨_, h⟩
      exfalso
      omega
    · rintro ⟨_, h⟩
      omega
  · simp only [h31, if_false]
    constructor
    · rintro ⟨h1, h⟩
      refine ⟨Nat.pos_of_ne_zero fun h0 => ?_, by omega⟩
      rw [h0] at h
      simp at h
    · rintro ⟨h1, h2⟩
      refine ⟨by omega, ?_⟩
      split
      · exact_mod_cast (by omega : 0 < v.toNat % 2 ^ 23)
      · positivity

/-- N_MAX is at least the reset size (R6) … -/
theorem nMax_ge : 1024 ≤ Config.nMax :=
  show 2 ^ 10 ≤ 2 ^ (10 + Config.nMaxStep.val) from Nat.pow_le_pow_right (by norm_num) (Nat.le_add_right _ _)

/-- … and at most 2^31 (R6). -/
theorem nMax_le : Config.nMax ≤ 2 ^ 31 := by
  have := Config.nMaxStep.isLt
  exact Nat.pow_le_pow_right (by norm_num) (by omega)

end Sys2Proof.Machine
end

