-- ==== Sys2Proof/Laws/PerInstr.lean ====
section
/-! SUPPORT. The statements made of every command as syntax, one lemma per constructor: the fields of its command word
(R70, R76). -/

namespace Sys2Proof.Laws.WordFields

/-- The command's word holds its opcode, a zero RSV field and its argument, each in its place (R70). -/
def Statement (i : Instr) : Prop :=
  opcField (encode i) = i.opcode ∧ rsvField (encode i) = 0#24 ∧ argField (encode i) = i.arg

theorem captureStart : Statement .captureStart := fields_encode _
theorem setSize (a : U32) : Statement (.setSize a) := fields_encode _
theorem setMode (k : U32) : Statement (.setMode k) := fields_encode _
theorem setAttackMs (t : F32) : Statement (.setAttackMs t) := fields_encode _
theorem setDecayMs (t : F32) : Statement (.setDecayMs t) := fields_encode _
theorem setEnvEnable (b : U32) : Statement (.setEnvEnable b) := fields_encode _
theorem setSampleRate (r : F32) : Statement (.setSampleRate r) := fields_encode _
theorem processBlock (n : U32) : Statement (.processBlock n) := fields_encode _
theorem readReg (r : U32) : Statement (.readReg r) := fields_encode _
theorem readTable (x : U32) : Statement (.readTable x) := fields_encode _

end Sys2Proof.Laws.WordFields
end

