-- ==== Sys2Proof/Machine/Asm.lean ====
section
/-! DEFINITION. The assembler syntax (R85) and the pseudo-instruction SET_ENV_TIMES (R86): from a line of text to command
words and, for PROCESS_BLOCK, its frames. The machine never reads this file. -/

namespace Sys2Proof.Machine

/-- What a line assembles to: command words in order, and the frames that follow them. -/
abbrev AsmResult := List CommandWord × List FrameWord

/-- The characters between words: the blank, and the punctuation of a frame list and of SET_ENV_TIMES (log 20). -/
def isSeparator (c : Char) : Bool := " ,()[]".toList.contains c

/-- The words of a line; `word` holds the current word's characters, last first. -/
def splitWords : List Char → List Char → List (List Char)
  | word, [] => if word.isEmpty then [] else [word.reverse]
  | word, c :: cs =>
    if isSeparator c then (if word.isEmpty then splitWords [] cs else word.reverse :: splitWords [] cs)
    else splitWords (c :: word) cs

/-- The value of a digit, 0 to 9 and a to f or A to F. -/
def digitValue (c : Char) : Option Nat :=
  ("0123456789abcdef".toList.findIdx? (· == c)) <|> ("0123456789ABCDEF".toList.findIdx? (· == c))

/-- A run of digits of a base, after those already read. -/
def digits (base : Nat) : Nat → List Char → Option Nat
  | n, [] => some n
  | n, c :: cs =>
    match digitValue c with
    | some v => if v < base then digits base (n * base + v) cs else none
    | none => none

/-- An integer, decimal or 0x hexadecimal (R85). -/
def parseNat : List Char → Option Nat
  | '0' :: 'x' :: c :: cs => digits 16 0 (c :: cs)
  | c :: cs => digits 10 0 (c :: cs)
  | [] => none

/-- U32: an integer below 2^32 (R85). -/
def parseU32 (cs : List Char) : Option U32 :=
  match parseNat cs with
  | some n => if n < 2 ^ 32 then some (BitVec.ofNat 32 n) else none
  | none => none

/-- The decimal literal digits[.digits], read as round32 of its value (R85). -/
def parseDecimal (neg : Bool) (cs : List Char) : Option F32 :=
  let whole := cs.takeWhile (· != '.')
  let part := (cs.dropWhile (· != '.')).drop 1
  if whole.isEmpty then none
  else (digits 10 0 (whole ++ part)).map fun n => round32Ratio neg n (10 ^ part.length)

/-- F32: a decimal literal, or a raw pattern f32:0x… (R85). -/
def parseF32 : List Char → Option F32
  | 'f' :: '3' :: '2' :: ':' :: '0' :: 'x' :: cs => parseU32 ('0' :: 'x' :: cs)
  | '-' :: cs => parseDecimal true cs
  | '+' :: cs => parseDecimal false cs
  | cs => parseDecimal false cs

/-- BOOL: on or off, 1 or 0 (R85). -/
def parseBool (cs : List Char) : Option U32 :=
  if cs = "on".toList ∨ cs = "1".toList then some 1#32
  else if cs = "off".toList ∨ cs = "0".toList then some 0#32
  else none

/-- SET_MODE's names truncate, linear2 and cubic4 for 0, 1 and 2, or an integer (R85). -/
def parseMode (cs : List Char) : Option U32 :=
  if cs = "truncate".toList then some 0#32
  else if cs = "linear2".toList then some 1#32
  else if cs = "cubic4".toList then some 2#32
  else parseU32 cs

/-- The register names in the order of their numbers (R39). -/
def registerNames : List (List Char) :=
  ["SIZE".toList, "MASK".toList, "MODE".toList, "ENV_EN".toList, "ATTACK_MS".toList, "DECAY_MS".toList,
   "SAMPLE_RATE".toList, "ATTACK_COEFF".toList, "DECAY_COEFF".toList, "ENV_LAST".toList, "PHASE".toList,
   "PHASE_INC".toList, "CAP_STATUS".toList, "CAP_REMAINING".toList, "FAULT".toList]

/-- READ_REG's register names, or an integer (R85). -/
def parseRegister (cs : List Char) : Option U32 :=
  match registerNames.findIdx? (· == cs) with
  | some n => some (BitVec.ofNat 32 n)
  | none => parseU32 cs

/-- The frames of a list (raw_0, ctl_0), …; each is the word with control above raw (R52, R85). -/
def parseFrames : List (List Char) → Option (List FrameWord)
  | [] => some []
  | r :: c :: rest =>
    match parseF32 r, parseF32 c, parseFrames rest with
    | some raw, some ctl, some fs => some ((ctl ++ raw) :: fs)
    | _, _, _ => none
  | [_] => none

/-- A command of one argument. -/
def asmOne (arg : Option U32) (build : U32 → Instr) : Option AsmResult :=
  arg.map fun a => ([encode (build a)], [])

/-- SET_ENV_TIMES a, d: SET_ATTACK_MS a, then SET_DECAY_MS d (R86). -/
def setEnvTimes (a d : F32) : List Instr := [.setAttackMs a, .setDecayMs d]

/-- A line of assembler text (R85): none where the text has not the form. PROCESS_BLOCK n stands with the list of its n
frames, or, as in R85's example and ENC-4, alone: the word then, with no frames (log 20, DESIGN CHOICE). -/
def assemble (line : List Char) : Option AsmResult :=
  match splitWords [] line with
  | [m] => if m = "CAPTURE_START".toList then some ([encode .captureStart], []) else none
  | m :: a :: rest =>
    if m = "PROCESS_BLOCK".toList then
      match parseU32 a, parseFrames rest with
      | some n, some fs =>
        if fs = [] ∨ fs.length = n.toNat then some ([encode (.processBlock n)], fs) else none
      | _, _ => none
    else if m = "SET_ENV_TIMES".toList then
      match rest with
      | [b] =>
        match parseF32 a, parseF32 b with
        | some t, some u => some ((setEnvTimes t u).map encode, [])
        | _, _ => none
      | _ => none
    else if rest ≠ [] then none
    else if m = "SET_SIZE".toList then asmOne (parseU32 a) .setSize
    else if m = "SET_MODE".toList then asmOne (parseMode a) .setMode
    else if m = "SET_ATTACK_MS".toList then asmOne (parseF32 a) .setAttackMs
    else if m = "SET_DECAY_MS".toList then asmOne (parseF32 a) .setDecayMs
    else if m = "SET_ENV_ENABLE".toList then asmOne (parseBool a) .setEnvEnable
    else if m = "SET_SAMPLE_RATE".toList then asmOne (parseF32 a) .setSampleRate
    else if m = "READ_REG".toList then asmOne (parseRegister a) .readReg
    else if m = "READ_TABLE".toList then asmOne (parseU32 a) .readTable
    else none
  | [] => none

/-- The lines of a text; `line` holds the current line's characters, last first. -/
def splitLines : List Char → List Char → List (List Char)
  | line, [] => [line.reverse]
  | line, c :: cs => if c = '\n' then line.reverse :: splitLines [] cs else splitLines (c :: line) cs

/-- The lines in order, each assembled; a line without a word is skipped. -/
def assembleLines : List (List Char) → Option (List AsmResult)
  | [] => some []
  | l :: ls =>
    if (splitWords [] l).isEmpty then assembleLines ls
    else
      match assemble l, assembleLines ls with
      | some r, some rs => some (r :: rs)
      | _, _ => none

/-- A text of commands separated by line breaks (R85). -/
def assembleText (text : List Char) : Option (List AsmResult) := assembleLines (splitLines [] text)

end Sys2Proof.Machine
end

