-- ==== Sys2Proof/Tests/Slice0.lean ====
section
/-! SUPPORT. The model's own tests, every expected value from spec/95_test_vectors.md (named by its vector) or worked out by
hand from a rule, and a witness for the hypotheses of every statement that has some. -/

namespace Sys2Proof.Tests

open Sys2Proof.Machine Sys2Proof.Safety

-- One theorem at a time: the kernel evaluations of this file, started all at once, would each hold a thread's stack.
set_option Elab.async false

/-! ## Helpers -/

/-- The next state of a step, if that is what it answered. -/
def nextOf : Host.Outcome State Fault Refusal → Option State
  | .next t => some t
  | _ => none

/-- The fault of a step, if that is what it answered. -/
def faultOf : Host.Outcome State Fault Refusal → Option Fault
  | .fault k => some k
  | _ => none

/-- A frame with its two samples (R52). -/
def frame (raw ctl : F32) : FrameWord := ctl ++ raw

/-- 0.0, 1.0, 2.0 and 3.0 as a table of four words. -/
def ramp : Table := [(1, 0x3F800000#32), (2, 0x40000000#32), (3, 0x40400000#32)]

/-- An idle device with the ramp: SIZE 4 (the vectors' "N 4, table [0, 1, 2, 3]"). -/
def ramped : State := { State.reset with size := 4#32, table := ramp }

/-- RT-2's device: SIZE 4, table [7.0, NaN 0x7FC00001, -0.0, -0.0]. -/
def odd : State :=
  { State.reset with
    size := 4#32
    table := [(0, 0x40E00000#32), (1, 0x7FC00001#32), (2, 0x80000000#32), (3, 0x80000000#32)] }

/-- A device whose registers ENV-1 to ENV-14 set directly. -/
def follower (on : Bool) (ac dc last : F32) : State :=
  { State.reset with envEn := on, attackCoeff := ac, decayCoeff := dc, envLast := last }

/-- A faulted device with one word in its queue and two frames. -/
def faulted (w : CommandWord) : State := { ramped with fault := 0b01#2, queue := [w], frames := [0#64, 1#64] }

/-! ## Well-formedness and decoding -/

/-- BOOL 2 is ill formed, 0 and 1 are not (R75). -/
theorem test_wellformed_bool :
    (Instr.setEnvEnable 2#32).wellFormed = false ∧ (Instr.setEnvEnable 0xFFFFFFFF#32).wellFormed = false ∧
    (Instr.setEnvEnable 0#32).wellFormed = true ∧ (Instr.setEnvEnable 1#32).wellFormed = true := by decide

/-- A NONE argument is ill formed unless 0 (R72, CAP-6). -/
theorem test_wellformed_none :
    ArgKind.none.wellFormed 1#32 = false ∧ ArgKind.none.wellFormed 0#32 = true := by decide

/-! One word of each command, written out field by field from R70 and R76: OPC, RSV, ARG. -/

theorem test_decode_captureStart : decode (0b00000001#8 ++ 0#24 ++ 0#32) = .ok .captureStart := by decide
theorem test_decode_setSize : decode (0b00000010#8 ++ 0#24 ++ 131072#32) = .ok (.setSize 131072#32) := by decide
theorem test_decode_setMode : decode (0b00000011#8 ++ 0#24 ++ 5#32) = .ok (.setMode 5#32) := by decide
theorem test_decode_setAttackMs :
    decode (0b00000100#8 ++ 0#24 ++ 0xBF800000#32) = .ok (.setAttackMs 0xBF800000#32) := by decide
theorem test_decode_setDecayMs :
    decode (0b00000101#8 ++ 0#24 ++ 0x40000000#32) = .ok (.setDecayMs 0x40000000#32) := by decide
theorem test_decode_setEnvEnable : decode (0b00000110#8 ++ 0#24 ++ 1#32) = .ok (.setEnvEnable 1#32) := by decide
theorem test_decode_setSampleRate :
    decode (0b00000111#8 ++ 0#24 ++ 0x473B8000#32) = .ok (.setSampleRate 0x473B8000#32) := by decide
theorem test_decode_processBlock : decode (0b00001000#8 ++ 0#24 ++ 8#32) = .ok (.processBlock 8#32) := by decide
theorem test_decode_readReg : decode (0b00001001#8 ++ 0#24 ++ 0x0E#32) = .ok (.readReg 0x0E#32) := by decide
theorem test_decode_readTable :
    decode (0b00001010#8 ++ 0#24 ++ 0xFFFFFFFF#32) = .ok (.readTable 0xFFFFFFFF#32) := by decide

/-- INV-1, INV-2, INV-5, INV-3, CAP-6, SET-7: each refused for its own reason. -/
theorem test_decode_refuses :
    decode 0x0B00000000000000#64 = .error .reservedOpcode ∧ decode 0x0000000000000000#64 = .error .reservedOpcode ∧
    decode 0xFF000000FFFFFFFF#64 = .error .reservedOpcode ∧ decode 0x0200000100000400#64 = .error .reservedBits ∧
    decode 0x0100000000000001#64 = .error .malformedArg ∧ decode 0x0600000000000002#64 = .error .malformedArg := by
  decide

/-- ENC-1 and ENC-3: the bytes of a command word and of a response word. -/
theorem test_bytes :
    bytesOfWord 8 0x0200000000000400#64 = [0x00#8, 0x04#8, 0x00#8, 0x00#8, 0x00#8, 0x00#8, 0x00#8, 0x02#8] ∧
    decodeBytes [0x00#8, 0x04#8, 0x00#8, 0x00#8, 0x00#8, 0x00#8, 0x00#8, 0x02#8] = .ok (.setSize 1024#32, []) ∧
    bytesOfWord 8 (responseWord .ok 3#32) = [0x03#8, 0#8, 0#8, 0#8, 0#8, 0#8, 0#8, 0#8] := by decide

/-- ENC-2: a frame's bytes; and its two samples (R82). -/
theorem test_frame :
    frame 0x3F800000#32 0x3EC00000#32 = 0x3EC000003F800000#64 ∧
    bytesOfWord 8 (frame 0x3F800000#32 0x3EC00000#32) =
      [0x00#8, 0x00#8, 0x80#8, 0x3F#8, 0x00#8, 0x00#8, 0xC0#8, 0x3E#8] ∧
    frameRaw 0x3EC000003F800000#64 = 0x3F800000#32 ∧ frameControl 0x3EC000003F800000#64 = 0x3EC00000#32 := by decide

/-- R87: only an OPC 0x08 word carries frames, accepted or not (INV-4). -/
theorem test_trailing :
    trailingBytes 0x0800000000000008#64 = 64 ∧ trailingBytes 0x0800000100000002#64 = 16 ∧
    trailingBytes 0x0200000000000400#64 = 0 := by decide

/-! ENC-4: the assembler. -/

theorem test_asm_mode : assemble "SET_MODE cubic4".toList = some ([0x0300000000000002#64], []) := by decide +kernel
theorem test_asm_attack : assemble "SET_ATTACK_MS 10.0".toList = some ([0x0400000041200000#64], []) := by decide +kernel
theorem test_asm_enable : assemble "SET_ENV_ENABLE on".toList = some ([0x0600000000000001#64], []) := by decide +kernel
theorem test_asm_reg : assemble "READ_REG PHASE".toList = some ([0x090000000000000A#64], []) := by decide +kernel
theorem test_asm_times :
    assemble "SET_ENV_TIMES 1.0, 2.0".toList = some ([0x040000003F800000#64, 0x0500000040000000#64], []) := by
  decide +kernel

/-- ENC-4: PROCESS_BLOCK alone is its word; with a list it has one frame per sample (R85), so a short list is no line. -/
theorem test_asm_block :
    assemble "PROCESS_BLOCK 8".toList = some ([0x0800000000000008#64], []) ∧
    assemble "PROCESS_BLOCK 2 [(1.0, 0.375)]".toList = none := by decide +kernel

/-- R85: two commands on two lines, the second with its frame (ENC-2's). -/
theorem test_asm_text :
    assembleText "SET_MODE linear2\nPROCESS_BLOCK 1 [(1.0, 0.375)]".toList =
      some [([0x0300000000000001#64], []), ([0x0800000000000001#64], [0x3EC000003F800000#64])] := by decide +kernel

/-! ## binary32 -/

/-- R9: a tie goes to the even neighbour, the carry reaches the exponent, overflow gives infinity, subnormals stay. -/
theorem test_round32 :
    round32 false 1 150 = 0x00000000#32 ∧ round32 false 3 150 = 0x00000002#32 ∧
    round32 false (2 ^ 24 + 1) 149 = 0x01000000#32 ∧ round32 false (2 ^ 25 - 1) 149 = 0x01800000#32 ∧
    toF32 (2 ^ 128) = 0x7F800000#32 ∧ round32 true (2 ^ 149) 149 = 0xBF800000#32 := by decide +kernel

/-- R10: an exact zero sum is +0.0; -0.0 + -0.0 is -0.0; +∞ + 1 is +∞; -0.0 and +0.0 compare equal; ∞ > 1. -/
theorem test_fadd :
    fsub 0 0x3F800000#32 0x3F800000#32 = 0#32 ∧ fadd 0 0x80000000#32 0x80000000#32 = 0x80000000#32 ∧
    fadd 0 0x7F800000#32 0x3F800000#32 = 0x7F800000#32 ∧ fmul 0 0xBF800000#32 0#32 = 0x80000000#32 ∧
    fgt 0#32 0x80000000#32 = false ∧ fgt 0x7F800000#32 0x3F800000#32 = true := by decide +kernel

/-- WRAP-1, -3, -4, -6, -8, -9. -/
theorem test_wrap :
    wrap 8 0x41AC0000#32 = 0x40B00000#32 ∧ wrap 4 0x40800000#32 = 0#32 ∧ wrap 4 0xBF000000#32 = 0x40600000#32 ∧
    wrap 4 0xB22BCC77#32 = 0#32 ∧ wrap 4 0x80000000#32 = 0x80000000#32 ∧ wrap 8 0xC1AC0000#32 = 0x40200000#32 := by
  decide +kernel

/-- WRAP-10 to WRAP-13. -/
theorem test_wrap_large :
    wrap 1024 0x4640E6B7#32 = 0x4266B700#32 ∧ wrap 4 0x4B800001#32 = 0x40000000#32 ∧ wrap 2 0x4C000002#32 = 0#32 ∧
    wrap 1024 0x7149F2CA#32 = 0#32 := by decide +kernel

/-! ## The Capture Controller -/

/-- CAP-1 and CAP-2: Recording(SIZE), from Idle and again from Recording(2). -/
theorem test_captureStart :
    (nextOf (exec .captureStart { State.reset with size := 8#32 })).map (fun t => (t.capState, t.responses)) =
      some (.recording 8#32, [0#64]) ∧
    (nextOf (exec .captureStart { ramped with capState := .recording 2#32 })).map (fun t => (t.capState, t.table)) =
      some (.recording 4#32, ramp) := by decide

/-- CAP-3, the last block: word 3 gets -0.0, the capture completes, and slot 1 plays T(0); DATA is 1. -/
theorem test_capture_completes :
    (nextOf (exec (.processBlock 2#32)
      { odd with capState := .recording 1#32, table := odd.table.take 3 ++ [(3, 0x40800000#32)],
                 frames := [frame 0x80000000#32 0#32, frame 0x3F000000#32 0#32] })).map
      (fun t => ((t.outputs, t.responses), (t.capState, t.phase), t.table)) =
    some (([0#32, 0x40E00000#32], [1#64]), (.idle, 0#32), odd.table) := by decide +kernel

/-- CAP-4: while capturing, a NaN or infinite control input is ignored. -/
theorem test_capture_ignores_control :
    (nextOf (exec (.processBlock 2#32)
      { ramped with capState := .recording 4#32, envEn := true, envLast := 0x3F000000#32,
                    frames := [frame 0x3F800000#32 0x7FC00000#32, frame 0x40000000#32 0x7F800000#32] })).map
      (fun t => (t.outputs, t.envLast, t.fault, t.capState)) =
    some ([0#32, 0#32], 0x3F000000#32, 0#2, .recording 2#32) := by decide +kernel

/-! ## The Wavetable Store -/

/-- SRC-3 and SZ-7: 3 is rejected, the size held is accepted; neither changes SIZE. -/
theorem test_setSize_keeps :
    (nextOf (exec (.setSize 3#32) State.reset)).map (fun t => (t.size, t.mask, t.responses)) =
      some (1024#32, 1023#32, [0x0100000000000000#64]) ∧
    (nextOf (exec (.setSize 1024#32) State.reset)).map (fun t => (t.size, t.mask, t.responses)) =
      some (1024#32, 1023#32, [0#64]) := by decide

/-- SZ-9: a genuine resize discards the table and the capture. -/
theorem test_setSize_resizes :
    exec (.setSize 16#32) { ramped with capState := .recording 3#32 } =
      .next { ramped with size := 16#32, table := [], capState := .idle, responses := [0#64] } := by
  have h : ¬ Config.nMax < (16#32).toNat := by
    have := nMax_ge
    simp
    omega
  have hl : legalSize 16#32 = true := by decide
  have hs : ¬ 16#32 = ({ ramped with capState := .recording 3#32 } : State).size := by decide
  simp only [exec, execSetSize, hl, hs, h]
  rfl

/-- RT-1 to RT-3: the index wraps, and the word comes back bit for bit. -/
theorem test_readTable :
    (nextOf (exec (.readTable 6#32) ramped)).map (·.responses) = some [0x0000000040000000#64] ∧
    (nextOf (exec (.readTable 0xFFFFFFFF#32) odd)).map (·.responses) = some [0x0000000080000000#64] ∧
    (nextOf (exec (.readTable 1#32) odd)).map (·.responses) = some [0x000000007FC00001#64] := by decide

/-- A write of zero removes the entry, and any other write keeps the order (R100). -/
theorem test_table_canonical :
    tableSet ramp 2 0#32 = [(1, 0x3F800000#32), (3, 0x40400000#32)] ∧
    tableSet ramp 0 5#32 = (0, 5#32) :: ramp ∧ tableGet ramp 0 = 0#32 ∧
    maskIndex (-1) ramped = 3 ∧ maskIndex 5 ramped = 1 := by decide

/-! ## The Envelope Follower -/

/-- SET-1 and SET-5: -1.0 is rejected; 10.0 restarts the envelope. -/
theorem test_setAttackMs :
    (nextOf (exec (.setAttackMs 0xBF800000#32) State.reset)).map (fun t => (t.attackMs, t.responses)) =
      some (0x41200000#32, [0x0100000000000000#64]) ∧
    (nextOf (exec (.setAttackMs 0x41200000#32) { State.reset with envLast := 0x3F000000#32 })).map
      (fun t => (t.envLast, t.responses)) = some (0#32, [0#64]) := by decide +kernel

/-- SET-10: DECAY_MS is written, its coefficient is COEFF of the new time, ATTACK_MS stays. -/
theorem test_setDecayMs :
    (nextOf (exec (.setDecayMs 0x40000000#32) { State.reset with sampleRate := 0x447A0000#32 })).map
      (fun t => (t.decayMs, t.attackMs, t.decayCoeff)) =
    some (0x40000000#32, 0x41200000#32, Config.coeff 0x40000000#32 0x447A0000#32) := by rfl

/-- SET-4 and SET-6: +∞ is rejected; 48000.0 recomputes both coefficients. -/
theorem test_setSampleRate :
    (nextOf (exec (.setSampleRate 0x7F800000#32) State.reset)).map (·.responses) = some [0x0100000000000000#64] ∧
    (nextOf (exec (.setSampleRate 0x473B8000#32) State.reset)).map (fun t => (t.attackCoeff, t.decayCoeff)) =
      some (Config.coeff 0x41200000#32 0x473B8000#32, Config.coeff 0x43FA0000#32 0x473B8000#32) :=
  ⟨by decide +kernel, by rfl⟩

/-- SET-7 and SET-8: 2 is rejected; on and off write ENV_EN alone. -/
theorem test_setEnvEnable :
    (nextOf (exec (.setEnvEnable 2#32) State.reset)).map (fun t => (t.envEn, t.responses)) =
      some (false, [0x0100000000000000#64]) ∧
    (nextOf (exec (.setEnvEnable 1#32) { State.reset with envLast := 0x3F000000#32 })).map
      (fun t => (t.envEn, t.envLast)) = some (true, 0x3F000000#32) := by decide

/-- ENV-1 to ENV-4, ENV-7, ENV-8: the value returned. -/
theorem test_envelope :
    envUpdate 0 0xBE800000#32 (follower false 0#32 0#32 0x3E99999A#32) =
      (0xBE800000#32, follower false 0#32 0#32 0x3E99999A#32) ∧
    (envUpdate 0 0xBF800000#32 (follower true 0x3F000000#32 0x3F400000#32 0#32)).1 = 0x3F000000#32 ∧
    (envUpdate 0 0#32 (follower true 0x3F000000#32 0x3F400000#32 0x3F800000#32)).1 = 0x3F400000#32 ∧
    (envUpdate 0 0x3F000000#32 (follower true 0x3F000000#32 0x3F400000#32 0x3F000000#32)).1 = 0x3F000000#32 ∧
    (envUpdate 0 0x80000000#32 (follower true 0x3F000000#32 0x3F400000#32 0#32)).1 = 0#32 ∧
    (envUpdate 0 0x3F800000#32 (follower true 0#32 0x3F400000#32 0x3E99999A#32)).1 = 0x3F800000#32 := by
  refine ⟨rfl, ?_, ?_, ?_, ?_, ?_⟩ <;> decide +kernel

/-- ENV-9 to ENV-11 and ENV-14: the corners of binary32. -/
theorem test_envelope_corners :
    (envUpdate 0 0x381D1338#32 (follower true 0x3F000000#32 0x3F800000#32 0x3A32297F#32)).1 = 0x3A322980#32 ∧
    (envUpdate 0 0x3F800001#32 (follower true 0x3F7D5732#32 0x3F800000#32 0x3F800000#32)).1 = 0x3F800000#32 ∧
    (envUpdate 0 0x3F800000#32 (follower true 0x3F800000#32 0x3F000000#32 0x2EDBE6FF#32)).1 = 0#32 ∧
    (envUpdate 0 1#32 (follower true 0x3F000000#32 0x3F000000#32 0#32)).1 = 1#32 := by decide +kernel

/-! ## The oscillator -/

/-- SRC-4: SET_MODE 5 is rejected and the mode kept; SET_MODE 2 is written. -/
theorem test_setMode :
    (nextOf (exec (.setMode 5#32) { State.reset with mode := 1#2 })).map (fun t => (t.mode, t.responses)) =
      some (1#2, [0x0100000000000000#64]) ∧
    (nextOf (exec (.setMode 2#32) State.reset)).map (fun t => (t.mode, t.responses)) = some (2#2, [0#64]) := by decide

/-- KER-1 at PHASE 2.25, 0.5 and 3.25, and SRC-1: the three kernels. -/
theorem test_kernels :
    interp 0 { ramped with phase := 0x40100000#32 } = some 0x40000000#32 ∧
    interp 0 { ramped with phase := 0x40500000#32, mode := 1#2 } = some 0x40100000#32 ∧
    interp 0 { ramped with phase := 0x3FC00000#32, mode := 1#2 } = some 0x3FC00000#32 ∧
    interp 0 { ramped with phase := 0x40100000#32, mode := 2#2 } = some 0x40160000#32 ∧
    interp 0 { ramped with phase := 0x3F000000#32, mode := 2#2 } = some 0x3E800000#32 ∧
    interp 0 { ramped with mode := 3#2 } = none := by decide +kernel

/-- KER-4 (N = 2) and KER-7 (a -0.0 word under Linear2). -/
theorem test_kernels_edges :
    interp 0 { State.reset with size := 2#32, mode := 2#2, phase := 0x3F000000#32,
                                table := [(0, 0x40000000#32), (1, 0x40800000#32)] } = some 0x40400000#32 ∧
    interp 0 { ramped with mode := 1#2, table := (0, 0x80000000#32) :: ramp } = some 0#32 ∧
    interp 0 { ramped with table := (0, 0x80000000#32) :: ramp } = some 0x80000000#32 := by decide +kernel

/-- PB-2: the output is taken before the advance; p = 12.5 wraps to 0.5. -/
theorem test_playback :
    (nextOf (exec (.processBlock 1#32)
      { ramped with mode := 1#2, phase := 0x40400000#32, frames := [frame 0#32 0x40180000#32] })).map
      (fun t => (t.outputs, t.phase, t.phaseInc, t.responses)) =
    some ([0x40400000#32], 0x3F000000#32, 0x41180000#32, [0#64]) := by decide +kernel

/-! ## Blocks and faults -/

/-- SRC-2: a capture completes at slot 2 and the oscillator plays from slot 3 of the same block. -/
theorem test_block_handoff :
    (nextOf (exec (.processBlock 8#32)
      { State.reset with
        size := 8#32, table := [(0, 0x3F800000#32)], capState := .recording 3#32, mode := 2#2
        frames := List.replicate 3 0x4110000000000000#64 ++ List.replicate 5 0x3D80000000000000#64 })).map
      (fun t => (t.outputs, t.responses, t.capState, t.phase, t.phaseInc)) =
    some ([0#32, 0#32, 0#32, 0x3F800000#32, 0x3F100000#32, 0#32, 0xBD800000#32, 0#32], [3#64], .idle, 0x40200000#32,
      0x3F000000#32) := by decide +kernel

/-- BLK-4: the fault ends the block; its last frame is consumed and gives no output. -/
theorem test_block_fault :
    (nextOf (exec (.processBlock 3#32)
      { ramped with
        mode := 1#2, phase := 0x3FC00000#32
        frames := [frame 0#32 0x3E800000#32, frame 0#32 0x7F800000#32, frame 0#32 0x3E800000#32, 7#64] })).map
      (fun t => ((t.outputs, t.responses), (t.fault, t.phase), t.phaseInc, t.frames)) =
    some (([0x3FC00000#32, 0x40200000#32], [0x0300000000000000#64]), (1#2, 0x40200000#32), 0x7F800000#32, [7#64]) := by
  decide +kernel

/-- R234 on BLK-4's faulting slot: the step answers the fault; the device itself answers FAULTED and then, by READ_REG 0x0E,
the FAULT bit (FLT-1). -/
theorem test_step_fault :
    faultOf (step { ramped with queue := [0x0800000000000001#64], frames := [frame 0#32 0x7F800000#32] }) =
      some .nonfinitePhase ∧
    (nextOf (Host.Core.run device 2
      { ramped with queue := [0x0800000000000001#64, 0x090000000000000E#64], frames := [frame 0#32 0x7F800000#32] })).map
      (·.responses) = some [0x0300000000000000#64, 1#64] := by decide +kernel

/-- PB-6: an increment that overflows to +∞ faults, and PHASE is kept. -/
theorem test_block_overflow :
    (nextOf (exec (.processBlock 1#32) { ramped with frames := [frame 0#32 0x7E800000#32] })).map
      (fun t => (t.outputs, t.fault, t.phase, t.phaseInc)) =
    some ([0#32], 1#2, 0#32, 0x7F800000#32) := by decide +kernel

/-- INV-4: RSV ≠ 0 on PROCESS_BLOCK: both frames are consumed, nothing else happens. -/
theorem test_reject_block :
    (nextOf (step { ramped with queue := [0x0800000100000002#64], frames := [5#64, 6#64, 7#64] })).map
      (fun t => (t.frames, t.responses, t.outputs, t.phase)) =
    some ([7#64], [0x0100000000000000#64], [], 0#32) := by decide

/-- FLT-1, FLT-4, FLT-6, FLT-7: a faulted device answers READ_REG and its own check, and FAULTED to all else. -/
theorem test_faulted :
    (nextOf (step (faulted 0x090000000000000E#64))).map (·.responses) = some [1#64] ∧
    (nextOf (step (faulted 0x0300000000000000#64))).map (fun t => (t.mode, t.responses)) =
      some (0#2, [0x0300000000000000#64]) ∧
    (nextOf (step (faulted 0x0B00000000000000#64))).map (·.responses) = some [0x0300000000000000#64] ∧
    (nextOf (step (faulted 0x090000000000000F#64))).map (·.responses) = some [0x0100000000000000#64] := by decide

/-- FLT-5 and FLT-8. -/
theorem test_faulted_block :
    (nextOf (step (faulted 0x0800000000000002#64))).map (fun t => (t.frames, t.responses, t.outputs)) =
      some ([], [0x0300000000000000#64], []) ∧
    (nextOf (exec (.readReg 0x0E#32) (faulted 0#64).applyReset)).map (·.responses) = some [0#64] := by decide

/-- RR-1 and RR-2: registers 0x00, 0x01, 0x05 and 0x06 after reset, and the reserved 0x0F. -/
theorem test_readReg :
    (nextOf (exec (.readReg 0x00#32) State.reset)).map (·.responses) = some [0x0000000000000400#64] ∧
    (nextOf (exec (.readReg 0x01#32) State.reset)).map (·.responses) = some [0x00000000000003FF#64] ∧
    (nextOf (exec (.readReg 0x05#32) State.reset)).map (·.responses) = some [0x0000000043FA0000#64] ∧
    (nextOf (exec (.readReg 0x0F#32) State.reset)).map (·.responses) = some [0x0100000000000000#64] := by decide

/-- RR-3: CAP_STATUS and CAP_REMAINING while Recording(3). -/
theorem test_readReg_capture :
    (nextOf (exec (.readReg 0x0C#32) { State.reset with capState := .recording 3#32 })).map (·.responses) = some [1#64] ∧
    (nextOf (exec (.readReg 0x0D#32) { State.reset with capState := .recording 3#32 })).map (·.responses) = some [3#64] := by
  decide

/-- The host's two questions on one row: the decoder reads the table word, and the step runs it first after reset. -/
theorem test_fetchWord :
    decodeTableWord 64 0x0300000000000001 = some (.setMode 1#32) ∧
    (nextOf (step (State.reset.withFetchWord 64 0x0300000000000001))).map (fun t => (t.mode, t.queue)) =
      some (1#2, []) := by decide +kernel

/-! ## Witnesses

One state, and operands, that meet all the hypotheses of each statement that has some, clause by clause. -/

/-- A state of R38: SIZE 4, a captured ramp, Recording(4). -/
def recording : State := { ramped with capState := .recording 4#32 }

theorem ramp_wf : Table.wf ramp := by decide

theorem inv_of_ramped (c : CapState) (h : c = .idle ∨ c = .recording 4#32) (f : List FrameWord) (q : List CommandWord) :
    Inv { ramped with capState := c, frames := f, queue := q } where
  size_pow := ⟨2, by norm_num, rfl⟩
  size_le := le_trans (show 4 ≤ 1024 by decide) nMax_ge
  table_wf := ramp_wf
  table_range := by
    show ∀ c ∈ ramp, c.1 < 4
    decide
  mode_legal := by
    show 0#2 ≠ 3#2
    decide
  attack_legal := by
    show legalTime 0x41200000#32 = true
    decide +kernel
  decay_legal := by
    show legalTime 0x43FA0000#32 = true
    decide +kernel
  rate_legal := by
    show legalTime 0x472C4400#32 = true
    decide +kernel
  attack_coeff := rfl
  decay_coeff := rfl
  phase_finite := by
    show isFinite 0#32 = true
    decide
  phase_nonneg := by
    show 0 ≤ scaled 0#32
    decide
  phase_lt := by
    show scaled 0#32 < ((4 * scale : Nat) : Int)
    decide +kernel
  cap_range := by
    intro r hr
    rcases h with rfl | rfl
    · cases hr
    · cases hr
      exact ⟨by decide, le_refl _⟩

/-- DecodeOfEncodedBytes: the commands whose kinds bound their argument, at its bounds, and one whose kind does not. -/
theorem witness_decodeOfEncodedBytes :
    Instr.captureStart.wellFormed = true ∧ (Instr.setEnvEnable 1#32).wellFormed = true ∧
    (Instr.setSize 0xFFFFFFFF#32).wellFormed = true := by decide

/-- EncodeOfDecodedWord. -/
theorem witness_encodeOfDecodedWord : decode 0x0600000000000001#64 = .ok (.setEnvEnable 1#32) := by decide

/-- StepRunsDecodedInstruction. -/
theorem witness_stepRuns :
    (faulted 0x0300000000000002#64).inProgress = none ∧
    (faulted 0x0300000000000002#64).queue = 0x0300000000000002#64 :: [] ∧
    decode 0x0300000000000002#64 = .ok (.setMode 2#32) := by decide

/-- IdleStepKeepsState. -/
theorem witness_idle : ramped.inProgress = none ∧ ramped.queue = [] := by decide

/-- A control input that faults, for the witnesses of a fault. -/
def faultFrame : FrameWord := frame 0#32 0x7F800000#32

/-- StepAnswersNextOrItsFault and FaultIsTheOutcomeOfItsStep: a step that raises no fault and one that raises one. -/
theorem witness_stepOutcome :
    FaultFree ramped ∧ raisedFault ramped ramped = none ∧ deviceStep ramped = .next ramped ∧
    ((nextOf (deviceStep { ramped with queue := [0x0800000000000001#64], frames := [faultFrame] })).map
      fun t => (raisedFault ramped t, t.fault)) = some (some .nonfinitePhase, 1#2) :=
  ⟨rfl, by decide, rfl, by decide +kernel⟩

/-- NoRunEndsFaulted: a run of one SET_MODE. -/
theorem witness_noRunEndsFaulted :
    FaultFree { ramped with queue := [0x0300000000000002#64] } ∧
    ∃ t, Host.Core.run Sys2Proof.core 1 { ramped with queue := [0x0300000000000002#64] } = .next t := ⟨rfl, _, rfl⟩

/-- LaterCommandsDoNotAffectEarlierOnes: two commands of two, with a third behind them; and a block that faults, where the
machine's run stops and the device's goes on. -/
theorem witness_laterCommands :
    2 ≤ [0x0300000000000002#64, 0x0900000000000002#64].length ∧
    (∃ t, Host.Core.run Sys2Proof.core 2 { ramped with queue := [0x0300000000000002#64, 0x0900000000000002#64] } =
      .next t) ∧
    faultOf (Host.Core.run Sys2Proof.core 2
      { ramped with queue := [0x0800000000000001#64, 0x0900000000000002#64], frames := [faultFrame] }) =
        some .nonfinitePhase ∧
    (nextOf (Host.Core.run device 2
      { ramped with queue := [0x0800000000000001#64, 0x0900000000000002#64], frames := [faultFrame] })).isSome = true :=
  ⟨by decide, ⟨_, rfl⟩, by decide +kernel, by decide +kernel⟩

/-- InterleavedReadsDisturbNothing: PROCESS_BLOCK 1 with its one frame on one path, READ_REG 2 and READ_TABLE 1 on the other;
the block runs through, or faults, and the device goes on. -/
theorem witness_interleavedReads :
    Interleaving [0x0800000000000001#64] [0x0900000000000002#64, 0x0A00000000000001#64]
      [0x0900000000000002#64, 0x0800000000000001#64, 0x0A00000000000001#64] ∧
    ramped.inProgress = none ∧
    (([0x0800000000000001#64].map fun w : CommandWord =>
      if w.extractLsb' 56 8 = 0x08#8 then (w.extractLsb' 0 32).toNat else 0).sum ≤ [0#64].length) ∧
    (∀ w ∈ [0x0900000000000002#64, 0x0A00000000000001#64],
      ∃ x, decode w = .ok (.readReg x) ∨ decode w = .ok (.readTable x)) ∧
    (nextOf (Host.Core.run Sys2Proof.core 1
      { ramped with queue := [0x0800000000000001#64], frames := [0#64] })).isSome = true ∧
    faultOf (Host.Core.run Sys2Proof.core 1
      { ramped with queue := [0x0800000000000001#64], frames := [faultFrame] }) = some .nonfinitePhase ∧
    (nextOf (Host.Core.run device 1
      { ramped with queue := [0x0800000000000001#64], frames := [faultFrame] })).isSome = true := by
  refine ⟨.control (.audio (.control .nil)), rfl, by decide, ?_, by decide +kernel, by decide +kernel, by decide +kernel⟩
  intro w hw
  simp only [List.mem_cons, List.not_mem_nil, or_false] at hw
  rcases hw with rfl | rfl
  · exact ⟨2#32, .inl (by decide)⟩
  · exact ⟨1#32, .inr (by decide)⟩

/-- InvalidWordIsRejected: the reserved opcodes at 0x00, 0x0B and 0xFF, RSV = 1, ARG = 1 for CAPTURE_START, ARG = 2 for
SET_ENV_ENABLE, RSV ≠ 0 on PROCESS_BLOCK with exactly the frames it owes, and RSV ≠ 0 on READ_REG at a faulted device. -/
theorem witness_invalidWord :
    (0x0000000000000000#64).extractLsb' 56 8 = 0x00#8 ∧ 0x0B#8 ≤ (0x0B00000000000000#64).extractLsb' 56 8 ∧
    0x0B#8 ≤ (0xFF000000FFFFFFFF#64).extractLsb' 56 8 ∧ (0x0200000100000400#64).extractLsb' 32 24 ≠ 0#24 ∧
    ((0x0100000000000001#64).extractLsb' 56 8 = 0x01#8 ∧ (0x0100000000000001#64).extractLsb' 0 32 ≠ 0#32) ∧
    ((0x0600000000000002#64).extractLsb' 56 8 = 0x06#8 ∧ 1#32 < (0x0600000000000002#64).extractLsb' 0 32) ∧
    ((0x0800000100000002#64).extractLsb' 56 8 = 0x08#8 ∧ (0x0800000100000002#64).extractLsb' 32 24 ≠ 0#24 ∧
      ((0x0800000100000002#64).extractLsb' 0 32).toNat ≤ [0#64, 1#64].length) ∧
    ((0x090000010000000E#64).extractLsb' 56 8 = 0x09#8 ∧ (0x090000010000000E#64).extractLsb' 32 24 ≠ 0#24 ∧
      (faulted 0x090000010000000E#64).fault ≠ 0#2) ∧
    ramped.inProgress = none ∧ ramped.fault = 0#2 := by decide

/-- FaultedDeviceAnswersFaulted: a valid word, an invalid one, and PROCESS_BLOCK 2 with its two frames. -/
theorem witness_faultedDevice (w : CommandWord) (_ : w = 0x0300000000000000#64 ∨ w = 0x0B00000000000000#64 ∨
      w = 0x0800000000000002#64) :
    (faulted w).inProgress = none ∧ (faulted w).queue = w :: [] ∧ (faulted w).fault ≠ 0#2 ∧
    w.extractLsb' 56 8 ≠ 0x09#8 ∧ (w = 0x0800000000000002#64 → w.extractLsb' 56 8 = 0x08#8 ∧
      (w.extractLsb' 0 32).toNat ≤ (faulted w).frames.length) := by
  rename_i h
  refine ⟨rfl, rfl, by show 1#2 ≠ 0#2; decide, ?_, ?_⟩
  · rcases h with rfl | rfl | rfl <;> decide
  · rintro rfl
    decide

/-- EachCommandRespondsOnce: a block with its frames, and one that waits for one more. -/
theorem witness_respondsOnce :
    (∃ t, exec (.processBlock 1#32) { ramped with frames := [0#64] } = .next t) ∧
    (∀ n, Instr.processBlock 1#32 = .processBlock n → n.toNat ≤ [0#64].length) ∧
    (∃ t, exec (.processBlock 2#32) { ramped with frames := [0#64] } = .next t) ∧ [0#64].length < (2#32).toNat := by
  refine ⟨⟨_, rfl⟩, ?_, ⟨_, rfl⟩, by decide⟩
  intro n h
  cases h
  decide

/-- ResponsesKeepTheirForm and FaultBitsAreSticky. -/
theorem witness_step :
    (∃ t, step (faulted 0x0300000000000000#64) = .next t) ∧ ∃ t, deviceStep (faulted 0x0300000000000000#64) = .next t :=
  ⟨⟨_, rfl⟩, _, rfl⟩

/-- EveryStepKeepsTheInvariant: READ_REG 0 at Recording(4). -/
theorem witness_invariant :
    Inv { recording with queue := [0x0900000000000000#64] } ∧
    (∃ t, step { recording with queue := [0x0900000000000000#64] } = .next t) ∧
    ∃ t, deviceStep { recording with queue := [0x0900000000000000#64] } = .next t :=
  ⟨inv_of_ramped _ (.inr rfl) [] _, ⟨_, rfl⟩, _, rfl⟩

/-- OnlyBlocksRaiseFaults: a block that raises one. -/
theorem witness_raisesFault :
    FaultFree { ramped with frames := [frame 0#32 0x7F800000#32] } ∧
    ((nextOf (exec (.processBlock 1#32) { ramped with frames := [frame 0#32 0x7F800000#32] })).map
      (raisedFault { ramped with frames := [frame 0#32 0x7F800000#32] })) = some (some .nonfinitePhase) ∧
    (1#32).toNat ≤ [frame 0#32 0x7F800000#32].length := ⟨rfl, by decide +kernel, by decide⟩

/-- InternalModeFaultIsUnreachable. -/
theorem witness_internalMode :
    (faulted 0x0300000000000000#64).mode ≠ 3#2 ∧ (faulted 0x0300000000000000#64).fault.getLsbD 1 = false ∧
    (∃ t, step (faulted 0x0300000000000000#64) = .next t) ∧ ∃ t, deviceStep (faulted 0x0300000000000000#64) = .next t :=
  ⟨by decide, by decide, ⟨_, rfl⟩, _, rfl⟩

/-- CaptureStartRestartsTheCountdown. -/
theorem witness_captureStart : recording.fault = 0#2 := by decide

/-- SetSizeFollowsItsChecks: not a power of two from 2 (1, 3), the size held, a new size up to N_MAX; and, unless N_MAX is
the largest size there is, a size above it. -/
theorem witness_setSize :
    ramped.fault = 0#2 ∧ (¬ ∃ k, 1 ≤ k ∧ (1#32).toNat = 2 ^ k) ∧ (¬ ∃ k, 1 ≤ k ∧ (3#32).toNat = 2 ^ k) ∧
    ((∃ k, 1 ≤ k ∧ (4#32).toNat = 2 ^ k) ∧ 4#32 = ramped.size) ∧
    ((∃ k, 1 ≤ k ∧ (2#32).toNat = 2 ^ k) ∧ 2#32 ≠ ramped.size ∧ (2#32).toNat ≤ Config.nMax) ∧
    (Config.nMax < 2 ^ 31 → (∃ k, 1 ≤ k ∧ (0x80000000#32).toNat = 2 ^ k) ∧ 0x80000000#32 ≠ ramped.size ∧
      Config.nMax < (0x80000000#32).toNat) := by
  refine ⟨rfl, ?_, ?_, ⟨⟨2, by norm_num, rfl⟩, rfl⟩, ⟨⟨1, by norm_num, rfl⟩, by decide, le_trans (by decide) nMax_ge⟩,
    fun h => ⟨⟨31, by norm_num, rfl⟩, by decide, h⟩⟩
  · rw [← legalSize_iff]
    decide
  · rw [← legalSize_iff]
    decide

/-- SetModeWritesModeOrRejects, at the bound. -/
theorem witness_setMode : ramped.fault = 0#2 ∧ (2#32).toNat ≤ 2 ∧ 3 ≤ (3#32).toNat := by decide

/-- EnvelopeSettersRecomputeOrReject: the smallest and the largest legal argument; +0.0, +∞, -0.0 and a NaN. -/
theorem witness_envelopeSetters :
    ramped.fault = 0#2 ∧ (0 < (1#32).toNat ∧ (1#32).toNat < 0x7F800000) ∧
    (0 < (0x7F7FFFFF#32).toNat ∧ (0x7F7FFFFF#32).toNat < 0x7F800000) ∧
    ((0#32).toNat = 0 ∨ 0x7F800000 ≤ (0#32).toNat) ∧ 0x7F800000 ≤ (0x7F800000#32).toNat ∧
    0x7F800000 ≤ (0x80000000#32).toNat ∧ 0x7F800000 ≤ (0x7FC00000#32).toNat := by decide

/-- SetEnvEnableWritesTheFlag: the three clauses. -/
theorem witness_setEnvEnable : ramped.fault = 0#2 ∧ 0#32 = 0#32 ∧ 1#32 = 1#32 ∧ 2 ≤ (2#32).toNat := by decide

/-- ReadTableAnswersTheMaskedWord: the largest index. -/
theorem witness_readTable :
    ramped.fault = 0#2 ∧ ramped.size.toNat = 2 ^ 2 ∧ (0xFFFFFFFF#32).toNat % ramped.size.toNat = 3 := by decide

/-- EmptyBlockChangesNothing. -/
theorem witness_emptyBlock : ramped.fault = 0#2 ∧ ramped.inProgress = none := by decide

/-- CaptureStoresExactlyItsSamples: the whole capture, a part of it, its last sample, and no sample. -/
theorem witness_capture (n r : U32)
    (_ : (n, r) = (4#32, 4#32) ∨ (n, r) = (3#32, 4#32) ∨ (n, r) = (1#32, 1#32) ∨ (n, r) = (0#32, 1#32)) :
    (∃ s : State, s.fault = 0#2 ∧ s.capState = .recording r ∧ s.size.toNat = 2 ^ 2 ∧ Table.wf s.table ∧
      n.toNat ≤ s.frames.length ∧ r.toNat ≤ s.size.toNat) ∧ 1 ≤ r.toNat ∧ n.toNat ≤ r.toNat := by
  rename_i h
  simp only [Prod.mk.injEq] at h
  refine ⟨⟨{ ramped with capState := .recording r, frames := [0#64, 1#64, 2#64, 3#64] }, rfl, rfl, rfl, ramp_wf, ?_, ?_⟩,
    ?_⟩ <;> rcases h with ⟨rfl, rfl⟩ | ⟨rfl, rfl⟩ | ⟨rfl, rfl⟩ | ⟨rfl, rfl⟩ <;> decide

/-- CaptureTakesExactlyNSamples: blocks of 3, 0 and 1 (the whole capture), and of 3 and 0 (a part of it). -/
theorem witness_captureSplit (ns : List U32) (_ : ns = [3#32, 0#32, 1#32] ∨ ns = [3#32, 0#32]) :
    ∃ s : State, s.fault = 0#2 ∧ s.capState = .recording s.size ∧ s.size.toNat = 2 ^ 2 ∧ Table.wf s.table ∧
      (ns.map BitVec.toNat).sum ≤ s.size.toNat ∧ (ns.map BitVec.toNat).sum ≤ s.frames.length := by
  rename_i h
  refine ⟨{ recording with frames := [0#64, 1#64, 2#64, 3#64] }, rfl, rfl, rfl, ramp_wf, ?_⟩
  rcases h with rfl | rfl <;> decide

/-- PlaybackSlotFollowsTheRules and NonfiniteControlRaisesAFault: each legal mode, ENV_EN off and on, with an ordinary and
an infinite control input. -/
theorem witness_playback (m : BitVec 2) (_ : m ≠ 3#2) (on : Bool) (x : F32) :
    (∃ s : State, s.fault = 0#2 ∧ s.capState = .idle ∧ s.mode ≠ 3#2 ∧ s.envEn = on ∧ s.frames = frame 0#32 x :: []) ∧
    isFinite ((frame 0#32 0x7F800000#32).extractLsb' 32 32) = false := by
  rename_i h
  exact ⟨⟨{ ramped with mode := m, envEn := on, frames := [frame 0#32 x] }, rfl, rfl, h, rfl, rfl⟩, by decide⟩

/-- ModeThreeRaisesInternalMode. -/
theorem witness_modeThree :
    ∃ s : State, s.fault = 0#2 ∧ s.capState = .idle ∧ s.mode = 3#2 ∧ s.envEn = false ∧ s.frames = 0#64 :: [] :=
  ⟨{ ramped with mode := 3#2, frames := [0#64] }, rfl, rfl, rfl, rfl, rfl⟩

/-- FaultEndsTheBlock: a first slot that faults, in a block of two. -/
theorem witness_faultEnds :
    1 ≤ (2#32).toNat ∧ (2#32).toNat ≤ [frame 0#32 0x7F800000#32, 0#64].length ∧
    ((nextOf (exec (.processBlock 1#32) { ramped with frames := [frame 0#32 0x7F800000#32, 0#64] })).map (·.fault)) =
      some 1#2 := by decide +kernel

/-- SplittingABlockChangesNothing, each outcome of the joined response: a capture completes in the first part, in the second,
in neither, and the second part faults. -/
theorem witness_splitting (c : CapState) (f : FrameWord) (k : BitVec 2)
    (_ : (c, f, k) = (.recording 1#32, 0#64, 0#2) ∨ (c, f, k) = (.recording 2#32, 0#64, 0#2) ∨
      (c, f, k) = (.idle, 0#64, 0#2) ∨ (c, f, k) = (.idle, faultFrame, 1#2)) :
    (1#32).toNat + (1#32).toNat < 2 ^ 32 ∧ (1#32).toNat + (1#32).toNat ≤ [0#64, f].length ∧
    ((nextOf (exec (.processBlock 1#32) { ramped with capState := c, frames := [0#64, f] })).map
      (fun t => (t.fault, (nextOf (exec (.processBlock 1#32) t)).map (·.fault)))) = some (0#2, some k) := by
  rename_i h
  simp only [Prod.mk.injEq] at h
  rcases h with ⟨rfl, rfl, rfl⟩ | ⟨rfl, rfl, rfl⟩ | ⟨rfl, rfl, rfl⟩ | ⟨rfl, rfl, rfl⟩ <;> decide +kernel

/-- BlockWaitsForItsFrames: none of one, and one of two. -/
theorem witness_waits : ([] : List FrameWord).length < (1#32).toNat ∧ [0#64].length < (2#32).toNat := by decide

/-- BlockKeepsConfigurationAndFraming: a block that faults and one that does not. -/
theorem witness_blockKeeps :
    (1#32).toNat ≤ [frame 0#32 0x7F800000#32].length ∧
    ((nextOf (exec (.processBlock 1#32) { ramped with frames := [frame 0#32 0x7F800000#32] })).map (·.fault)) = some 1#2 ∧
    ((nextOf (exec (.processBlock 1#32) { ramped with frames := [0#64] })).map (·.fault)) = some 0#2 := by decide +kernel

/-- OutputIsSilentWithoutACapture: the reset state but for its size (the invariant of a like state is `inv_of_ramped`). -/
theorem witness_silent :
    (∃ s : State, Inv s ∧ s.table = [] ∧ s.capState = .idle ∧ ∃ t, exec (.processBlock 1#32) s = .next t) := by
  have h := inv_of_ramped .idle (.inl rfl) [0#64] []
  refine ⟨{ ramped with table := [], frames := [0#64] }, ⟨h.size_pow, h.size_le, ?_, ?_, h.mode_legal, h.attack_legal,
    h.decay_legal, h.rate_legal, h.attack_coeff, h.decay_coeff, h.phase_finite, h.phase_nonneg, h.phase_lt, h.cap_range⟩,
    rfl, rfl, _, rfl⟩
  · show Table.wf []
    decide
  · intro c hc
    cases hc

/-- PhaseIncIsNeverRead: a register number next to PHASE_INC's, and a block. -/
theorem witness_phaseInc :
    Instr.readReg 0x0A#32 ≠ .readReg 0x0B#32 ∧ (∃ t, exec (.readReg 0x0A#32) ramped = .next t) ∧
    Instr.processBlock 0#32 ≠ .readReg 0x0B#32 ∧ ∃ t, exec (.processBlock 0#32) ramped = .next t :=
  ⟨by decide, ⟨_, rfl⟩, by decide, ⟨_, rfl⟩⟩

/-- NaNStaysInTheFollower: a NaN input, a NaN in ENV_LAST, and +∞ over a finite ENV_LAST (ENV-5, ENV-6). -/
theorem witness_nanStays :
    (follower true 0#32 0#32 0x7FC00000#32).envEn = true ∧ isNaN 0x7F800001#32 = true ∧
    isNaN (follower true 0#32 0#32 0x7FC00000#32).envLast = true ∧
    (isInf 0x7F800000#32 = true ∧ isFinite (follower true 0#32 0#32 0x3F000000#32).envLast = true ∧
      signBit (follower true 0#32 0#32 0x3F000000#32).attackCoeff = false) := by decide

/-- RoundingIsToNearest: a tie at the smallest subnormal, whose neighbours are +0.0 and 1; the largest finite value; and the
midpoint to 2^128, from which on the result is infinite, with the value just below it. -/
theorem witness_rounding :
    149 ≤ 150 ∧ isFinite (round32 false 1 150) = true ∧ isFinite 1#32 = true ∧
    magnitude 1#32 ≠ magnitude (round32 false 1 150) ∧
    |((magnitude (round32 false 1 150) * 2 ^ (150 - 149) : Nat) : Int) - 1| =
      |((magnitude 1#32 * 2 ^ (150 - 149) : Nat) : Int) - 1| ∧
    isFinite (round32 true ((2 ^ 24 - 1) * 2 ^ 253) 149) = true ∧ isFinite 0x7F7FFFFF#32 = true ∧
    isFinite (round32 true ((2 ^ 128 - 2 ^ 103) * 2 ^ 149) 149) = false ∧
    isFinite (round32 true ((2 ^ 128 - 2 ^ 103) * 2 ^ 149 - 1) 149) = true := by decide +kernel

/-- WrapLandsInRange, WrapIsExactFromNUp: the smallest and the largest N, values below, at and above it. -/
theorem witness_wrap :
    isFinite 0xFF7FFFFF#32 = true ∧ isFinite 0x7F7FFFFF#32 = true ∧
    ((2 ^ 1 * scale : Nat) : Int) ≤ scaled 0x40000000#32 ∧ ((2 ^ 31 * scale : Nat) : Int) ≤ scaled 0x7F7FFFFF#32 := by
  decide +kernel

/-- WrapEqualsTheSubtractionLoop: 0 (no step), N, and N · 2^24. -/
theorem witness_wrapLoop :
    isFinite 0#32 = true ∧ 0 ≤ scaled 0#32 ∧ scaled 0#32 ≤ (2 ^ 2 * scale * 2 ^ 24 : Nat) ∧
    isFinite 0x4C800000#32 = true ∧ 0 ≤ scaled 0x4C800000#32 ∧
    scaled 0x4C800000#32 = (2 ^ 2 * scale * 2 ^ 24 : Nat) := by decide +kernel

/-- WrapOfANegativeEqualsTheSourceLoop, N = 4: −N · 2^24, and WRAP-6's value, whose last step rounds to N. -/
theorem witness_wrapNegative :
    isFinite 0xCC800000#32 = true ∧ scaled 0xCC800000#32 < 0 ∧
    scaled 0xCC800000#32 = -((2 ^ 2 * scale * 2 ^ 24 : Nat) : Int) ∧
    isFinite 0xB22BCC77#32 = true ∧ scaled 0xB22BCC77#32 < 0 ∧
    -((2 ^ 2 * scale * 2 ^ 24 : Nat) : Int) ≤ scaled 0xB22BCC77#32 := by decide +kernel

/-- FractionIsExact: the largest phase below SIZE 4. -/
theorem witness_fraction :
    ({ ramped with phase := 0x407FFFFF#32 } : State).size.toNat = 2 ^ 2 ∧ isFinite 0x407FFFFF#32 = true ∧
    0 ≤ scaled 0x407FFFFF#32 ∧ scaled 0x407FFFFF#32 < (4 * scale : Nat) := by decide +kernel

/-- IncrementIsExact: the smallest and the largest normal product for N = 4. -/
theorem witness_increment :
    ramped.size.toNat = 2 ^ 2 ∧ (isFinite 0x00200000#32 = true ∧ 2 ^ 23 ≤ magnitude 0x00200000#32 * 2 ^ 2 ∧
      magnitude 0x00200000#32 * 2 ^ 2 < scale * 2 ^ 128) ∧
    (isFinite 0xFE7FFFFF#32 = true ∧ 2 ^ 23 ≤ magnitude 0xFE7FFFFF#32 * 2 ^ 2 ∧
      magnitude 0xFE7FFFFF#32 * 2 ^ 2 < scale * 2 ^ 128) := by decide +kernel

/-- KernelsMeetTruncateAtIntegerPhase: the ramp at i = 3. -/
theorem witness_kernels :
    isFinite (memRead 3 ramped) = true ∧ isFinite (linear2 0 3 0#32 ramped) = true ∧
    isFinite (cubic4 0 3 0#32 ramped) = true := by decide +kernel

/-- CoefficientLiesInUnitInterval: the smallest and the largest legal argument. -/
theorem witness_coefficient : legalTime 1#32 = true ∧ legalTime 0x7F7FFFFF#32 = true := by decide +kernel

end Sys2Proof.Tests
end

/-! round32 is roundTiesToEven with overflow to infinity (R9). The significand it keeps is within half a place of the exact
value, and even at exactly half a place; every binary32 is a whole number of those places or lies below the binade. -/

namespace Sys2Proof.Machine

/-! The error of the chosen significand. -/

/-- The rounding error is at most half a place, and a tie has gone to the even significand. -/
theorem roundedSig_error (m p : Nat) :
    2 * (roundedSig m p * 2 ^ dropOf m p) ≤ 2 * m + 2 ^ dropOf m p ∧
    2 * m ≤ 2 * (roundedSig m p * 2 ^ dropOf m p) + 2 ^ dropOf m p ∧
    (2 * (roundedSig m p * 2 ^ dropOf m p) = 2 * m + 2 ^ dropOf m p ∨
      2 * m = 2 * (roundedSig m p * 2 ^ dropOf m p) + 2 ^ dropOf m p → roundedSig m p % 2 = 0) := by
  have hm := Nat.div_add_mod' m (2 ^ dropOf m p)
  have hlost := Nat.mod_lt m (Nat.two_pow_pos (dropOf m p))
  simp only [roundedSig]
  split
  · rw [Nat.succ_mul (m / 2 ^ dropOf m p)]
    omega
  · omega

/-- No multiple of the result's last place is nearer to m than the chosen one; if another is as near, that one is even. -/
theorem roundedSig_nearest (m p c : Nat) :
    |((roundedSig m p * 2 ^ dropOf m p : Nat) : Int) - m| ≤ |((c * 2 ^ dropOf m p : Nat) : Int) - m| ∧
    (|((roundedSig m p * 2 ^ dropOf m p : Nat) : Int) - m| = |((c * 2 ^ dropOf m p : Nat) : Int) - m| →
      c ≠ roundedSig m p → roundedSig m p % 2 = 0) := by
  obtain ⟨hover, hunder, htie⟩ := roundedSig_error m p
  simp only [Int.abs_eq_natAbs]
  rcases Nat.lt_trichotomy c (roundedSig m p) with hc | rfl | hc
  · have hplace : (c + 1) * 2 ^ dropOf m p ≤ roundedSig m p * 2 ^ dropOf m p := Nat.mul_le_mul_right _ hc
    rw [Nat.succ_mul] at hplace
    omega
  · exact ⟨le_rfl, fun _ hne => absurd rfl hne⟩
  · have hplace : (roundedSig m p + 1) * 2 ^ dropOf m p ≤ c * 2 ^ dropOf m p := Nat.mul_le_mul_right _ hc
    rw [Nat.succ_mul] at hplace
    omega

/-- The significand carries out of its 24 bits exactly from half a place below 2^24 up. -/
theorem roundedSig_carries_iff (m p : Nat) :
    2 ^ 24 ≤ roundedSig m p ↔ (2 ^ 25 - 1) * 2 ^ dropOf m p ≤ 2 * m := by
  obtain ⟨hover, hunder, htie⟩ := roundedSig_error m p
  have hpos := Nat.two_pow_pos (dropOf m p)
  generalize roundedSig m p = K, 2 ^ dropOf m p = D at *
  constructor
  · intro hcarry
    have := Nat.mul_le_mul_right D hcarry
    omega
  · intro hm
    by_contra hlt
    by_cases hodd : K = 2 ^ 24 - 1
    · have hvalue : K * D = (2 ^ 24 - 1) * D := by rw [hodd]
      omega
    · have hK : K ≤ 2 ^ 24 - 2 := by omega
      have := Nat.mul_le_mul_right D hK
      omega

/-! The result as bits and in units of 2^-p. -/

theorem le_dropOf (m p : Nat) : p - 149 ≤ dropOf m p := Nat.le_max_right _ _

/-- Whatever is not finite has the bits of an infinity. -/
theorem isInf_round32_of_not_finite (neg : Bool) (m p : Nat) (h : isFinite (round32 neg m p) = false) :
    isInf (round32 neg m p) = true := by
  have hmag : roundMag m p = 0x7F800000 := by
    rw [← Bool.not_eq_true, isFinite_round32] at h
    rw [roundMag_eq]
    omega
  have hfrac : fracField (round32 neg m p) = roundMag m p % 2 ^ 23 := fracField_pack _ _ (roundMag_lt m p)
  simp [isInf, expField_round32, hfrac, hmag]

/-- The last bit of a finite result is the last bit of the chosen significand. -/
theorem getLsbD_zero_round32 (neg : Bool) (m p : Nat) (h : isFinite (round32 neg m p) = true) :
    (round32 neg m p).getLsbD 0 = decide (roundedSig m p % 2 = 1) := by
  rw [isFinite_round32] at h
  rw [BitVec.getLsbD, round32, toNat_pack neg _ (roundMag_lt m p), Nat.testBit_zero, roundMag_eq, Nat.min_eq_left h.le]
  congr 1
  rw [eq_iff_iff]
  omega

/-- A finite result in units of 2^-p. -/
theorem magnitude_round32_mul (neg : Bool) (m p : Nat) (h : isFinite (round32 neg m p) = true) :
    magnitude (round32 neg m p) * 2 ^ (p - 149) = roundedSig m p * 2 ^ dropOf m p := by
  rw [magnitude_round32 neg m p h, Nat.mul_assoc, ← pow_add, Nat.sub_add_cancel (le_dropOf m p)]

/-- Where the last place lies above that of the subnormals, m is at least the bottom of its binade. -/
theorem binade_le (m p : Nat) (h : dropOf m p ≠ p - 149) : 2 ^ 23 * 2 ^ dropOf m p ≤ m :=
  (Nat.le_div_iff_mul_le (Nat.two_pow_pos _)).mp (kept_ge m p h)

/-- In units of 2^-p a binary32 is a multiple of the last place of m's rounding, or it lies below m's binade. -/
theorem magnitude_multiple_or_below (m p : Nat) (y : F32) :
    (∃ c, magnitude y * 2 ^ (p - 149) = c * 2 ^ dropOf m p) ∨
    (magnitude y * 2 ^ (p - 149) < 2 ^ 23 * 2 ^ dropOf m p ∧ 2 ^ 23 * 2 ^ dropOf m p ≤ m) := by
  obtain ⟨c, e, hc, -, hy⟩ := magnitude_form y
  rw [hy, Nat.mul_assoc, ← pow_add]
  by_cases hplace : dropOf m p ≤ e + (p - 149)
  · refine .inl ⟨c * 2 ^ (e + (p - 149) - dropOf m p), ?_⟩
    rw [Nat.mul_assoc, ← pow_add, Nat.sub_add_cancel hplace]
  · refine .inr ⟨?_, binade_le m p (by omega)⟩
    calc c * 2 ^ (e + (p - 149)) < 2 ^ 24 * 2 ^ (e + (p - 149)) :=
          Nat.mul_lt_mul_of_pos_right hc (Nat.two_pow_pos _)
      _ = 2 ^ 23 * 2 ^ (e + (p - 149) + 1) := by ring
      _ ≤ 2 ^ 23 * 2 ^ dropOf m p := Nat.mul_le_mul_left _ (Nat.pow_le_pow_right (by norm_num) (by omega))

/-! Overflow and nearness. -/

/-- Overflow starts at the midpoint between the largest finite value and 2^128. -/
theorem isFinite_round32_eq_false_iff (neg : Bool) (m p : Nat) (hp : 149 ≤ p) :
    isFinite (round32 neg m p) = false ↔ (2 ^ 128 - 2 ^ 103) * 2 ^ p ≤ m := by
  have hmid : (2 ^ 128 - 2 ^ 103) * 2 ^ p = (2 ^ 25 - 1) * 2 ^ (p + 103) := by
    rw [pow_add, Nat.mul_left_comm, Nat.mul_comm (2 ^ p)]
    norm_num
  rw [← Bool.not_eq_true, isFinite_round32, Nat.not_lt, hmid]
  have hsig := roundedSig_le m p
  rcases Nat.lt_trichotomy (dropOf m p) (p + 104) with hd | hd | hd
  · have hm : m < 2 ^ 24 * 2 ^ dropOf m p := (Nat.div_lt_iff_lt_mul (Nat.two_pow_pos _)).mp (kept_lt m p)
    have hle : 2 ^ dropOf m p ≤ 2 ^ (p + 103) := Nat.pow_le_pow_right (by norm_num) (by omega)
    omega
  · have hcarry := roundedSig_carries_iff m p
    rw [hd, pow_succ 2 (p + 103)] at hcarry
    omega
  · have hm := binade_le m p (by omega)
    have hbig := (kept_ge m p (by omega)).trans (roundedSig_ge m p)
    have hle : 2 ^ (p + 103 + 2) ≤ 2 ^ dropOf m p := Nat.pow_le_pow_right (by norm_num) (by omega)
    rw [pow_add] at hle
    omega

/-- A finite result is a nearest binary32 of its sign, and the even one where two are as near. -/
theorem round32_nearest (neg : Bool) (m p : Nat) (h : isFinite (round32 neg m p) = true) (y : F32) :
    |((magnitude (round32 neg m p) * 2 ^ (p - 149) : Nat) : Int) - m| ≤
      |((magnitude y * 2 ^ (p - 149) : Nat) : Int) - m| ∧
    (|((magnitude (round32 neg m p) * 2 ^ (p - 149) : Nat) : Int) - m| =
        |((magnitude y * 2 ^ (p - 149) : Nat) : Int) - m| →
      magnitude y ≠ magnitude (round32 neg m p) → (round32 neg m p).getLsbD 0 = false) := by
  have hval := magnitude_round32_mul neg m p h
  rw [getLsbD_zero_round32 neg m p h]
  rcases magnitude_multiple_or_below m p y with ⟨c, hy⟩ | ⟨hy, hbinade⟩
  · obtain ⟨hnear, heven⟩ := roundedSig_nearest m p c
    have hne : magnitude y ≠ magnitude (round32 neg m p) → c ≠ roundedSig m p := by
      rintro hne rfl
      exact hne (Nat.eq_of_mul_eq_mul_right (Nat.two_pow_pos (p - 149)) (hy.trans hval.symm))
    rw [hval, hy]
    refine ⟨hnear, fun htie hmag => ?_⟩
    simp [heven htie (hne hmag)]
  · have hnear := (roundedSig_nearest m p (2 ^ 23)).1
    have hfar : |((magnitude (round32 neg m p) * 2 ^ (p - 149) : Nat) : Int) - m| <
        |((magnitude y * 2 ^ (p - 149) : Nat) : Int) - m| := by
      rw [hval]
      refine lt_of_le_of_lt hnear ?_
      simp only [Int.abs_eq_natAbs]
      omega
    exact ⟨hfar.le, fun htie => absurd htie hfar.ne⟩

/-- Settles O41: the overflow threshold from the carry of the significand, nearness from its error. -/
theorem roundingIsToNearest : Obligations.RoundingIsToNearest := by
  unfold Obligations.RoundingIsToNearest
  intro neg m p hp
  exact ⟨signBit_round32 neg m p, isFinite_round32_eq_false_iff neg m p hp, isInf_round32_of_not_finite neg m p,
    fun h y _ => round32_nearest neg m p h y⟩

end Sys2Proof.Machine

/-! The state's invariant (R38) and what else every step keeps: the FAULT bits (R36), and the independence of PHASE_INC
(R34). -/

namespace Sys2Proof.Machine

open Sys2Proof.Safety

/-! The phase's range (R38). -/

/-- +0.0 is a phase of every table (R105, R122). -/
theorem zero_inRange (n : Nat) (hn : 0 < n) :
    isFinite 0#32 = true ∧ 0 ≤ scaled 0#32 ∧ scaled 0#32 < (n * scale : Nat) := by
  have hzero : scaled 0#32 = 0 := by decide
  have hpos : 0 < n * scale := Nat.mul_pos hn (Nat.two_pow_pos 149)
  rw [hzero]
  exact ⟨by decide, le_rfl, by exact_mod_cast hpos⟩

/-- WRAP of a finite value is a phase of its table: the residue lies below N, and where its rounding reaches N the result
is +0.0 (R177). -/
theorem wrap_inRange (k : Nat) (p : F32) (hk : k ≤ 31) (hp : isFinite p = true) :
    isFinite (wrap (2 ^ k) p) = true ∧ 0 ≤ scaled (wrap (2 ^ k) p) ∧
      scaled (wrap (2 ^ k) p) < (2 ^ k * scale : Nat) := by
  have hpow : 2 ^ k * scale = 2 ^ (149 + k) := by rw [scale, ← pow_add, Nat.add_comm]
  have hpos : (0 : Int) < (2 ^ k * scale : Nat) := by
    rw [hpow]
    exact_mod_cast Nat.two_pow_pos _
  simp only [wrap]
  split
  · rename_i hin
    exact ⟨hp, hin⟩
  · split
    · exact zero_inRange _ (Nat.two_pow_pos k)
    · rename_i hne
      have hres : (scaled p % ((2 ^ k * scale : Nat) : Int)).toNat < 2 ^ (149 + k) := by
        have hlt := Int.emod_lt_of_pos (scaled p) hpos
        rw [← hpow]
        omega
      obtain ⟨hfin, hle⟩ := round32_le_pow false _ 149 k (by omega) le_rfl hres
      rw [← hpow] at hle
      rw [scaled_round32, if_neg Bool.false_ne_true] at hne ⊢
      exact ⟨hfin, Int.natCast_nonneg _, by omega⟩

/-! The parts of R38. -/

theorem inv_reset : Inv State.reset := by
  obtain ⟨hfin, hnonneg, hlt⟩ := zero_inRange 1024 (by decide)
  exact {
    size_pow := ⟨10, by decide, rfl⟩
    size_le := nMax_ge
    table_wf := ⟨List.Pairwise.nil, fun c hc => nomatch hc⟩
    table_range := fun c hc => nomatch hc
    mode_legal := by decide
    attack_legal := (legalTime_iff _).mpr (by decide)
    decay_legal := (legalTime_iff _).mpr (by decide)
    rate_legal := (legalTime_iff _).mpr (by decide)
    attack_coeff := rfl
    decay_coeff := rfl
    phase_finite := hfin
    phase_nonneg := hnonneg
    phase_lt := hlt
    cap_range := fun r hr => nomatch hr }

/-- Settles O15, part by part: the phase is +0.0, the table empty, the times legal. -/
theorem resetStateIsWellFormed : Obligations.ResetStateIsWellFormed := inv_reset

/-- SIZE is 2^k with k at most 31, by the bound of N_MAX (R6). -/
theorem inv_size {s : State} (h : Inv s) : ∃ k, k ≤ 31 ∧ s.size.toNat = 2 ^ k := by
  obtain ⟨k, -, hk⟩ := h.size_pow
  have hle := h.size_le.trans nMax_le
  rw [hk] at hle
  exact ⟨k, (Nat.pow_le_pow_iff_right (by norm_num)).mp hle, hk⟩

theorem inv_size_pos {s : State} (h : Inv s) : 0 < s.size.toNat := by
  obtain ⟨k, -, hk⟩ := inv_size h
  rw [hk]
  exact Nat.two_pow_pos k

/-- R38 speaks of no port. -/
theorem inv_withPorts (q : List CommandWord) (b : Option Block) (fs : List FrameWord) (rs : List ResponseWord)
    (s : State) (h : Inv s) : Inv (withPorts q b fs rs s) := { h with }

/-- A table write at a masked index stays within SIZE and in canonical form (R50, R101). -/
theorem inv_memWrite (i : Int) (v : F32) (s : State) (h : Inv s) : Inv (memWrite i v s) :=
  { h with
    table_wf := memWrite_wf i v s h.table_wf
    table_range := by
      obtain ⟨k, -, hk⟩ := inv_size h
      intro c hc
      rcases mem_tableSet _ _ _ _ hc with ⟨rfl, -⟩ | hc
      · exact maskIndex_lt i s k hk
      · exact h.table_range c hc }

/-- A capture's completion leaves Idle and the phase +0.0 (R122). -/
theorem inv_captureComplete (s : State) (h : Inv s) : Inv (captureComplete s) := by
  obtain ⟨hfin, hnonneg, hlt⟩ := zero_inRange _ (inv_size_pos h)
  exact { h with
    phase_finite := hfin
    phase_nonneg := hnonneg
    phase_lt := hlt
    cap_range := fun r hr => nomatch hr }

/-- The advanced phase is wrapped into the table (R177). -/
theorem inv_wrap (p : F32) (s : State) (hp : isFinite p = true) (h : Inv s) :
    Inv { s with phase := wrap s.size.toNat p } := by
  obtain ⟨k, hk, hsize⟩ := inv_size h
  obtain ⟨hfin, hnonneg, hlt⟩ := wrap_inRange k p hk hp
  rw [← hsize] at hfin hnonneg hlt
  exact { h with phase_finite := hfin, phase_nonneg := hnonneg, phase_lt := hlt }

/-! The slots and the register writes. -/

/-- A capture sample counts down from r ≥ 1 and completes at 1, so the count stays within 1 and SIZE (R121, R122). -/
theorem inv_captureSample (r : U32) (f : FrameWord) (s : State) (hr : s.capState = .recording r) (h : Inv s) :
    Inv (captureSample r f s).1 := by
  have hwrite := inv_memWrite ((s.size.toNat : Int) - r.toNat) (frameRaw f) s h
  have hemit : Inv (emit 0#32 (memWrite ((s.size.toNat : Int) - r.toNat) (frameRaw f) s)) := { hwrite with }
  simp only [captureSample]
  split
  · exact inv_captureComplete _ hemit
  · rename_i hne
    refine { hemit with cap_range := ?_ }
    rintro r' ⟨⟩
    obtain ⟨hlo, hhi⟩ := h.cap_range r hr
    simp only [emit_size, memWrite_size]
    bv_omega

theorem inv_playbackSample (f : FrameWord) (s : State) (h : Inv s) : Inv (playbackSample f s).1 := by
  obtain ⟨e, inc, d, -, ⟨y, p, hp, heq⟩ | ⟨y, heq⟩ | ⟨-, heq⟩⟩ := playbackSample_cases f s <;> rw [heq]
  · exact { inv_wrap p s hp h with }
  · exact { h with }
  · exact { h with }

theorem inv_slot (f : FrameWord) (s : State) (h : Inv s) : Inv (slot f s).1 := by
  cases hc : s.capState with
  | recording r => rw [slot_recording f s r hc]; exact inv_captureSample r f s hc h
  | idle => rw [slot_idle f s hc]; exact inv_playbackSample f s h

/-- A genuine resize to a legal size up to N_MAX starts from an empty table, Idle and the phase +0.0 (R102, R104, R105). -/
theorem inv_reallocate (a : U32) (s : State) (hlegal : legalSize a = true) (hmax : a.toNat ≤ Config.nMax)
    (h : Inv s) : Inv (reallocate a s) := by
  have hpow := (legalSize_iff a).mp hlegal
  have hpos : 0 < a.toNat := by
    obtain ⟨k, -, hk⟩ := hpow
    rw [hk]
    exact Nat.two_pow_pos k
  obtain ⟨hfin, hnonneg, hlt⟩ := zero_inRange a.toNat hpos
  exact { h with
    size_pow := hpow
    size_le := hmax
    table_wf := reallocate_wf a s
    table_range := fun c hc => nomatch hc
    phase_finite := hfin
    phase_nonneg := hnonneg
    phase_lt := hlt
    cap_range := fun r hr => nomatch hr }

/-- A legal mode index is not 3 in MODE's two bits (R170). -/
theorem legalMode_setWidth (k : U32) (h : legalMode k = true) : k.setWidth 2 ≠ 3#2 := by
  simp only [legalMode, decide_eq_true_eq] at h
  bv_omega

/-- Every command that writes registers checks its argument first, so R38 stays. -/
theorem inv_writesRegisters (i : Instr) (s t : State) (hw : WritesRegisters i s t) (h : Inv s) : Inv t := by
  rcases hw with ⟨-, rfl⟩ | ⟨a, -, hlegal, -, hmax, rfl⟩ | ⟨k, -, hlegal, rfl⟩ | ⟨v, -, hlegal, rfl⟩ |
    ⟨v, -, hlegal, rfl⟩ | ⟨v, -, hlegal, rfl⟩ | ⟨b, -, -, rfl⟩
  · refine { h with cap_range := ?_ }
    rintro r ⟨⟩
    exact ⟨inv_size_pos h, le_rfl⟩
  · exact inv_reallocate a s hlegal hmax h
  · exact { h with mode_legal := legalMode_setWidth k hlegal }
  · exact { h with attack_legal := hlegal, attack_coeff := rfl, decay_coeff := rfl }
  · exact { h with decay_legal := hlegal, attack_coeff := rfl, decay_coeff := rfl }
  · exact { h with rate_legal := hlegal, attack_coeff := rfl, decay_coeff := rfl }
  · exact { h with }

/-- The state a step answers is the device's (R205). -/
theorem deviceStep_of_step (s t : State) (h : step s = .next t) : deviceStep s = .next t := ((step_next_iff s t).mp h).1

theorem inv_deviceStep (s t : State) (hstep : deviceStep s = .next t) (h : Inv s) : Inv t :=
  deviceStep_keeps Inv inv_slot inv_withPorts inv_writesRegisters s t hstep h

/-- Settles O17: every slot and every register write keeps R38, and so does the device, whose state a step answers. -/
theorem everyStepKeepsTheInvariant : Obligations.EveryStepKeepsTheInvariant := by
  unfold Obligations.EveryStepKeepsTheInvariant
  intro s t h
  exact ⟨fun hstep => inv_deviceStep s t (deviceStep_of_step s t hstep) h, fun hstep => inv_deviceStep s t hstep h⟩

/-! The FAULT bits (R36). -/

/-- No command that writes registers writes FAULT (R36). -/
theorem writesRegisters_fault (i : Instr) (s t : State) (hw : WritesRegisters i s t) : t.fault = s.fault := by
  rcases hw with ⟨-, rfl⟩ | ⟨a, -, -, -, -, rfl⟩ | ⟨k, -, -, rfl⟩ | ⟨v, -, -, rfl⟩ | ⟨v, -, -, rfl⟩ |
    ⟨v, -, -, rfl⟩ | ⟨b, -, -, rfl⟩ <;> rfl

/-- The device keeps every FAULT bit of a mask that is set. -/
theorem deviceStep_keeps_fault (s t : State) (h : deviceStep s = .next t) (m : BitVec 2) (hm : m &&& s.fault = m) :
    m &&& t.fault = m := by
  refine deviceStep_keeps (fun u => m &&& u.fault = m) ?_ (fun _ _ _ _ _ hu => hu) ?_ s t h hm
  · intro f u hu
    calc m &&& (slot f u).1.fault = m &&& (u.fault &&& (slot f u).1.fault) := by rw [← BitVec.and_assoc, hu]
      _ = m := by rw [(slot_keeps_fault f u).1, hu]
  · intro i u v hw hu
    rw [writesRegisters_fault i u v hw, hu]

/-- Settles O18: a slot only sets FAULT bits, and nothing else writes them. -/
theorem faultBitsAreSticky : Obligations.FaultBitsAreSticky := by
  unfold Obligations.FaultBitsAreSticky
  rintro s t (hstep | hstep)
  · exact deviceStep_keeps_fault s t (deviceStep_of_step s t hstep) s.fault BitVec.and_self
  · exact deviceStep_keeps_fault s t hstep s.fault BitVec.and_self

/-! PHASE_INC (R34): a playback sample overwrites it before anything could read it, and READ_REG 0x0B alone reads it. -/

/-- The state with another PHASE_INC. -/
def withPhaseInc (x : F32) (s : State) : State := { s with phaseInc := x }

/-- The envelope update neither reads nor writes PHASE_INC (R146). -/
theorem envUpdate_withPhaseInc (x : F32) (d : Nat) (a : F32) (s : State) :
    envUpdate d a (withPhaseInc x s) = ((envUpdate d a s).1, withPhaseInc x (envUpdate d a s).2) := by
  by_cases h : s.envEn = true
  · rw [envUpdate, if_pos (show (withPhaseInc x s).envEn = true from h), envUpdate, if_pos h]
    rfl
  · rw [envUpdate, if_neg (show ¬ (withPhaseInc x s).envEn = true from h), envUpdate, if_neg h]

/-- The first half of a playback sample writes PHASE_INC and does not read it (R179). -/
theorem beginPlayback_withPhaseInc (x : F32) (f : FrameWord) (s : State) :
    beginPlayback f (withPhaseInc x s) = beginPlayback f s := by
  simp only [beginPlayback]
  rw [show (withPhaseInc x s).draws = s.draws from rfl, envUpdate_withPhaseInc]
  rfl

theorem playbackSample_withPhaseInc (x : F32) (f : FrameWord) (s : State) :
    playbackSample f (withPhaseInc x s) = playbackSample f s := by
  simp only [playbackSample, beginPlayback_withPhaseInc]
  rfl

theorem slot_withPhaseInc (x : F32) (f : FrameWord) (s : State) :
    ∃ y, slot f (withPhaseInc x s) = (withPhaseInc y (slot f s).1, (slot f s).2) := by
  cases hc : s.capState with
  | recording r =>
    rw [slot_recording f s r hc, slot_recording f (withPhaseInc x s) r hc, captureSample, captureSample]
    split
    · exact ⟨0#32, rfl⟩
    · exact ⟨x, rfl⟩
  | idle =>
    rw [slot_idle f s hc, slot_idle f (withPhaseInc x s) hc, playbackSample_withPhaseInc]
    exact ⟨_, rfl⟩

theorem frameStep_withPhaseInc (x : F32) (b : Block) (f : FrameWord) (s : State) :
    ∃ y, frameStep b f (withPhaseInc x s) = ((frameStep b f s).1, withPhaseInc y (frameStep b f s).2) := by
  obtain ⟨y, hy⟩ := slot_withPhaseInc x f s
  simp only [frameStep, hy]
  split
  · exact ⟨x, rfl⟩
  · exact ⟨y, rfl⟩

theorem settle_withPhaseInc (x : F32) (b : Block) (rest : List FrameWord) (s : State) :
    settle b rest (withPhaseInc x s) = withPhaseInc x (settle b rest s) := by
  simp only [settle]
  split <;> rfl

theorem runFrames_withPhaseInc (x : F32) (fs : List FrameWord) (b : Block) (s : State) :
    ∃ y, runFrames fs b (withPhaseInc x s) = withPhaseInc y (runFrames fs b s) := by
  induction fs generalizing x b s with
  | nil => exact ⟨x, settle_withPhaseInc x b [] s⟩
  | cons f fs ih =>
    by_cases hb : b.todo = 0
    · rw [runFrames_done _ _ _ hb, runFrames_done _ _ _ hb]
      exact ⟨x, settle_withPhaseInc x b _ s⟩
    · obtain ⟨y, hy⟩ := frameStep_withPhaseInc x b f s
      rw [runFrames_cons _ _ _ _ hb, runFrames_cons _ _ _ _ hb, hy]
      exact ih y _ _

/-- Check 1 of the decode order (R79) passes a difference in PHASE_INC on. -/
theorem unlessFaulted_withPhaseInc (x : F32) {s t u u' : State} (h : unlessFaulted s u = .next t)
    (hu : ∃ y, u' = withPhaseInc y u) : ∃ y, unlessFaulted (withPhaseInc x s) u' = .next (withPhaseInc y t) := by
  obtain ⟨y, rfl⟩ := hu
  by_cases hf : s.fault = 0#2
  · rw [unlessFaulted_ok s u hf] at h
    cases h
    exact ⟨y, unlessFaulted_ok _ _ hf⟩
  · rw [unlessFaulted_faulted s u hf] at h
    cases h
    exact ⟨x, unlessFaulted_faulted _ _ hf⟩

/-- Only register 0x0B reads PHASE_INC (R39). -/
theorem registerValue_withPhaseInc (x : F32) (r : U32) (s : State) (hr : r ≠ 0x0B#32) :
    registerValue r (withPhaseInc x s) = registerValue r s := by
  have hne : r.toNat ≠ 11 := fun h => hr (BitVec.eq_of_toNat_eq h)
  unfold registerValue
  split
  case h_12 h => exact absurd h hne
  all_goals rfl

/-- Settles O39: a slot overwrites PHASE_INC or passes it on, and no other command but READ_REG 0x0B looks at it. -/
theorem phaseIncIsNeverRead : Obligations.PhaseIncIsNeverRead := by
  unfold Obligations.PhaseIncIsNeverRead
  intro i x s t hi h
  change ∃ y, exec i (withPhaseInc x s) = .next (withPhaseInc y t)
  cases i with
  | captureStart => exact unlessFaulted_withPhaseInc x h ⟨x, rfl⟩
  | setSize a =>
    refine unlessFaulted_withPhaseInc x h ?_
    by_cases hsame : a = s.size
    · rw [if_pos hsame, if_pos (show a = (withPhaseInc x s).size from hsame)]
      exact ⟨x, by split <;> rfl⟩
    · rw [if_neg hsame, if_neg (show a ≠ (withPhaseInc x s).size from hsame)]
      split
      · exact ⟨x, rfl⟩
      · split
        · exact ⟨x, rfl⟩
        · exact ⟨0#32, rfl⟩
  | setMode k => exact unlessFaulted_withPhaseInc x h ⟨x, by split <;> rfl⟩
  | setAttackMs v => exact unlessFaulted_withPhaseInc x h ⟨x, by split <;> rfl⟩
  | setDecayMs v => exact unlessFaulted_withPhaseInc x h ⟨x, by split <;> rfl⟩
  | setEnvEnable b => exact unlessFaulted_withPhaseInc x h ⟨x, by split <;> rfl⟩
  | setSampleRate r => exact unlessFaulted_withPhaseInc x h ⟨x, by split <;> rfl⟩
  | processBlock n =>
    cases h
    obtain ⟨y, hy⟩ := runFrames_withPhaseInc x s.frames
      ⟨n.toNat, 0, none, if s.fault = 0#2 then none else some .faulted⟩ s
    exact ⟨y, congrArg Host.Outcome.next hy⟩
  | readReg r =>
    cases h
    have hr : r ≠ 0x0B#32 := fun hr => hi (congrArg Instr.readReg hr)
    refine ⟨x, congrArg Host.Outcome.next ?_⟩
    rw [registerValue_withPhaseInc x r s hr]
    cases registerValue r s <;> rfl
  | readTable a => exact unlessFaulted_withPhaseInc x h ⟨x, rfl⟩

end Sys2Proof.Machine

/-! The memory family (20_memory.md): a command reads no further than its own word of the queue (R58, R60), and reads
disturb nothing (R55). -/

namespace Sys2Proof.Machine

/-! The next word of the queue (R58). -/

/-- A word that is a command is executed on the state without it. -/
theorem deviceStep_ok {w : CommandWord} {ws : List CommandWord} {i : Instr} {s : State} (hp : s.inProgress = none)
    (hq : s.queue = w :: ws) (hd : decode w = .ok i) : deviceStep s = exec i { s with queue := ws } := by
  simp only [deviceStep, hp, fetch, hq, hd]

/-- A word that is no command is rejected on the state without it. -/
theorem deviceStep_error {w : CommandWord} {ws : List CommandWord} {e : DecodeError} {s : State}
    (hp : s.inProgress = none) (hq : s.queue = w :: ws) (hd : decode w = .error e) :
    deviceStep s = .next (rejectWord w { s with queue := ws }) := by
  simp only [deviceStep, hp, fetch, hq, hd]

/-- Settles O5: the device executes the word's command, and the step stops at the fault raised in it. -/
theorem stepRunsDecodedInstruction : Obligations.StepRunsDecodedInstruction := by
  unfold Obligations.StepRunsDecodedInstruction
  intro w ws i s hp hq hd
  have hdevice := deviceStep_ok hp hq hd
  exact ⟨hdevice, congrArg (stopAtFault s) hdevice⟩

/-! The command port's two streams, the queue and the responses: no command looks at them, and each adds the same responses
whatever they hold. -/

/-- The state with another queue and other responses. -/
def withStreams (q : List CommandWord) (rs : List ResponseWord) (s : State) : State :=
  { s with queue := q, responses := rs }

/-- Whatever the two streams hold, o goes on to one and the same state, leaves the queue and adds the same responses. -/
def AnswersAlike (o : List CommandWord → List ResponseWord → Host.Outcome State Fault Refusal) : Prop :=
  ∃ added t, ∀ q rs, o q rs = .next (withStreams q (rs ++ added) t)

theorem answersAlike_respond (c : Status) (v : U32) (s : State) :
    AnswersAlike fun q rs => .next (respond c v (withStreams q rs s)) :=
  ⟨[responseWord c v], s, fun _ _ => rfl⟩

/-- A check that looks at neither stream. -/
theorem answersAlike_ite (c : Prop) [Decidable c] {u u' : List CommandWord → List ResponseWord → State}
    (hu : AnswersAlike fun q rs => .next (u q rs)) (hu' : AnswersAlike fun q rs => .next (u' q rs)) :
    AnswersAlike fun q rs => .next (if c then u q rs else u' q rs) := by
  by_cases hc : c
  · simpa only [if_pos hc] using hu
  · simpa only [if_neg hc] using hu'

theorem answersAlike_unlessFaulted (s : State) {u : List CommandWord → List ResponseWord → State}
    (hu : AnswersAlike fun q rs => .next (u q rs)) :
    AnswersAlike fun q rs => unlessFaulted (withStreams q rs s) (u q rs) :=
  answersAlike_ite (s.fault = 0#2) hu (answersAlike_respond .faulted 0#32 s)

/-- A block's frames neither read nor write the streams, but for the response at its end. -/
theorem answersAlike_runFrames (fs : List FrameWord) (b : Block) (s : State) :
    AnswersAlike fun q rs => .next (runFrames fs b (withStreams q rs s)) := by
  have hsettle : ∀ (b : Block) (rest : List FrameWord) (s : State),
      AnswersAlike fun q rs => .next (settle b rest (withStreams q rs s)) := fun b rest s =>
    answersAlike_ite (b.todo = 0) (answersAlike_respond b.status b.data { s with frames := rest, inProgress := none })
      ⟨[], { s with frames := rest, inProgress := some b }, fun _ rs => by rw [List.append_nil]; rfl⟩
  induction fs generalizing b s with
  | nil => exact hsettle b [] s
  | cons f fs ih =>
    by_cases hb : b.todo = 0
    · simp only [runFrames_done _ b _ hb]
      exact hsettle b (f :: fs) s
    · have hstep : ∀ q rs, frameStep b f (withStreams q rs s) = ((frameStep b f s).1,
          withStreams q rs (withPorts [] s.inProgress s.frames [] (frameStep b f s).2)) := fun q rs =>
        frameStep_ports q s.inProgress s.frames rs b f s
      simp only [runFrames_cons f fs b _ hb, hstep]
      exact ih _ _

theorem answersAlike_startBlock (n : Nat) (v : Option Status) (s : State) :
    AnswersAlike fun q rs => .next (startBlock n v (withStreams q rs s)) :=
  answersAlike_runFrames s.frames ⟨n, 0, none, v⟩ s

theorem answersAlike_rejectWord (w : CommandWord) (s : State) :
    AnswersAlike fun q rs => .next (rejectWord w (withStreams q rs s)) :=
  answersAlike_ite (opcField w = 0x08#8) (answersAlike_startBlock (argField w).toNat (some (rejectStatus w s)) s)
    (answersAlike_respond (rejectStatus w s) 0#32 s)

/-- No command looks at the streams. -/
theorem answersAlike_exec (i : Instr) (s : State) : AnswersAlike fun q rs => exec i (withStreams q rs s) := by
  have hraise : AnswersAlike fun q rs => .next (raiseValidationError (withStreams q rs s)) :=
    answersAlike_respond .validationError 0#32 s
  have hok : ∀ t : State, AnswersAlike fun q rs => .next (respond .ok 0#32 (withStreams q rs t)) :=
    answersAlike_respond .ok 0#32
  cases i with
  | captureStart => exact answersAlike_unlessFaulted s (hok { s with capState := .recording s.size })
  | setSize a =>
    exact answersAlike_unlessFaulted s <| answersAlike_ite (¬ legalSize a) hraise <|
      answersAlike_ite (a = s.size) (hok s) <| answersAlike_ite (Config.nMax < a.toNat)
        (answersAlike_respond .resourceError 0#32 s) (hok (reallocate a s))
  | setMode k =>
    exact answersAlike_unlessFaulted s <|
      answersAlike_ite (legalMode k) (hok { s with mode := k.setWidth 2 }) hraise
  | setAttackMs v =>
    exact answersAlike_unlessFaulted s <|
      answersAlike_ite (legalTime v) (hok (recompute { s with attackMs := v })) hraise
  | setDecayMs v =>
    exact answersAlike_unlessFaulted s <|
      answersAlike_ite (legalTime v) (hok (recompute { s with decayMs := v })) hraise
  | setEnvEnable b =>
    exact answersAlike_unlessFaulted s <|
      answersAlike_ite (ArgKind.bool.wellFormed b) (hok { s with envEn := enableBit b }) hraise
  | setSampleRate r =>
    exact answersAlike_unlessFaulted s <|
      answersAlike_ite (legalTime r) (hok (recompute { s with sampleRate := r })) hraise
  | processBlock n => exact answersAlike_startBlock n.toNat (if s.fault = 0#2 then none else some .faulted) s
  | readReg r =>
    have hsame : ∀ q rs, registerValue r (withStreams q rs s) = registerValue r s := fun _ _ => rfl
    simp only [exec, execReadReg, hsame]
    cases registerValue r s with
    | none => exact hraise
    | some v => exact answersAlike_respond .ok v s
  | readTable x => exact answersAlike_unlessFaulted s (answersAlike_respond .ok (memRead x.toNat s) s)

/-- With no command in progress the device takes the next word and looks at nothing behind it (R58). -/
theorem answersAlike_deviceStep_word (w : CommandWord) (s : State) (hp : s.inProgress = none) :
    AnswersAlike fun q rs => deviceStep (withStreams (w :: q) rs s) := by
  have hp' : ∀ q rs, (withStreams (w :: q) rs s).inProgress = none := fun _ _ => hp
  cases hd : decode w with
  | ok i =>
    simp only [deviceStep_ok (hp' _ _) rfl hd]
    exact answersAlike_exec i s
  | error e =>
    simp only [deviceStep_error (hp' _ _) rfl hd]
    exact answersAlike_rejectWord w s

/-- A command in progress looks at no word of the queue (R82). -/
theorem answersAlike_deviceStep_inProgress (b : Block) (s : State) (hp : s.inProgress = some b) :
    AnswersAlike fun q rs => deviceStep (withStreams q rs s) := by
  have hstep : ∀ q rs, deviceStep (withStreams q rs s) = .next (runFrames s.frames b (withStreams q rs s)) := by
    intro q rs
    simp only [deviceStep, withStreams, hp]
  simp only [hstep]
  exact answersAlike_runFrames s.frames b s

end Sys2Proof.Machine

/-! Runs: words behind the ones that run (R58, R60, R264), and reads among them (R55). -/

namespace Sys2Proof.Machine

open Sys2Proof.Safety

/-! A transition over the front of the queue, whatever stands behind it. -/

/-- From s, f works on the front of the queue alone: it goes on to t, keeping some of it, whatever stands behind it. -/
def AdvancesTo (f : State → Host.Outcome State Fault Refusal) (front kept : List CommandWord)
    (added : List ResponseWord) (s t : State) : Prop :=
  ∀ q rs, f (withStreams (front ++ q) rs s) = .next (withStreams (kept ++ q) (rs ++ added) t)

/-- From s, f faults on the front of the queue, whatever stands behind it. -/
def FaultsOn (f : State → Host.Outcome State Fault Refusal) (front : List CommandWord) (s : State) (k : Fault) : Prop :=
  ∀ q rs, f (withStreams (front ++ q) rs s) = .fault k

/-- The device's transition looks at one word of the queue at most (R58). -/
theorem deviceStep_advances (w : CommandWord) (s : State) :
    ∃ kept added t, AdvancesTo deviceStep [w] kept added s t := by
  cases hp : s.inProgress with
  | none =>
    obtain ⟨added, t, h⟩ := answersAlike_deviceStep_word w s hp
    exact ⟨[], added, t, h⟩
  | some b =>
    obtain ⟨added, t, h⟩ := answersAlike_deviceStep_inProgress b s hp
    exact ⟨[w], added, t, fun q rs => h ([w] ++ q) rs⟩

/-- The step advances as the device does, or faults if a fault was raised; the streams have no part in it (R234). -/
theorem step_advances {front kept : List CommandWord} {added : List ResponseWord} {s t : State}
    (h : AdvancesTo deviceStep front kept added s t) :
    (raisedFault s t = none → AdvancesTo step front kept added s t) ∧
      (∀ k, raisedFault s t = some k → FaultsOn step front s k) :=
  ⟨fun hn q rs => (step_next_iff _ _).mpr ⟨h q rs, hn⟩, fun _ hk q rs => (step_fault_iff _ _).mpr ⟨_, h q rs, hk⟩⟩

/-- Both transitions, the device's and the machine's step, advance as the device does or fault. -/
theorem transition_advances {f : State → Host.Outcome State Fault Refusal} (hf : f = deviceStep ∨ f = step)
    {front kept : List CommandWord} {added : List ResponseWord} {s t : State}
    (h : AdvancesTo deviceStep front kept added s t) :
    AdvancesTo f front kept added s t ∨ ∃ k, FaultsOn f front s k := by
  rcases hf with rfl | rfl
  · exact .inl h
  · cases hk : raisedFault s t with
    | none => exact .inl ((step_advances h).1 hk)
    | some k => exact .inr ⟨k, (step_advances h).2 k hk⟩

/-- Where the FAULT bits stay, both transitions advance. -/
theorem transition_advances_of_same_fault {f : State → Host.Outcome State Fault Refusal}
    (hf : f = deviceStep ∨ f = step) {front kept : List CommandWord} {added : List ResponseWord} {s t : State}
    (h : AdvancesTo deviceStep front kept added s t) (hfault : t.fault = s.fault) :
    AdvancesTo f front kept added s t := by
  rcases hf with rfl | rfl
  · exact h
  · exact (step_advances h).1 (raisedFault_same s t hfault)

/-! Runs of the machine, and of the device past a fault. -/

theorem run_of_next (M : Host.Core) (n : Nat) {s t : M.State} (h : M.step s = .next t) : M.run (n + 1) s = M.run n t := by
  rw [Host.Core.run, h]

theorem run_of_fault (M : Host.Core) (n : Nat) {s : M.State} {k : M.Fault} (h : M.step s = .fault k) :
    M.run (n + 1) s = .fault k := by
  rw [Host.Core.run, h]

/-- n transitions of f: `Host.Core.run` of the machine whose step is f. -/
def runOf (f : State → Host.Outcome State Fault Refusal) (n : Nat) (s : State) : Host.Outcome State Fault Refusal :=
  Host.Core.run { Sys2Proof.core with step := f } n s

theorem runOf_core (n : Nat) (s : State) : Host.Core.run Sys2Proof.core n s = runOf step n s := rfl

theorem runOf_device (n : Nat) (s : State) : Host.Core.run device n s = runOf deviceStep n s := rfl

/-- A run goes on where its first transition has left it … -/
theorem runOf_of_advances {f : State → Host.Outcome State Fault Refusal} {w : CommandWord} {kept : List CommandWord}
    {added : List ResponseWord} {s t : State} (h : AdvancesTo f [w] kept added s t) (n : Nat) (q : List CommandWord)
    (rs : List ResponseWord) :
    runOf f (n + 1) (withStreams (w :: q) rs s) = runOf f n (withStreams (kept ++ q) (rs ++ added) t) := by
  have hnext : f (withStreams (w :: q) rs s) = .next (withStreams (kept ++ q) (rs ++ added) t) := h q rs
  exact run_of_next _ n hnext

/-- … and ends at a fault. -/
theorem runOf_of_faults {f : State → Host.Outcome State Fault Refusal} {w : CommandWord} {s : State} {k : Fault}
    (h : FaultsOn f [w] s k) (n : Nat) (q : List CommandWord) (rs : List ResponseWord) :
    runOf f (n + 1) (withStreams (w :: q) rs s) = .fault k := by
  have hfault : f (withStreams (w :: q) rs s) = .fault k := h q rs
  exact run_of_fault _ n hfault

/-- A run of no more transitions than the front has words stays within the front. -/
theorem runOf_advances {f : State → Host.Outcome State Fault Refusal} (hf : f = deviceStep ∨ f = step) (n : Nat)
    (ws : List CommandWord) (s : State) (hn : n ≤ ws.length) :
    (∃ kept added t, AdvancesTo (runOf f n) ws kept added s t) ∨ ∃ k, FaultsOn (runOf f n) ws s k := by
  induction n generalizing ws s with
  | zero => exact .inl ⟨ws, [], s, fun _ rs => by rw [List.append_nil]; rfl⟩
  | succ n ih =>
    cases ws with
    | nil => simp at hn
    | cons w ws =>
      obtain ⟨kept, added, t, hdevice⟩ := deviceStep_advances w s
      rcases transition_advances hf hdevice with hnext | ⟨k, hfault⟩
      · have hsucc : ∀ q rs, runOf f (n + 1) (withStreams (w :: ws ++ q) rs s) =
            runOf f n (withStreams (kept ++ ws ++ q) (rs ++ added) t) := fun q rs => by
          rw [List.cons_append, runOf_of_advances hnext, List.append_assoc]
        have hlen : n ≤ (kept ++ ws).length := by
          simp only [List.length_append, List.length_cons] at hn ⊢
          omega
        rcases ih (kept ++ ws) t hlen with ⟨kept', added', u, hrun⟩ | ⟨k, hrun⟩
        · exact .inl ⟨kept', added ++ added', u, fun q rs => by rw [hsucc, hrun, List.append_assoc]⟩
        · exact .inr ⟨k, fun q rs => by rw [hsucc, hrun]⟩
      · exact .inr ⟨k, fun q rs => runOf_of_faults hfault n (ws ++ q) rs⟩

/-- A run over ws ends as it ends, whatever stands behind ws. -/
theorem runOf_ignores_later {f : State → Host.Outcome State Fault Refusal} (hf : f = deviceStep ∨ f = step) (n : Nat)
    (ws rest : List CommandWord) (s : State) (hn : n ≤ ws.length) :
    (∀ t, runOf f n { s with queue := ws } = .next t →
      runOf f n { s with queue := ws ++ rest } = .next { t with queue := t.queue ++ rest }) ∧
    (∀ k, runOf f n { s with queue := ws } = .fault k → runOf f n { s with queue := ws ++ rest } = .fault k) := by
  have halone : { s with queue := ws } = withStreams (ws ++ []) s.responses s := by rw [List.append_nil]; rfl
  have hbehind : { s with queue := ws ++ rest } = withStreams (ws ++ rest) s.responses s := rfl
  rw [halone, hbehind]
  rcases runOf_advances hf n ws s hn with ⟨kept, added, u, hrun⟩ | ⟨k, hrun⟩ <;> rw [hrun, hrun]
  · refine ⟨fun t ht => ?_, fun k hk => nomatch hk⟩
    cases ht
    rw [List.append_nil]
    rfl
  · exact ⟨fun t ht => (nomatch ht), fun k' hk => hk⟩

/-- Settles O8: a run over ws stays within ws, at the machine's step and at the device's. -/
theorem laterCommandsDoNotAffectEarlierOnes : Obligations.LaterCommandsDoNotAffectEarlierOnes := by
  unfold Obligations.LaterCommandsDoNotAffectEarlierOnes
  intro n ws rest s hn
  simp only [runOf_core, runOf_device]
  obtain ⟨hnext, hfault⟩ := runOf_ignores_later (.inr rfl) n ws rest s hn
  exact ⟨hnext, hfault, (runOf_ignores_later (.inl rfl) n ws rest s hn).1⟩

/-! Reads (R106, R203): they answer, and that is all they do. -/

/-- A register or table read. -/
def IsRead (w : CommandWord) : Prop := ∃ x, decode w = .ok (.readReg x) ∨ decode w = .ok (.readTable x)

theorem exec_readReg_responds (x : U32) (s : State) :
    ∃ c v, ∀ q rs, exec (.readReg x) (withStreams q rs s) = .next (respond c v (withStreams q rs s)) := by
  have hsame : ∀ q rs, registerValue x (withStreams q rs s) = registerValue x s := fun _ _ => rfl
  simp only [exec, execReadReg, hsame]
  cases registerValue x s with
  | none => exact ⟨.validationError, 0#32, fun _ _ => rfl⟩
  | some v => exact ⟨.ok, v, fun _ _ => rfl⟩

theorem exec_readTable_responds (x : U32) (s : State) :
    ∃ c v, ∀ q rs, exec (.readTable x) (withStreams q rs s) = .next (respond c v (withStreams q rs s)) := by
  by_cases hf : s.fault = 0#2
  · exact ⟨.ok, memRead x.toNat s, fun _ _ => unlessFaulted_ok _ _ hf⟩
  · exact ⟨.faulted, 0#32, fun _ _ => unlessFaulted_faulted _ _ hf⟩

/-- A read leaves the device in the state it was in, but for its response. -/
theorem deviceStep_read (w : CommandWord) (s : State) (hr : IsRead w) (hp : s.inProgress = none) :
    ∃ added, AdvancesTo deviceStep [w] [] added s s := by
  obtain ⟨x, hd | hd⟩ := hr
  · obtain ⟨c, v, h⟩ := exec_readReg_responds x s
    exact ⟨[responseWord c v], fun q rs => (deviceStep_ok (s := withStreams (w :: q) rs s) hp rfl hd).trans (h q rs)⟩
  · obtain ⟨c, v, h⟩ := exec_readTable_responds x s
    exact ⟨[responseWord c v], fun q rs => (deviceStep_ok (s := withStreams (w :: q) rs s) hp rfl hd).trans (h q rs)⟩

/-! The frames a word takes (R87). -/

/-- How many frames a word takes: ARG of them for OPC 0x08, accepted or not. -/
def framesOf (w : CommandWord) : Nat := if opcField w = 0x08#8 then (argField w).toNat else 0

/-- With its frames at hand a command of opcode 0x08 ends, and takes those frames alone (R82). -/
theorem startBlock_enough (n : Nat) (v : Option Status) (s : State) (hn : n ≤ s.frames.length) :
    (startBlock n v s).inProgress = none ∧ (startBlock n v s).frames = s.frames.drop n := by
  have htodo : (frameSteps (s.frames.take n) ⟨n, 0, none, v⟩ s).1.todo = 0 := by
    simp only [frameSteps_todo, List.length_take]
    omega
  rw [startBlock, runFrames_enough _ _ _ hn, settle, if_pos htodo]
  exact ⟨rfl, rfl⟩

/-- No command that writes registers takes frames. -/
theorem writesRegisters_frames {i : Instr} {s t : State} (hw : WritesRegisters i s t) :
    t.inProgress = s.inProgress ∧ t.frames = s.frames := by
  rcases hw with ⟨-, rfl⟩ | ⟨a, -, -, -, -, rfl⟩ | ⟨k, -, -, rfl⟩ | ⟨v, -, -, rfl⟩ | ⟨v, -, -, rfl⟩ |
    ⟨v, -, -, rfl⟩ | ⟨b, -, -, rfl⟩ <;> exact ⟨rfl, rfl⟩

/-- With its frames at hand a word runs to its end and leaves every frame but its own. -/
theorem deviceStep_word_frames {w : CommandWord} {ws : List CommandWord} {s t : State} (hp : s.inProgress = none)
    (hq : s.queue = w :: ws) (hn : framesOf w ≤ s.frames.length) (h : deviceStep s = .next t) :
    t.inProgress = none ∧ s.frames.length ≤ t.frames.length + framesOf w := by
  have hblock : ∀ n v, opcField w = 0x08#8 → argField w = n →
      t = startBlock n.toNat v { s with queue := ws } →
      t.inProgress = none ∧ s.frames.length ≤ t.frames.length + framesOf w := by
    rintro n v ho rfl rfl
    rw [framesOf, if_pos ho] at hn ⊢
    obtain ⟨hidle, hframes⟩ := startBlock_enough (argField w).toNat v { s with queue := ws } hn
    refine ⟨hidle, ?_⟩
    rw [hframes, List.length_drop]
    simp only
    omega
  cases hd : decode w with
  | ok i =>
    rw [deviceStep_ok hp hq hd] at h
    rcases exec_cases i _ t h with ⟨c, v, -, rfl⟩ | ⟨-, u, hu, rfl⟩ | ⟨n, rfl, ht⟩
    · exact ⟨hp, Nat.le_add_right _ _⟩
    · obtain ⟨hin, hframes⟩ := writesRegisters_frames hu
      rw [respond_inProgress, respond_frames, hin, hframes]
      exact ⟨hp, Nat.le_add_right _ _⟩
    · obtain ⟨ho, -, ha, -⟩ := decode_ok w _ hd
      exact hblock n _ ho ha ht
  | error e =>
    rw [deviceStep_error hp hq hd, Host.Outcome.next.injEq, rejectWord] at h
    split at h
    · rename_i ho
      exact hblock _ _ ho rfl h.symm
    · subst h
      exact ⟨hp, Nat.le_add_right _ _⟩

/-- With its frames at hand a word leaves the queue, and only frames and responses tell what came before it. -/
theorem deviceStep_word (w : CommandWord) (s : State) (hp : s.inProgress = none) (hn : framesOf w ≤ s.frames.length) :
    ∃ added t, AdvancesTo deviceStep [w] [] added s t ∧ t.inProgress = none ∧
      s.frames.length ≤ t.frames.length + framesOf w := by
  obtain ⟨added, t, h⟩ := answersAlike_deviceStep_word w s hp
  exact ⟨added, t, h, deviceStep_word_frames (s := withStreams [w] [] s) (t := withStreams [] added t) hp rfl hn
    (h [] [])⟩

/-! Interleavings (R60). -/

/-- Where o ends in a state o' ends in the same but for the responses, and where it ends in a fault, in that fault. -/
def SameButResponses (o o' : Host.Outcome State Fault Refusal) : Prop :=
  (∀ u, o = .next u → ∃ r, o' = .next { u with responses := r }) ∧ (∀ k, o = .fault k → o' = .fault k)

/-- A word of the one path runs alike in both runs; a read runs in the second alone and leaves it where it was. -/
theorem runOf_interleaving {f : State → Host.Outcome State Fault Refusal} (hf : f = deviceStep ∨ f = step)
    {ws reads q : List CommandWord} (hi : Interleaving ws reads q) (hreads : ∀ w ∈ reads, IsRead w)
    (s : State) (rs rs' : List ResponseWord) (hp : s.inProgress = none)
    (hn : (ws.map framesOf).sum ≤ s.frames.length) :
    SameButResponses (runOf f ws.length (withStreams ws rs s)) (runOf f q.length (withStreams q rs' s)) := by
  induction hi generalizing s rs rs' with
  | nil => exact ⟨fun u hu => ⟨rs', by cases hu; rfl⟩, fun k hk => nomatch hk⟩
  | @audio w ws reads q _ ih =>
    simp only [List.map_cons, List.sum_cons] at hn
    obtain ⟨added, t, hdevice, hidle, hframes⟩ := deviceStep_word w s hp (by omega)
    simp only [List.length_cons]
    rcases transition_advances hf hdevice with hnext | ⟨k, hfault⟩
    · rw [runOf_of_advances hnext, runOf_of_advances hnext]
      exact ih hreads t _ _ hidle (by omega)
    · rw [runOf_of_faults hfault, runOf_of_faults hfault]
      exact ⟨fun u hu => (nomatch hu), fun k' hk => hk⟩
  | @control w ws reads q _ ih =>
    obtain ⟨hr, hrest⟩ := List.forall_mem_cons.mp hreads
    obtain ⟨added, hdevice⟩ := deviceStep_read w s hr hp
    have hnext := transition_advances_of_same_fault hf hdevice rfl
    rw [List.length_cons, runOf_of_advances hnext]
    exact ih hrest s _ _ hp hn

/-- Settles O9, by induction on the interleaving, at the machine's step and at the device's. -/
theorem interleavedReadsDisturbNothing : Obligations.InterleavedReadsDisturbNothing := by
  unfold Obligations.InterleavedReadsDisturbNothing
  intro ws reads q s hi hp hn hreads
  simp only [runOf_core, runOf_device]
  obtain ⟨hnext, hfault⟩ := runOf_interleaving (.inr rfl) hi hreads s s.responses s.responses hp hn
  exact ⟨hnext, hfault, (runOf_interleaving (.inl rfl) hi hreads s s.responses s.responses hp hn).1⟩

end Sys2Proof.Machine

/-! A block and its two parts (R59, R200 to R202, R205). -/

namespace Sys2Proof.Machine

/-! The slots of two parts. -/

/-- A block of n slots before its first. -/
def newBlock (n : Nat) : Block := ⟨n, 0, none, none⟩

/-- A capture completes at one of the block's own slots (R202). -/
theorem frameSteps_done_lt {fs : List FrameWord} {n j : Nat} {s t : State} {b : Block}
    (hslots : frameSteps fs (newBlock n) s = (b, t)) (hj : b.done = some j) : j < fs.length := by
  obtain ⟨e, he⟩ := frameSteps_done fs s none
  obtain ⟨hdone, hlt, -, -⟩ := he (newBlock n) rfl
  rw [hslots, hj] at hdone
  cases e with
  | none => cases hdone
  | some i =>
    obtain rfl : j = 0 + i := Option.some.inj hdone
    rw [Nat.zero_add]
    exact (hlt i rfl).1

/-- The slots of a block are those of its first part and then of its second; the capture that completes in it completes in
one of them, slot numbers of the second counted from the end of the first (R201, R202). -/
theorem frameSteps_parts {fs gs : List FrameWord} {n m k : Nat} {s t₁ t₂ t : State} {b₁ b₂ b : Block}
    (hfirst : frameSteps fs (newBlock n) s = (b₁, t₁)) (hnone : b₁.verdict = none)
    (hsecond : frameSteps gs (newBlock m) t₁ = (b₂, t₂)) (hwhole : frameSteps (fs ++ gs) (newBlock k) s = (b, t)) :
    t = t₂ ∧ b.verdict = b₂.verdict ∧ b.done = b₁.done.or (b₂.done.map (fs.length + ·)) := by
  obtain ⟨hverdict, hstate⟩ := frameSteps_verdict fs (newBlock k) (newBlock n) s rfl
  rw [hfirst] at hverdict hstate
  have hnone' : (frameSteps fs (newBlock k) s).1.verdict = none := hverdict.trans hnone
  rw [frameSteps_append, hstate] at hwhole
  obtain ⟨hverdict', hstate'⟩ := frameSteps_verdict gs _ (newBlock m) t₁ hnone'
  rw [hwhole, hsecond] at hverdict' hstate'
  refine ⟨hstate', hverdict', ?_⟩
  obtain ⟨e, he⟩ := frameSteps_done fs s none
  obtain ⟨hdone₁, hcompleted, -, -⟩ := he (newBlock n) rfl
  obtain ⟨hdone, -, -, hslot⟩ := he (newBlock k) rfl
  obtain ⟨e', he'⟩ := frameSteps_done gs t₁ none
  obtain ⟨hdone₂, -, hidle, -⟩ := he' (newBlock m) rfl
  obtain ⟨hdone', -⟩ := he' _ hnone'
  rw [hfirst] at hdone₁ hcompleted
  rw [hsecond] at hdone₂
  rw [hwhole, hdone, hslot hnone'] at hdone'
  rw [hdone', hdone₁, hdone₂]
  cases e with
  | some j =>
    rw [(hidle (hcompleted j rfl).2).1]
    rfl
  | none => cases e' <;> simp [newBlock]

/-- The slots of a block do the same where the ports hold something else. -/
theorem frameSteps_of_withPorts {q : List CommandWord} {p : Option Block} {fs : List FrameWord} {rs : List ResponseWord}
    {gs : List FrameWord} {b b' : Block} {s t : State} (h : frameSteps gs b (withPorts q p fs rs s) = (b', t)) :
    ∃ t', frameSteps gs b s = (b', t') ∧ t = withPorts q p fs rs t' := by
  rw [frameSteps_ports, Prod.mk.injEq] at h
  obtain ⟨rfl, rfl⟩ := h
  exact ⟨_, rfl, rfl⟩

/-- No slot ends a block with another status than FAULTED (R205). -/
theorem frameSteps_verdict_faulted (fs : List FrameWord) (b : Block) (s : State)
    (hb : b.verdict = none ∨ b.verdict = some .faulted) :
    (frameSteps fs b s).1.verdict = none ∨ (frameSteps fs b s).1.verdict = some .faulted := by
  induction fs generalizing b s with
  | nil => exact hb
  | cons f fs ih =>
    refine ih _ _ ?_
    rcases hb with hb | hb
    · simp only [frameStep, hb]
      cases (slot f s).2 with
      | quiet => exact .inl hb
      | captureDone => exact .inl hb
      | faulted => exact .inr rfl
    · simp only [frameStep, hb]
      exact .inr trivial

/-! The response. -/

/-- The capture-done field of a slot is not 0, which stands for no completion (R202). -/
theorem doneField_some_ne_zero (j : Nat) (h : j + 1 < 2 ^ 32) : doneField (some j) ≠ 0#32 := by
  intro h0
  have := congrArg BitVec.toNat h0
  simp only [doneField, BitVec.toNat_ofNat] at this
  omega

/-- The capture-done field of a block from those of its parts, the first of n slots (R202). -/
theorem doneField_parts (n : U32) (d d' : Option Nat) (hd : ∀ j, d = some j → j < n.toNat)
    (hd' : ∀ j, d' = some j → j + 1 < 2 ^ 32) :
    doneField (d.or (d'.map (n.toNat + ·))) =
      if doneField d ≠ 0#32 then doneField d else if doneField d' ≠ 0#32 then n + doneField d' else 0#32 := by
  have hn := n.isLt
  cases d with
  | some j =>
    have hj := hd j rfl
    rw [if_pos (doneField_some_ne_zero j (by omega))]
    rfl
  | none =>
    rw [if_neg (fun h => h rfl)]
    cases d' with
    | some j =>
      rw [if_pos (doneField_some_ne_zero j (hd' j rfl))]
      apply BitVec.eq_of_toNat_eq
      simp [doneField]
      omega
    | none => rfl

theorem responseWord_data (c : Status) (v : U32) : (responseWord c v).extractLsb' 0 32 = v := by
  obtain ⟨-, -, h⟩ := responseWord_fields c v
  exact h

/-- A block that faulted answers FAULTED (R205). -/
theorem response_of_faulted (b : Block) (h : b.verdict = some .faulted) :
    responseWord b.status b.data = 0x0300000000000000#64 := by
  simp only [Block.status, Block.data, h]
  rfl

/-- A block that ended by itself answers OK with the capture-done field (R200, R202). -/
theorem response_of_ok (b : Block) (h : b.verdict = none) :
    responseWord b.status b.data = 0#32 ++ doneField b.done := by
  simp only [Block.status, Block.data, h]
  rfl

/-- The answer of a block from the answers of its parts, the first of n slots and ended by itself (R202, R205). -/
theorem response_parts (n : U32) (b first second : Block) (hfirst : first.verdict = none)
    (hverdict : b.verdict = second.verdict) (hstatus : b.verdict = none ∨ b.verdict = some .faulted)
    (hdone : b.done = first.done.or (second.done.map (n.toNat + ·)))
    (hd : ∀ j, first.done = some j → j < n.toNat) (hd' : ∀ j, second.done = some j → j + 1 < 2 ^ 32) :
    responseWord b.status b.data =
      if second.verdict ≠ none then 0x0300000000000000#64
      else if first.data ≠ 0#32 then (0#32 ++ first.data : BitVec 64)
      else if second.data ≠ 0#32 then (0#32 ++ (n + second.data) : BitVec 64)
      else 0#64 := by
  rcases hstatus with hb | hb <;> have hb₂ := hverdict.symm.trans hb
  · have hdata : first.data = doneField first.done := by simp only [Block.data, hfirst]
    have hdata₂ : second.data = doneField second.done := by simp only [Block.data, hb₂]
    rw [response_of_ok b hb, hdone, doneField_parts n _ _ hd hd', if_neg (not_not.mpr hb₂), hdata, hdata₂]
    split
    · rfl
    · split <;> rfl
  · rw [response_of_faulted b hb, if_pos (by rw [hb₂]; exact Option.some_ne_none _)]

/-! PROCESS_BLOCK on a device without a fault. -/

/-- With all its frames at hand the block runs its slots and answers (R200). -/
theorem execProcessBlock_unfaulted (n : U32) (s : State) (hf : s.fault = 0#2) (hn : n.toNat ≤ s.frames.length) :
    ∃ b t, frameSteps (s.frames.take n.toNat) (newBlock n.toNat) s = (b, t) ∧
      (b.verdict = none ↔ t.fault = 0#2) ∧ (b.verdict = none ∨ b.verdict = some .faulted) ∧
      execProcessBlock n s =
        .next (withPorts s.queue none (s.frames.drop n.toNat) (s.responses ++ [responseWord b.status b.data]) t) := by
  obtain ⟨b, t, hslots, hexec⟩ := execProcessBlock_enough n s hn
  rw [if_pos hf] at hslots
  have hfault := frameSteps_fault (s.frames.take n.toNat) (newBlock n.toNat) s (iff_of_true rfl hf)
  have hstatus := frameSteps_verdict_faulted (s.frames.take n.toNat) (newBlock n.toNat) s (.inl rfl)
  obtain ⟨hq, hr⟩ := frameSteps_keeps_ports (s.frames.take n.toNat) (newBlock n.toNat) s
  rw [show frameSteps _ (newBlock n.toNat) s = (b, t) from hslots] at hfault hstatus hq hr
  refine ⟨b, t, hslots, hfault, hstatus, ?_⟩
  rw [hexec, ← hq, ← hr]
  rfl

/-- No block clears a FAULT bit (R36). -/
theorem fault_of_execProcessBlock (n : U32) (s t : State) (h : execProcessBlock n s = .next t) (ht : t.fault = 0#2) :
    s.fault = 0#2 := by
  by_contra hf
  cases h
  refine startBlock_keeps (fun u => u.fault ≠ 0#2) ?_ (fun _ _ _ _ _ hu => hu) _ _ s hf ht
  intro f u hu h0
  have hkeeps := (slot_keeps_fault f u).1
  rw [h0, BitVec.and_zero] at hkeeps
  exact hu hkeeps.symm

/-- Settles O34: the whole's slots are the parts' slots, and its status and capture-done field follow from theirs. -/
theorem splittingABlockChangesNothing : Obligations.SplittingABlockChangesNothing := by
  unfold Obligations.SplittingABlockChangesNothing
  intro n m s t u hlt hframes hfirst hft hsecond
  change execProcessBlock n s = _ at hfirst
  change execProcessBlock m t = _ at hsecond
  have hnm : (n + m).toNat = n.toNat + m.toNat := by rw [BitVec.toNat_add]; omega
  have hfs := fault_of_execProcessBlock n s t hfirst hft
  obtain ⟨b₁, t₁, hslots₁, hverdict₁, -, hexec₁⟩ := execProcessBlock_unfaulted n s hfs (by omega)
  obtain rfl := Host.Outcome.next.inj (hexec₁.symm.trans hfirst)
  obtain ⟨b₂, t₂, hslots₂, hverdict₂, -, hexec₂⟩ := execProcessBlock_unfaulted m _ hft
    (show m.toNat ≤ (s.frames.drop n.toNat).length by rw [List.length_drop]; omega)
  obtain rfl := Host.Outcome.next.inj (hexec₂.symm.trans hsecond)
  obtain ⟨b, v, hslots, -, hstatus, hexec⟩ := execProcessBlock_unfaulted (n + m) s hfs (by omega)
  rw [hnm, List.take_add] at hslots
  have hlen : (s.frames.take n.toNat).length = n.toNat := by rw [List.length_take]; omega
  obtain ⟨t₂', hslots₂', rfl⟩ := frameSteps_of_withPorts hslots₂
  obtain ⟨rfl, hstatus₂, hdone⟩ := frameSteps_parts hslots₁ (hverdict₁.mpr hft) hslots₂' hslots
  rw [hlen] at hdone
  have hresponse := response_parts n b b₁ b₂ (hverdict₁.mpr hft) hstatus₂ hstatus hdone
    (fun j hj => hlen ▸ frameSteps_done_lt hslots₁ hj)
    (fun j hj => by
      have hlt₂ := frameSteps_done_lt hslots₂' hj
      rw [List.length_take] at hlt₂
      omega)
  refine ⟨_, _, rfl, rfl, ?_⟩
  change execProcessBlock (n + m) s = _
  rw [hexec, hresponse]
  simp only [responseWord_data, hnm, ← List.drop_drop, ne_eq, hverdict₂]
  rfl

end Sys2Proof.Machine

/-! The encoding family (30_encoding.md): the words that are commands, and what is said of those that are not. -/

namespace Sys2Proof

/-! Round trips (R70 to R79). -/

/-- The opcode map finds a command's own row by its opcode (R76). -/
theorem find_opcodeMap (i : Instr) :
    ∃ row, opcodeMap.find? (fun row => row.opc == i.opcode) = some row ∧ row.kind = i.kind ∧ row.build i.arg = i := by
  cases i <;> exact ⟨_, rfl, rfl, rfl⟩

/-- A word that passes checks 2 to 4 of the decode order is its row's command (R79). -/
theorem decode_of_find {w : CommandWord} {row : OpRow}
    (hfind : opcodeMap.find? (fun row => row.opc == opcField w) = some row) (hrsv : rsvField w = 0#24)
    (hwf : row.kind.wellFormed (argField w) = true) : decode w = .ok (row.build (argField w)) := by
  simp only [decode, hfind, hrsv, hwf, ne_eq, not_true_eq_false, if_false, if_true]

/-- The word of a well-formed command gives the command back. -/
theorem decode_encode (i : Instr) (h : i.wellFormed = true) : decode (encode i) = .ok i := by
  obtain ⟨hopc, hrsv, harg⟩ := fields_encode i
  obtain ⟨row, hrow, hkind, hbuild⟩ := find_opcodeMap i
  rw [decode_of_find (hopc ▸ hrow) hrsv (by rw [hkind, harg]; exact h), harg, hbuild]

/-- Settles O2: eight bytes taken, they are the word's, and the word decodes to its command. -/
theorem decodeOfEncodedBytes : Obligations.DecodeOfEncodedBytes := by
  unfold Obligations.DecodeOfEncodedBytes
  intro i rest h
  obtain ⟨htake, hdrop, hword⟩ := wordOfBytes_bytesOfWord (encode i) rest
  have hlen : ¬ (bytesOfWord 8 (encode i) ++ rest).length < 8 := by simp [bytesOfWord]
  simp only [decodeBytes, if_neg hlen, htake, hdrop, hword, decode_encode i h]

/-- A word that decodes is its command's word: its fields are the command's, and RSV is 0 in both. -/
theorem encode_of_decode {w : CommandWord} {i : Instr} (h : decode w = .ok i) : encode i = w := by
  obtain ⟨hopc, hrsv, harg, -⟩ := decode_ok w i h
  rw [word_fields w, hopc, hrsv, harg, encode]

/-- Settles O3: the checks a word has passed are those of its command. -/
theorem encodeOfDecodedWord : Obligations.EncodeOfDecodedWord := by
  unfold Obligations.EncodeOfDecodedWord
  intro w i h
  obtain ⟨-, -, -, hwf⟩ := decode_ok w i h
  exact ⟨encode_of_decode h, hwf⟩

/-- Settles O1: each word is the encoding of the command it is said to decode to. -/
theorem specExampleWordsDecode : Obligations.SpecExampleWordsDecode :=
  ⟨decode_encode .captureStart rfl, decode_encode (.setSize 1024#32) rfl, decode_encode (.setMode 2#32) rfl,
    decode_encode (.setAttackMs 0x41200000#32) rfl, decode_encode (.setDecayMs 0x40000000#32) rfl,
    decode_encode (.setEnvEnable 1#32) rfl, decode_encode (.setSampleRate 0x447A0000#32) rfl,
    decode_encode (.processBlock 8#32) rfl, decode_encode (.readReg 0x0A#32) rfl, decode_encode (.readTable 6#32) rfl⟩

/-! The match and mask pairs (R76). -/

/-- Two words made of two parts each are equal part by part. -/
theorem append_eq_append_iff {m n : Nat} (x x' : BitVec m) (y y' : BitVec n) :
    x ++ y = x' ++ y' ↔ x = x' ∧ y = y' := by
  constructor
  · intro h
    have hleft := congrArg (BitVec.extractLsb' n m) h
    have hright := congrArg (BitVec.extractLsb' 0 n) h
    rw [BitVec.extractLsb'_append_eq_left, BitVec.extractLsb'_append_eq_left] at hleft
    rw [BitVec.extractLsb'_append_eq_right, BitVec.extractLsb'_append_eq_right] at hright
    exact ⟨hleft, hright⟩
  · rintro ⟨rfl, rfl⟩
    rfl

/-- The ARG bits that a kind requires to be 0 (R72 to R75). -/
def ArgKind.zeroBits : ArgKind → U32
  | .none => 0xFFFFFFFF#32
  | .u32 => 0#32
  | .f32 => 0#32
  | .bool => 0xFFFFFFFE#32

/-- An argument is well formed when the bits its kind requires to be 0 are 0. -/
theorem wellFormed_iff_zeroBits (k : ArgKind) (a : U32) : k.wellFormed a = true ↔ a &&& k.zeroBits = 0#32 := by
  cases k with
  | none =>
    have hones : a &&& 0xFFFFFFFF#32 = a := BitVec.and_allOnes
    simp only [ArgKind.wellFormed, ArgKind.zeroBits, hones, beq_iff_eq]
  | u32 => simp [ArgKind.wellFormed, ArgKind.zeroBits]
  | f32 => simp [ArgKind.wellFormed, ArgKind.zeroBits]
  | bool =>
    have hmasked : a &&& 0xFFFFFFFE#32 = a.extractLsb' 1 31 ++ 0#1 :=
      calc a &&& 0xFFFFFFFE#32 = (a.extractLsb' 1 31 ++ a.extractLsb' 0 1) &&& (BitVec.allOnes 31 ++ 0#1) := by
            have hparts : a.extractLsb' 1 31 ++ a.extractLsb' 0 1 = a.extractLsb' 0 32 :=
              BitVec.extractLsb'_append_extractLsb'_eq_extractLsb' rfl
            rw [hparts, BitVec.extractLsb'_eq_self]
            rfl
        _ = a.extractLsb' 1 31 ++ 0#1 := by rw [BitVec.and_append, BitVec.and_allOnes, BitVec.and_zero]
    have hzero : (0#32 : U32) = 0#31 ++ 0#1 := rfl
    rw [ArgKind.zeroBits, hmasked, hzero, BitVec.append_left_inj, ArgKind.wellFormed, beq_iff_eq]

/-- The bits of a word that a row of the opcode map fixes: OPC, RSV, and what its kind requires of ARG (R76). -/
def OpRow.mask (row : OpRow) : CommandWord := 0xFF#8 ++ 0xFFFFFF#24 ++ row.kind.zeroBits

/-- The values a row fixes them to. -/
def OpRow.pattern (row : OpRow) : CommandWord := row.opc ++ 0#24 ++ 0#32

/-- A word matches a row when it passes checks 2 to 4 of the decode order for it (R79). -/
theorem matches_row_iff (row : OpRow) (w : CommandWord) :
    w &&& row.mask = row.pattern ↔
      opcField w = row.opc ∧ rsvField w = 0#24 ∧ row.kind.wellFormed (argField w) = true := by
  have hmasked : w &&& row.mask = opcField w ++ rsvField w ++ (argField w &&& row.kind.zeroBits) :=
    calc w &&& row.mask = (opcField w ++ rsvField w ++ argField w) &&& row.mask := by rw [← word_fields w]
      _ = (opcField w &&& BitVec.allOnes 8) ++ (rsvField w &&& BitVec.allOnes 24) ++
            (argField w &&& row.kind.zeroBits) := by
          rw [← BitVec.and_append, ← BitVec.and_append]
          rfl
      _ = _ := by rw [BitVec.and_allOnes, BitVec.and_allOnes]
  rw [hmasked, OpRow.pattern, append_eq_append_iff, append_eq_append_iff, and_assoc, wellFormed_iff_zeroBits]

/-- No two rows of the opcode map share an opcode: a row is the one found by its own (R76). -/
theorem find_of_mem_opcodeMap {row : OpRow} (h : row ∈ opcodeMap) :
    opcodeMap.find? (fun r => r.opc == row.opc) = some row := by
  fin_cases h <;> rfl

/-- A word is a command exactly when it matches a row of the opcode map. -/
theorem decodes_iff_matches_row (w : CommandWord) :
    (∃ i, decode w = .ok i) ↔ ∃ row ∈ opcodeMap, w &&& row.mask = row.pattern := by
  simp only [matches_row_iff]
  constructor
  · rintro ⟨i, h⟩
    obtain ⟨hopc, hrsv, harg, hwf⟩ := decode_ok w i h
    obtain ⟨row, hrow, hkind, -⟩ := find_opcodeMap i
    have hfound : row.opc = i.opcode := by simpa using List.find?_some hrow
    exact ⟨row, List.mem_of_find?_eq_some hrow, hopc.trans hfound.symm, hrsv, by rw [hkind, harg]; exact hwf⟩
  · rintro ⟨row, hrow, hopc, hrsv, hwf⟩
    exact ⟨_, decode_of_find (hopc ▸ find_of_mem_opcodeMap hrow) hrsv hwf⟩

/-- The rows' masks and patterns as numbers. -/
theorem pairs_of_opcodeMap :
    opcodeMap.map (fun row => (row.mask, row.pattern)) =
      [(0xFFFFFFFFFFFFFFFF#64, 0x0100000000000000#64), (0xFFFFFFFF00000000#64, 0x0200000000000000#64),
       (0xFFFFFFFF00000000#64, 0x0300000000000000#64), (0xFFFFFFFF00000000#64, 0x0400000000000000#64),
       (0xFFFFFFFF00000000#64, 0x0500000000000000#64), (0xFFFFFFFFFFFFFFFE#64, 0x0600000000000000#64),
       (0xFFFFFFFF00000000#64, 0x0700000000000000#64), (0xFFFFFFFF00000000#64, 0x0800000000000000#64),
       (0xFFFFFFFF00000000#64, 0x0900000000000000#64), (0xFFFFFFFF00000000#64, 0x0A00000000000000#64)] := by
  decide

/-- Settles O4: a command matches a row of the opcode map, and the rows' masks and patterns are the table's. -/
theorem decodedWordsAreTheOpcodeTable : Obligations.DecodedWordsAreTheOpcodeTable := by
  unfold Obligations.DecodedWordsAreTheOpcodeTable
  intro w
  have hpairs : (∃ row ∈ opcodeMap, w &&& row.mask = row.pattern) ↔
      ∃ p ∈ opcodeMap.map (fun row => (row.mask, row.pattern)), w &&& p.1 = p.2 := by
    simp only [List.mem_map, exists_exists_and_eq_and]
  rw [decodes_iff_matches_row, hpairs, pairs_of_opcodeMap]
  simp only [List.mem_cons, List.not_mem_nil, or_false, exists_eq_or_imp, exists_eq_left, BitVec.reduceHShiftLeft]
  tauto

end Sys2Proof

/-! What an invalid word does (R77, R78, R204), and SET_ENV_ENABLE's argument (R75, R145). -/

namespace Sys2Proof.Machine

/-- A BOOL argument is well formed exactly when it is 0 or 1 (R75). -/
theorem bool_wellFormed_iff (b : U32) : ArgKind.bool.wellFormed b = true ↔ b.toNat < 2 := by
  have hb := b.isLt
  rw [ArgKind.wellFormed, beq_iff_eq, ← BitVec.toNat_inj, BitVec.extractLsb'_toNat, Nat.shiftRight_eq_div_pow,
    BitVec.toNat_ofNat]
  omega

/-- Settles O25, case by case of the argument: 0 and 1 are the BOOLs, and no other is one. -/
theorem setEnvEnableWritesTheFlag : Obligations.SetEnvEnableWritesTheFlag := by
  unfold Obligations.SetEnvEnableWritesTheFlag
  intro b s hf
  simp only [exec, execSetEnvEnable, unlessFaulted_ok s _ hf, bool_wellFormed_iff]
  refine ⟨?_, ?_, fun hb => ?_⟩
  · rintro rfl
    rfl
  · rintro rfl
    rfl
  · rw [if_neg (by omega)]
    rfl

/-! Invalid words. -/

/-- The opcodes of the commands are 0x01 to 0x0A (R76). -/
theorem opcode_not_reserved (i : Instr) : i.opcode ≠ 0x00#8 ∧ ¬ 0x0B#8 ≤ i.opcode := by
  cases i <;> simp [Instr.opcode]

/-- Opcode 0x01 is CAPTURE_START's, whose ARG is 0 (R72). -/
theorem arg_of_opcode_one (i : Instr) (h : i.opcode = 0x01#8) : i.arg = 0#32 := by
  cases i with
  | captureStart => rfl
  | _ => cases h

/-- Opcode 0x06 is SET_ENV_ENABLE's, whose ARG is a BOOL (R75). -/
theorem kind_of_opcode_six (i : Instr) (h : i.opcode = 0x06#8) : i.kind = .bool := by
  cases i with
  | setEnvEnable b => rfl
  | _ => cases h

/-- A word with a reserved opcode (R77), a nonzero RSV (R78) or a malformed ARG (R72, R75) is no command. -/
theorem decode_error_of_invalid (w : CommandWord)
    (h : opcField w = 0x00#8 ∨ 0x0B#8 ≤ opcField w ∨ rsvField w ≠ 0#24 ∨
      (opcField w = 0x01#8 ∧ argField w ≠ 0#32) ∨ (opcField w = 0x06#8 ∧ 1#32 < argField w)) :
    ∃ e, decode w = .error e := by
  cases hd : decode w with
  | error e => exact ⟨e, rfl⟩
  | ok i =>
    obtain ⟨hopc, hrsv, harg, hwf⟩ := decode_ok w i hd
    rw [hopc, harg] at h
    obtain ⟨hzero, hreserved⟩ := opcode_not_reserved i
    rcases h with h | h | h | ⟨h, ha⟩ | ⟨h, ha⟩
    · exact absurd h hzero
    · exact absurd h hreserved
    · exact absurd hrsv h
    · exact absurd (arg_of_opcode_one i h) ha
    · rw [Instr.wellFormed, kind_of_opcode_six i h, bool_wellFormed_iff] at hwf
      rw [BitVec.lt_def] at ha
      exact absurd hwf (Nat.not_lt.mpr ha)

/-- On a device without a fault, and with READ_REG's opcode on any, the status is VALIDATION_ERROR (R204, R79). -/
theorem rejectStatus_eq_validationError {w : CommandWord} {s : State} (h : s.fault = 0#2 ∨ opcField w = 0x09#8) :
    rejectStatus w s = .validationError := by
  rw [rejectStatus, if_neg]
  rintro ⟨hf, ho⟩
  exact h.elim hf ho

/-- Rejecting a word of another opcode than 0x08 is its response alone. -/
theorem rejectWord_of_ne (w : CommandWord) (s : State) (h : opcField w ≠ 0x08#8) :
    rejectWord w s = respond (rejectStatus w s) 0#32 s := by
  rw [rejectWord, if_neg h]

/-- Rejecting a word of opcode 0x08 consumes its frames, when they are at hand, and responds (R82, R204). -/
theorem rejectWord_of_eq (w : CommandWord) (s : State) (h : opcField w = 0x08#8)
    (hn : (argField w).toNat ≤ s.frames.length) :
    rejectWord w s =
      respond (rejectStatus w s) 0#32 { s with frames := s.frames.drop (argField w).toNat, inProgress := none } := by
  rw [rejectWord, if_pos h, startBlock, runFrames_verdict _ _ _ _ _ _ hn]

/-- A transition of the device that leaves the FAULT bits alone is the machine's step. -/
theorem step_of_deviceStep {s t : State} (h : deviceStep s = .next t) (hf : t.fault = s.fault) : step s = .next t :=
  (step_next_iff s t).mpr ⟨h, raisedFault_same s t hf⟩

/-- Settles O10: the word does not decode, so the device rejects it, which touches no FAULT bit. -/
theorem invalidWordIsRejected : Obligations.InvalidWordIsRejected := by
  unfold Obligations.InvalidWordIsRejected
  intro w ws s hp hq hf hinvalid
  obtain ⟨e, hd⟩ := decode_error_of_invalid w hinvalid
  have hdevice := deviceStep_error hp hq hd
  have hstatus : rejectStatus w { s with queue := ws } = .validationError := rejectStatus_eq_validationError hf
  constructor
  · intro ho
    rw [rejectWord_of_ne w _ ho, hstatus] at hdevice
    exact step_of_deviceStep hdevice rfl
  · intro ho hn
    rw [rejectWord_of_eq w { s with queue := ws } ho hn, hstatus, ← hp] at hdevice
    exact step_of_deviceStep hdevice rfl

end Sys2Proof.Machine

/-! What a command answers (R80, R81), and a block whose frames come in two pieces (R82). -/

namespace Sys2Proof.Machine

/-! The response of a block. -/

/-- PROCESS_BLOCK's block before its first frame: on a faulted device its status is decided (R205). -/
def blockOf (n : U32) (s : State) : Block := ⟨n.toNat, 0, none, if s.fault = 0#2 then none else some .faulted⟩

theorem exec_processBlock (n : U32) (s : State) :
    exec (.processBlock n) s = .next (runFrames s.frames (blockOf n s) s) := rfl

/-- A block with its frames at hand adds one response: its status and data at the end (R80, R200). -/
theorem runFrames_responses_of_enough (fs : List FrameWord) (b : Block) (s : State) (h : b.todo ≤ fs.length) :
    ∃ b' : Block, (runFrames fs b s).responses = s.responses ++ [responseWord b'.status b'.data] := by
  have htodo : (frameSteps (fs.take b.todo) b s).1.todo = 0 := by
    rw [frameSteps_todo, List.length_take]
    omega
  refine ⟨(frameSteps (fs.take b.todo) b s).1, ?_⟩
  rw [runFrames_enough fs b s h, settle, if_pos htodo, respond_responses, (frameSteps_keeps_ports _ _ _).2]

/-- A block without all its frames adds no response, and stays in progress (log 7). -/
theorem runFrames_waits (fs : List FrameWord) (b : Block) (s : State) (h : fs.length < b.todo) :
    (runFrames fs b s).responses = s.responses ∧ (runFrames fs b s).inProgress.isSome = true := by
  rw [runFrames_short fs b s h]
  exact ⟨(frameSteps_keeps_ports fs b s).2, rfl⟩

/-- No command that writes registers responds by that. -/
theorem writesRegisters_responses {i : Instr} {s t : State} (hw : WritesRegisters i s t) :
    t.responses = s.responses := by
  rcases hw with ⟨-, rfl⟩ | ⟨a, -, -, -, -, rfl⟩ | ⟨k, -, -, rfl⟩ | ⟨v, -, -, rfl⟩ | ⟨v, -, -, rfl⟩ |
    ⟨v, -, -, rfl⟩ | ⟨b, -, -, rfl⟩ <;> rfl

/-- Settles O12: registers are written without a response, and a block responds when its frames are there. -/
theorem eachCommandRespondsOnce : Obligations.EachCommandRespondsOnce := by
  unfold Obligations.EachCommandRespondsOnce
  intro i s t h
  constructor
  · intro hn
    rcases exec_cases i s t h with ⟨c, v, -, rfl⟩ | ⟨-, u, hu, rfl⟩ | ⟨n, hi, rfl⟩
    · exact ⟨_, rfl⟩
    · exact ⟨_, by rw [respond_responses, writesRegisters_responses hu]⟩
    · obtain ⟨b, hb⟩ := runFrames_responses_of_enough s.frames (blockOf n s) s (hn n hi)
      exact ⟨_, hb⟩
  · rintro n rfl hn
    rw [exec_processBlock, Host.Outcome.next.injEq] at h
    subst h
    exact runFrames_waits s.frames (blockOf n s) s hn

/-! The form of a response. -/

/-- From s to t only responses are added, each a status with data, 0 unless the status is OK (R80). -/
def AddsResponses (s t : State) : Prop :=
  ∃ added, t.responses = s.responses ++ added ∧
    ∀ w ∈ added, ∃ c v, w = responseWord c v ∧ (c ≠ .ok → v = 0#32)

theorem addsResponses_of_same {s t : State} (h : t.responses = s.responses) : AddsResponses s t :=
  ⟨[], by rw [h, List.append_nil], fun _ hw => nomatch hw⟩

theorem addsResponses_of_one {s t : State} {c : Status} {v : U32}
    (h : t.responses = s.responses ++ [responseWord c v]) (hv : c ≠ .ok → v = 0#32) : AddsResponses s t :=
  ⟨_, h, fun _ hw => ⟨c, v, List.mem_singleton.mp hw, hv⟩⟩

/-- A block that ends with another status than OK has DATA 0 (R80). -/
theorem block_data_eq_zero (b : Block) (h : b.status ≠ .ok) : b.data = 0#32 := by
  cases hb : b.verdict with
  | none => exact absurd (by rw [Block.status, hb]; rfl) h
  | some c => rw [Block.data, hb]

theorem addsResponses_runFrames (fs : List FrameWord) (b : Block) (s : State) :
    AddsResponses s (runFrames fs b s) := by
  rcases Nat.lt_or_ge fs.length b.todo with h | h
  · exact addsResponses_of_same (runFrames_waits fs b s h).1
  · obtain ⟨b', hb'⟩ := runFrames_responses_of_enough fs b s h
    exact addsResponses_of_one hb' (block_data_eq_zero b')

theorem addsResponses_exec {i : Instr} {s t : State} (h : exec i s = .next t) : AddsResponses s t := by
  rcases exec_cases i s t h with ⟨c, v, hv, rfl⟩ | ⟨-, u, hu, rfl⟩ | ⟨n, -, rfl⟩
  · exact addsResponses_of_one rfl hv
  · exact addsResponses_of_one (by rw [respond_responses, writesRegisters_responses hu]) (fun hc => absurd rfl hc)
  · exact addsResponses_runFrames _ _ _

theorem addsResponses_rejectWord (w : CommandWord) (s : State) : AddsResponses s (rejectWord w s) := by
  by_cases ho : opcField w = 0x08#8
  · rw [rejectWord, if_pos ho]
    exact addsResponses_runFrames _ _ _
  · rw [rejectWord_of_ne w s ho]
    exact addsResponses_of_one rfl (fun _ => rfl)

theorem addsResponses_deviceStep {s t : State} (h : deviceStep s = .next t) : AddsResponses s t := by
  rcases deviceStep_cases s t h with ⟨b, -, rfl⟩ | ⟨-, -, rfl⟩ | ⟨w, ws, -, -, ⟨i, -, hexec⟩ | ⟨e, -, rfl⟩⟩
  · exact addsResponses_runFrames _ _ _
  · exact addsResponses_of_same rfl
  · exact addsResponses_exec (s := { s with queue := ws }) hexec
  · exact addsResponses_rejectWord w { s with queue := ws }

/-- The status codes are 0 to 3, and 0 is OK's alone (R81). -/
theorem statusCode_range (c : Status) : statusCode c ≤ 3#8 ∧ (statusCode c ≠ 0#8 → c ≠ .ok) := by
  cases c <;> decide

/-- Settles O13: the added words are response words, whose fields are the status code, 0 and the data. -/
theorem responsesKeepTheirForm : Obligations.ResponsesKeepTheirForm := by
  unfold Obligations.ResponsesKeepTheirForm
  intro s t h
  obtain ⟨added, hadded, hform⟩ := addsResponses_deviceStep (h.elim id (deviceStep_of_step s t))
  refine ⟨added, hadded, fun w hw => ?_⟩
  obtain ⟨c, v, rfl, hv⟩ := hform w hw
  obtain ⟨hstatus, hzero, hdata⟩ := responseWord_fields c v
  obtain ⟨hle, hok⟩ := statusCode_range c
  rw [hstatus, hzero, hdata]
  exact ⟨hle, rfl, fun hc => hv (hok hc)⟩

/-! A block in two pieces. -/

/-- A block given too few frames waits where its slots have left it, whatever the ports hold (log 7). -/
theorem runFrames_ports_of_short {gs : List FrameWord} {b : Block} (h : gs.length < b.todo) (q : List CommandWord)
    (p : Option Block) (fs : List FrameWord) (rs : List ResponseWord) (s : State) :
    runFrames gs b (withPorts q p fs rs s) = withPorts q (some (frameSteps gs b s).1) [] rs (frameSteps gs b s).2 := by
  rw [runFrames_short gs b _ h, frameSteps_ports]
  rfl

/-- From there it goes on over the frames that have come since as the block that had them all (R82). -/
theorem runFrames_resumes {fs : List FrameWord} {b : Block} (h : fs.length ≤ b.todo) (gs : List FrameWord)
    (q : List CommandWord) (p p' : Option Block) (hs hs' : List FrameWord) (rs : List ResponseWord) (s : State) :
    runFrames gs (frameSteps fs b s).1 (withPorts q p hs rs (frameSteps fs b s).2) =
      runFrames (fs ++ gs) b (withPorts q p' hs' rs s) := by
  rw [runFrames_append fs gs b _ h, frameSteps_ports]
  exact runFrames_ports q p p' hs hs' rs gs _ _

/-- A command in progress takes the frames that have come (R82). -/
theorem deviceStep_inProgress (q : List CommandWord) (b : Block) (fs : List FrameWord) (rs : List ResponseWord)
    (s : State) :
    deviceStep (withPorts q (some b) fs rs s) = .next (runFrames fs b (withPorts q (some b) fs rs s)) := rfl

/-- Settles O35: the first piece leaves the block in progress and the second resumes it; the stop at a fault looks at the
FAULT bits, and the frames have no part in those. -/
theorem blockWaitsForItsFrames : Obligations.BlockWaitsForItsFrames := by
  unfold Obligations.BlockWaitsForItsFrames
  intro n fs gs s h
  have hshort : fs.length < (blockOf n s).todo := h
  have hexec : ∀ hs : List FrameWord, exec (.processBlock n) { s with frames := hs } =
      .next (runFrames hs (blockOf n s) (withPorts s.queue s.inProgress hs s.responses s)) := fun hs =>
    exec_processBlock n { s with frames := hs }
  have hresumes : deviceStep (withPorts s.queue (some (frameSteps fs (blockOf n s) s).1) gs s.responses
      (frameSteps fs (blockOf n s) s).2) = exec (.processBlock n) { s with frames := fs ++ gs } := by
    rw [deviceStep_inProgress, hexec, runFrames_resumes hshort.le]
  refine ⟨_, (hexec fs).trans (congrArg _ (runFrames_ports_of_short hshort _ _ _ _ s)), rfl, hresumes, ?_⟩
  exact congrArg (stopAtFault _) hresumes

end Sys2Proof.Machine

/-! The Wavetable Store's commands: SET_SIZE (R102 to R105) and READ_TABLE (R106). -/

namespace Sys2Proof.Machine

/-- After a reallocation every word reads as the zero-fill (R100, R105). -/
@[simp] theorem memRead_reallocate (i : Int) (a : U32) (s : State) : memRead i (reallocate a s) = 0#32 := rfl

/-- On a device without a fault SET_SIZE runs its checks (R79, R102). -/
theorem exec_setSize_unfaulted (a : U32) (s : State) (hf : s.fault = 0#2) :
    exec (.setSize a) s = .next
      (if ¬ legalSize a then raiseValidationError s
      else if a = s.size then respond .ok 0#32 s
      else if Config.nMax < a.toNat then raiseResourceError s
      else respond .ok 0#32 (reallocate a s)) :=
  unlessFaulted_ok s _ hf

/-- Settles O22: each clause's premises decide the checks up to the one that answers. -/
theorem setSizeFollowsItsChecks : Obligations.SetSizeFollowsItsChecks := by
  unfold Obligations.SetSizeFollowsItsChecks
  intro a s hf
  rw [exec_setSize_unfaulted a s hf, ← legalSize_iff]
  refine ⟨fun hillegal => ?_, fun hlegal hsame => ?_, fun hlegal hother hbig => ?_, fun hlegal hother hfits => ?_⟩
  · rw [if_pos hillegal]
    rfl
  · rw [if_neg (not_not_intro hlegal), if_pos hsame]
    rfl
  · rw [if_neg (not_not_intro hlegal), if_neg hother, if_pos hbig]
    rfl
  · rw [if_neg (not_not_intro hlegal), if_neg hother, if_neg hfits.not_gt]
    exact ⟨_, rfl, rfl, fun x => memRead_reallocate x a s, rfl⟩

/-- An OK response's upper word is zero: STATUS 0x00 and the reserved bits (R80). -/
theorem responseWord_ok (v : U32) : responseWord .ok v = (0#32 ++ v : BitVec 64) := rfl

/-- At a natural index and a power-of-two SIZE the word read is the one at the index modulo SIZE (R8, R50). -/
theorem memRead_natCast (n k : Nat) (s : State) (hk : s.size.toNat = 2 ^ k) :
    memRead n s = tableGet s.table (n % s.size.toNat) := by
  have hindex : maskIndex n s = n % s.size.toNat := by exact_mod_cast maskIndex_eq n s k hk
  rw [memRead, hindex]

/-- Settles O27: the device answers OK with the word it reads at the index. -/
theorem readTableAnswersTheMaskedWord : Obligations.ReadTableAnswersTheMaskedWord := by
  unfold Obligations.ReadTableAnswersTheMaskedWord
  intro x k s hf hk
  rw [← memRead_natCast x.toNat k s hk, ← responseWord_ok]
  exact unlessFaulted_ok s _ hf

end Sys2Proof.Machine

/-! The capture family (41_capture.md): CAPTURE_START (R120), and what the capture samples of a block, or of blocks however
they fall, leave behind (R121 to R124, R200, R202). -/

namespace Sys2Proof.Machine

open Sys2Proof.Safety

/-- Settles O21: without a fault CAPTURE_START is its one register write and its response. -/
theorem captureStartRestartsTheCountdown : Obligations.CaptureStartRestartsTheCountdown := by
  unfold Obligations.CaptureStartRestartsTheCountdown
  intro s hf
  exact unlessFaulted_ok s _ hf

/-! Consecutive words of the table. -/

/-- The table with the frames' raw inputs written from index i on, one after the other (R121). -/
def storeWords : Table → Nat → List FrameWord → Table
  | t, _, [] => t
  | t, i, f :: fs => storeWords (tableSet t i (frameRaw f)) (i + 1) fs

/-- Every word outside the run of indices written stays. -/
theorem tableGet_storeWords_outside (t : Table) (i a : Nat) (fs : List FrameWord) (h : a < i ∨ i + fs.length ≤ a) :
    tableGet (storeWords t i fs) a = tableGet t a := by
  induction fs generalizing t i with
  | nil => rfl
  | cons f fs ih =>
    rw [List.length_cons] at h
    rw [storeWords, ih _ _ (by omega), tableGet_tableSet_other _ _ _ _ (by omega)]

/-- Word j of the run is the raw input of frame j. -/
theorem tableGet_storeWords_inside (t : Table) (i j : Nat) (fs : List FrameWord) (ht : Table.wf t)
    (hj : j < fs.length) : tableGet (storeWords t i fs) (i + j) = frameRaw (fs.getD j 0#64) := by
  induction fs generalizing t i j with
  | nil => cases hj
  | cons f fs ih =>
    rw [storeWords]
    cases j with
    | zero => exact (tableGet_storeWords_outside _ _ _ _ (by omega)).trans (tableGet_tableSet_same _ _ _ ht)
    | succ j =>
      rw [← Nat.succ_add_eq_add_succ i j]
      exact ih _ _ _ (tableSet_wf _ _ _ ht) (Nat.lt_of_succ_lt_succ hj)

/-! The capture samples of a list of frames. -/

/-- The state after the capture samples on fs, begun at Recording(r) (R121, R122): their words stored from N - r on, an
output of +0.0 for each, and the countdown lower by their number, or the capture complete. -/
def afterCapture (r : U32) (fs : List FrameWord) (s : State) : State :=
  { s with
    table := storeWords s.table (s.size.toNat - r.toNat) fs
    capState := if BitVec.ofNat 32 fs.length = r then .idle else .recording (r - BitVec.ofNat 32 fs.length)
    phase := if BitVec.ofNat 32 fs.length = r then 0#32 else s.phase
    phaseInc := if BitVec.ofNat 32 fs.length = r then 0#32 else s.phaseInc
    outputs := s.outputs ++ List.replicate fs.length 0#32 }

/-- Before its first sample a capture has changed nothing. -/
theorem afterCapture_nil {r : U32} {s : State} (hc : s.capState = .recording r) (hr : 1 ≤ r.toNat) :
    afterCapture r [] s = s := by
  have hne : 0#32 ≠ r := by
    rintro rfl
    cases hr
  simp only [afterCapture, List.length_nil, if_neg hne, storeWords, BitVec.sub_zero, ← hc, List.replicate_zero,
    List.append_nil]

/-- The countdown's next value (R121). -/
theorem toNat_sub_one {r : U32} (hr : 1 ≤ r.toNat) : (r - 1#32).toNat = r.toNat - 1 :=
  BitVec.toNat_sub_of_le (BitVec.le_def.mpr hr)

/-- After a first sample that does not complete the capture the others go on at Recording(r - 1). -/
theorem afterCapture_cons {r : U32} {s : State} (f : FrameWord) (fs : List FrameWord) (hr : 1 ≤ r.toNat)
    (hr' : r.toNat ≤ s.size.toNat) (hne : r ≠ 1#32) :
    afterCapture (r - 1#32) fs (afterCapture r [f] s) = afterCapture r (f :: fs) s := by
  have hindex : s.size.toNat - (r - 1#32).toNat = s.size.toNat - r.toNat + 1 := by
    rw [toNat_sub_one hr]
    omega
  have hend : BitVec.ofNat 32 fs.length = r - 1#32 ↔ BitVec.ofNat 32 (fs.length + 1) = r := by
    rw [BitVec.ofNat_add]
    exact eq_sub_iff_add_eq
  have hleft : r - 1#32 - BitVec.ofNat 32 fs.length = r - BitVec.ofNat 32 (fs.length + 1) := by
    rw [BitVec.ofNat_add, sub_sub, add_comm]
  simp only [afterCapture, List.length_cons, List.length_nil, storeWords, hindex, hend, hleft, Nat.zero_add,
    if_neg hne.symm, List.append_assoc, List.replicate_append_replicate, Nat.add_comm 1]

/-- An index below SIZE is not changed by MASK (R50). -/
theorem maskIndex_of_lt {n k : Nat} {s : State} (hk : s.size.toNat = 2 ^ k) (hn : n < s.size.toNat) :
    maskIndex n s = n := by
  have hindex : maskIndex n s = n % s.size.toNat := by exact_mod_cast maskIndex_eq n s k hk
  rw [hindex, Nat.mod_eq_of_lt hn]

/-- A slot at Recording(r) stores its sample; it completes the capture at r = 1 (R121, R122, R201). -/
theorem slot_afterCapture {r : U32} {k : Nat} {s : State} (f : FrameWord) (hc : s.capState = .recording r)
    (hk : s.size.toNat = 2 ^ k) (hr : 1 ≤ r.toNat) (hr' : r.toNat ≤ s.size.toNat) :
    slot f s = (afterCapture r [f] s, if r = 1#32 then .captureDone else .quiet) := by
  have hindex : maskIndex ((s.size.toNat : Int) - r.toNat) s = s.size.toNat - r.toNat := by
    rw [← Nat.cast_sub hr']
    exact maskIndex_of_lt hk (by omega)
  rw [slot_recording f s r hc]
  by_cases hlast : r = 1#32
  · subst hlast
    simp only [captureSample, afterCapture, memWrite, hindex]
    rfl
  · have hne : BitVec.ofNat 32 [f].length ≠ r := fun h => hlast h.symm
    simp only [captureSample, afterCapture, memWrite, hindex, if_neg hlast, if_neg hne]
    rfl

/-- The slots of a block at Recording(r), up to r of them, are its capture samples; where they are r, the capture completes
at the last (R121, R122, R202). -/
theorem frameSteps_afterCapture {k : Nat} (fs : List FrameWord) (r : U32) (b : Block) (s : State)
    (hb : b.verdict = none) (hc : s.capState = .recording r) (hk : s.size.toNat = 2 ^ k) (hr : 1 ≤ r.toNat)
    (hr' : r.toNat ≤ s.size.toNat) (hn : fs.length ≤ r.toNat) :
    (frameSteps fs b s).1.verdict = none ∧
      (frameSteps fs b s).1.done = (if fs.length = r.toNat then some (b.slot + (r.toNat - 1)) else b.done) ∧
      (frameSteps fs b s).2 = afterCapture r fs s := by
  induction fs generalizing r b s with
  | nil => exact ⟨hb, (if_neg (by simp; omega)).symm, (afterCapture_nil hc hr).symm⟩
  | cons f fs ih =>
    have hstep : frameStep b f s =
        (b.afterEvent (if r = 1#32 then .captureDone else .quiet), afterCapture r [f] s) := by
      simp only [frameStep, hb, slot_afterCapture f hc hk hr hr']
    rw [List.length_cons] at hn ⊢
    rw [frameSteps, hstep]
    by_cases hlast : r = 1#32
    · subst hlast
      obtain rfl : fs = [] := List.length_eq_zero_iff.mp (by simpa using hn)
      exact ⟨hb, rfl, rfl⟩
    · have hpred := toNat_sub_one hr
      have hr2 : r.toNat ≠ 1 := fun h => hlast (BitVec.eq_of_toNat_eq h)
      have hc' : (afterCapture r [f] s).capState = .recording (r - 1#32) := if_neg (Ne.symm hlast)
      rw [if_neg hlast, ← afterCapture_cons f fs hr hr' hlast]
      obtain ⟨hverdict, hdone, hstate⟩ := ih (r - 1#32) (b.afterEvent .quiet) (afterCapture r [f] s) hb hc' hk
        (by omega) (show (r - 1#32).toNat ≤ s.size.toNat by omega) (by omega)
      refine ⟨hverdict, ?_, hstate⟩
      rw [hdone, hpred]
      simp only [Block.afterEvent]
      congr 1
      · rw [eq_iff_iff]
        omega
      · congr 1
        omega

/-! The memory after capture samples (R121). -/

section Memory
variable {r : U32} {k : Nat} {fs : List FrameWord} {s : State}

/-- Frame j's raw input stands in word N - r + j. -/
theorem memRead_afterCapture_stored {j : Nat} (hk : s.size.toNat = 2 ^ k) (ht : Table.wf s.table)
    (hr : r.toNat ≤ s.size.toNat) (hn : fs.length ≤ r.toNat) (hj : j < fs.length) :
    memRead ((s.size.toNat : Int) - r.toNat + j) (afterCapture r fs s) = frameRaw (fs.getD j 0#64) := by
  have hindex : (s.size.toNat : Int) - r.toNat + j = (s.size.toNat - r.toNat + j : Nat) := by omega
  rw [hindex, memRead, maskIndex_of_lt (s := afterCapture r fs s) hk (show _ < s.size.toNat by omega)]
  exact tableGet_storeWords_inside s.table _ j fs ht hj

/-- Every word not stored is as before. -/
theorem memRead_afterCapture_other {a : Nat} (hk : s.size.toNat = 2 ^ k) (ha : a < s.size.toNat)
    (hother : a < s.size.toNat - r.toNat ∨ s.size.toNat - r.toNat + fs.length ≤ a) :
    memRead a (afterCapture r fs s) = memRead a s := by
  rw [memRead, memRead, maskIndex_of_lt (s := afterCapture r fs s) hk ha, maskIndex_of_lt hk ha]
  exact tableGet_storeWords_outside s.table _ a fs hother

end Memory

/-- A frame among the first n is frame j of all. -/
theorem getD_take {n j : Nat} (fs : List FrameWord) (hj : j < n) : (fs.take n).getD j 0#64 = fs.getD j 0#64 := by
  rw [List.getD_eq_getElem?_getD, List.getD_eq_getElem?_getD, List.getElem?_take_of_lt hj]

/-! One block. -/

/-- DATA of the block is the number of its last slot, counted from 1, when it completes the capture (R202). -/
theorem responseWord_of_capture {n r : U32} {b : Block} (hr : 1 ≤ r.toNat) (hverdict : b.verdict = none)
    (hdone : b.done = if n.toNat = r.toNat then some (r.toNat - 1) else none) :
    responseWord b.status b.data = if n = r then (0#32 ++ n : BitVec 64) else 0#64 := by
  rw [response_of_ok b hverdict, hdone]
  by_cases hlast : n = r
  · subst hlast
    rw [if_pos rfl, if_pos rfl, doneField, Nat.sub_add_cancel hr, BitVec.ofNat_toNat, BitVec.setWidth_eq]
  · rw [if_neg hlast, if_neg (fun h => hlast (BitVec.eq_of_toNat_eq h))]
    rfl

/-- A block of n ≤ r samples at Recording(r) is its capture samples and its response. -/
theorem execProcessBlock_recording {n r : U32} {k : Nat} {s : State} (hf : s.fault = 0#2)
    (hc : s.capState = .recording r) (hk : s.size.toNat = 2 ^ k) (hr : 1 ≤ r.toNat) (hr' : r.toNat ≤ s.size.toNat)
    (hn : n.toNat ≤ r.toNat) (hframes : n.toNat ≤ s.frames.length) :
    exec (.processBlock n) s =
      .next (withPorts s.queue none (s.frames.drop n.toNat)
        (s.responses ++ [if n = r then (0#32 ++ n : BitVec 64) else 0#64])
        (afterCapture r (s.frames.take n.toNat) s)) := by
  have hlen : (s.frames.take n.toNat).length = n.toNat := List.length_take_of_le hframes
  obtain ⟨b, t, hslots, -, -, hexec⟩ := execProcessBlock_unfaulted n s hf hframes
  obtain ⟨hverdict, hdone, hstate⟩ := frameSteps_afterCapture (s.frames.take n.toNat) r (newBlock n.toNat) s rfl hc hk hr
    hr' (by omega)
  rw [hslots] at hverdict hdone hstate
  rw [hlen, newBlock, Nat.zero_add] at hdone
  rw [← responseWord_of_capture hr hverdict hdone, ← hstate]
  exact hexec

/-- Settles O29: the state after the block's capture samples, read word by word and field by field. -/
theorem captureStoresExactlyItsSamples : Obligations.CaptureStoresExactlyItsSamples := by
  unfold Obligations.CaptureStoresExactlyItsSamples
  intro n r k s hf hc hk ht hr hr' hn hframes
  have hlen : (s.frames.take n.toNat).length = n.toNat := List.length_take_of_le hframes
  refine ⟨_, execProcessBlock_recording hf hc hk hr hr' hn hframes, fun j hj => ?_, fun a ha hother => ?_, ?_⟩
  · rw [← frameRaw, ← getD_take s.frames hj]
    exact memRead_afterCapture_stored hk ht hr' (by omega) (by omega)
  · exact memRead_afterCapture_other hk ha (by omega)
  · simp only [withPorts, afterCapture, hlen, BitVec.ofNat_toNat, BitVec.setWidth_eq]

/-! Several blocks. -/

/-- No slot clears a FAULT bit (R36). -/
theorem fault_of_frameSteps {fs : List FrameWord} {b : Block} {s : State} (h : (frameSteps fs b s).2.fault = 0#2) :
    s.fault = 0#2 := by
  induction fs generalizing b s with
  | nil => exact h
  | cons f fs ih =>
    have hstep := ih h
    rw [frameStep] at hstep
    cases hb : b.verdict with
    | some v => simpa only [hb] using hstep
    | none =>
      simp only [hb] at hstep
      have hkeeps := (slot_keeps_fault f s).1
      rw [hstep, BitVec.and_zero] at hkeeps
      exact hkeeps.symm

/-- Commands go on where the first has left the state. -/
theorem execAll_cons {i : Instr} {s t : State} {is : List Instr} (h : exec i s = .next t) :
    execAll (i :: is) s = execAll is t := by
  rw [execAll, h]

/-- Blocks one after the other, of m frames in all and without a fault, run the slots of one block of m (R200, R201). -/
theorem execAll_processBlock (ns : List U32) {m : Nat} {s : State} (hm : m = (ns.map BitVec.toNat).sum)
    (hframes : m ≤ s.frames.length) (hf : (frameSteps (s.frames.take m) (newBlock m) s).2.fault = 0#2) :
    ∃ p rs, execAll (ns.map .processBlock) s =
      .next (withPorts s.queue p (s.frames.drop m) rs (frameSteps (s.frames.take m) (newBlock m) s).2) := by
  induction ns generalizing m s with
  | nil =>
    subst hm
    exact ⟨s.inProgress, s.responses, rfl⟩
  | cons n ns ih =>
    rw [List.map_cons, List.sum_cons] at hm
    generalize hl : (ns.map BitVec.toNat).sum = l at hm
    subst hm
    obtain ⟨b, t, hslots, hverdict, -, hexec⟩ :=
      execProcessBlock_unfaulted n s (fault_of_frameSteps hf) (by omega)
    obtain ⟨hverdict', hstate⟩ := frameSteps_verdict (s.frames.take n.toNat) (newBlock (n.toNat + l)) (newBlock n.toNat)
      s rfl
    rw [hslots] at hverdict' hstate
    rw [List.take_add, frameSteps_append, hstate] at hf ⊢
    rw [(frameSteps_verdict _ _ (newBlock l) t (hverdict'.trans (hverdict.mpr (fault_of_frameSteps hf)))).2] at hf ⊢
    obtain ⟨p, rs, hrest⟩ := ih (m := l) (s := withPorts s.queue none (s.frames.drop n.toNat)
      (s.responses ++ [responseWord b.status b.data]) t) hl.symm
      (show l ≤ (s.frames.drop n.toNat).length by rw [List.length_drop]; omega)
      (by rw [frameSteps_ports]; exact hf)
    refine ⟨p, rs, ?_⟩
    rw [List.map_cons, execAll_cons (i := .processBlock n) hexec, hrest, frameSteps_ports, ← List.drop_drop]
    rfl

/-- Settles O30: the blocks' slots are the capture samples of all their frames, from Recording(N). -/
theorem captureTakesExactlyNSamples : Obligations.CaptureTakesExactlyNSamples := by
  unfold Obligations.CaptureTakesExactlyNSamples
  intro ns m k s hf hc hk ht hm hsize hframes
  have hlen : (s.frames.take m).length = m := List.length_take_of_le hframes
  have hpos : 1 ≤ s.size.toNat := hk ▸ Nat.one_le_two_pow
  obtain ⟨-, -, hstate⟩ := frameSteps_afterCapture (s.frames.take m) s.size (newBlock m) s rfl hc hk hpos le_rfl (by omega)
  obtain ⟨p, rs, hexec⟩ := execAll_processBlock ns hm hframes (by rw [hstate]; exact hf)
  rw [hstate] at hexec
  have hend : BitVec.ofNat 32 (s.frames.take m).length = s.size ↔ m = s.size.toNat := by
    have := s.size.isLt
    rw [hlen, ← BitVec.toNat_inj, BitVec.toNat_ofNat, Nat.mod_eq_of_lt (by omega)]
  refine ⟨_, hexec, fun hlt => ?_, fun heq => ?_, fun j hj => ?_, fun a ha hle => ?_, ?_, rfl⟩
  · exact (if_neg (fun h => hlt.ne (hend.mp h))).trans (by rw [hlen])
  · exact ⟨if_pos (hend.mpr heq), if_pos (hend.mpr heq), if_pos (hend.mpr heq)⟩
  · have hread := memRead_afterCapture_stored (r := s.size) (fs := s.frames.take m) (j := j) hk ht le_rfl (by omega)
      (by omega)
    rw [sub_self, zero_add, getD_take s.frames hj] at hread
    exact hread
  · exact memRead_afterCapture_other hk ha (by omega)
  · exact congrArg (fun n => s.outputs ++ List.replicate n 0#32) hlen

end Sys2Proof.Machine

/-! The envelope family (42_envelope.md): the real coefficient (R140), the setters (R141 to R144), and NaNs in the follower
(R149). -/

namespace Sys2Proof.Machine

open Sys2Proof.Safety

/-! The real coefficient (R140). -/

/-- A legal time or rate is a positive real (R142). -/
theorem realValue_pos {t : F32} (h : legalTime t = true) : 0 < realValue t := by
  rw [legalTime, Bool.and_eq_true, decide_eq_true_iff] at h
  exact div_pos (Int.cast_pos.mpr h.2) (Nat.cast_pos.mpr (Nat.two_pow_pos 149))

/-- Settles O48: the exponent is negative, being ln 0.01 over a positive number. -/
theorem coefficientLiesInUnitInterval : Obligations.CoefficientLiesInUnitInterval := by
  unfold Obligations.CoefficientLiesInUnitInterval
  intro t r ht hr
  have hlog : Real.log 0.01 < 0 := Real.log_neg (by norm_num) (by norm_num)
  have hden : 0 < realValue t * realValue r * 0.001 :=
    mul_pos (mul_pos (realValue_pos ht) (realValue_pos hr)) (by norm_num)
  exact ⟨Real.exp_pos _, Real.exp_lt_one_iff.mpr (div_neg_of_neg_of_pos hlog hden)⟩

/-! The setters (R141 to R144). -/

/-- Settles O24: the argument is legal in the first clause and illegal in the second, for all three setters. -/
theorem envelopeSettersRecomputeOrReject : Obligations.EnvelopeSettersRecomputeOrReject := by
  unfold Obligations.EnvelopeSettersRecomputeOrReject
  intro v s hf
  simp only [exec, execSetAttackMs, execSetDecayMs, execSetSampleRate, unlessFaulted_ok s _ hf]
  refine ⟨fun hlegal => ?_, fun hillegal => ?_⟩
  · have hv : legalTime v = true := (legalTime_iff v).mpr hlegal
    simp only [if_pos hv]
    exact ⟨rfl, rfl, rfl⟩
  · have hv : ¬ legalTime v = true := by
      rw [legalTime_iff]
      omega
    simp only [if_neg hv]
    exact ⟨rfl, rfl, rfl⟩

/-! NaNs and infinities through the primitives (R10, R11). -/

/-- Every draw of NaNDraw is a NaN (R11). -/
theorem isNaN_nanDraw (d : Nat) : isNaN (nanDraw d) = true := by
  obtain ⟨hexp, hfrac⟩ := nanDraw_fields d
  have hne : fracField (nanDraw d) ≠ 0 := by omega
  simp [isNaN, hexp, hne]

@[simp] theorem isNaN_fneg (x : F32) : isNaN (fneg x) = isNaN x := by simp only [isNaN, expField_fneg, fracField_fneg]

@[simp] theorem isInf_fneg (x : F32) : isInf (fneg x) = isInf x := by simp only [isInf, expField_fneg, fracField_fneg]

@[simp] theorem isNaN_fabs (x : F32) : isNaN (fabs x) = isNaN x := by simp only [isNaN, expField_fabs, fracField_fabs]

@[simp] theorem isInf_fabs (x : F32) : isInf (fabs x) = isInf x := by simp only [isInf, expField_fabs, fracField_fabs]

/-- An infinity is not a NaN: its fraction is 0 (R9). -/
theorem isNaN_of_isInf {x : F32} (h : isInf x = true) : isNaN x = false := by
  rw [isInf, Bool.and_eq_true, beq_iff_eq, beq_iff_eq] at h
  simp [isNaN, h.2]

/-- A NaN operand makes the sum a NaN. -/
theorem isNaN_fadd (d : Nat) {a b : F32} (h : isNaN a = true ∨ isNaN b = true) : isNaN (fadd d a b) = true := by
  rw [fadd, if_pos (Bool.or_eq_true_iff.mpr h), isNaN_nanDraw]

/-- A NaN operand makes the difference a NaN. -/
theorem isNaN_fsub (d : Nat) {a b : F32} (h : isNaN a = true ∨ isNaN b = true) : isNaN (fsub d a b) = true :=
  isNaN_fadd d (by rwa [isNaN_fneg])

/-- A NaN operand makes the product a NaN. -/
theorem isNaN_fmul (d : Nat) {a b : F32} (h : isNaN a = true ∨ isNaN b = true) : isNaN (fmul d a b) = true := by
  rw [fmul, if_pos (Bool.or_eq_true_iff.mpr h), isNaN_nanDraw]

/-- The sum of two infinities of opposite signs is a NaN. -/
theorem isNaN_fadd_opposite_inf (d : Nat) {a b : F32} (ha : isInf a = true) (hb : isInf b = true)
    (hs : signBit a ≠ signBit b) : isNaN (fadd d a b) = true := by
  simp [fadd, isNaN_of_isInf ha, isNaN_of_isInf hb, ha, hb, hs, isNaN_nanDraw]

/-- A finite number plus an infinity is the infinity. -/
theorem fadd_inf_right (d : Nat) {a b : F32} (ha : isFinite a = true) (hb : isInf b = true) : fadd d a b = b := by
  obtain ⟨hnan, hinf⟩ := finite_not_special a ha
  simp [fadd, hnan, hinf, isNaN_of_isInf hb, hb]

/-- A product with an infinity is a NaN (the other factor being 0 or a NaN), or an infinity whose sign is the product of the
signs. -/
theorem fmul_inf_right (d : Nat) (a : F32) {b : F32} (hb : isInf b = true) :
    isNaN (fmul d a b) = true ∨
      isInf (fmul d a b) = true ∧ signBit (fmul d a b) = (signBit a != signBit b) := by
  by_cases ha : isNaN a = true
  · exact .inl (isNaN_fmul d (.inl ha))
  rw [fmul, if_neg (by simp [ha, isNaN_of_isInf hb]), if_pos (by simp [hb])]
  split
  · exact .inl (isNaN_nanDraw d)
  · refine .inr ⟨?_, signBit_pack _ 0x7F800000⟩
    cases signBit a != signBit b <;> decide

/-- The number the model gives an infinity as its magnitude is 2^128, beyond every finite one (R9). -/
theorem magnitude_of_isInf {x : F32} (h : isInf x = true) : magnitude x = 2 ^ 149 * 2 ^ 128 := by
  rw [isInf, Bool.and_eq_true, beq_iff_eq, beq_iff_eq] at h
  obtain ⟨hexp, hfrac⟩ := h
  rw [magnitude, hexp, hfrac, if_neg (by decide), ← pow_add, add_zero, ← pow_add]

/-- |±∞| compares above every finite value. -/
theorem fgt_fabs_inf {x y : F32} (hx : isInf x = true) (hy : isFinite y = true) : fgt (fabs x) y = true := by
  have hle : scaled y ≤ magnitude y := by
    rw [scaled]
    split <;> omega
  have hlt : magnitude y < magnitude x := magnitude_of_isInf hx ▸ magnitude_lt y hy
  have hscaled : scaled (fabs x) = magnitude x := by simp [scaled, signBit_fabs, magnitude_fabs]
  simp only [fgt, isNaN_fabs, isNaN_of_isInf hx, (finite_not_special y hy).1, hscaled, Bool.not_false, Bool.true_and,
    decide_eq_true_iff]
  omega

/-! The follower (R146 to R149). -/

/-- A NaN estimate or a NaN ENV_LAST passes through all three operations of the step (R149). -/
theorem isNaN_followerStep (d : Nat) (c : F32) {last m : F32} (h : isNaN m = true ∨ isNaN last = true) :
    isNaN (followerStep d c last m) = true :=
  isNaN_fadd _ (.inl (isNaN_fmul _ (.inr (isNaN_fsub _ h.symm))))

/-- Toward +∞ from a finite ENV_LAST, a coefficient of positive sign gives -∞ + ∞, or a NaN before that (R149). -/
theorem isNaN_followerStep_inf (d : Nat) {c last m : F32} (hm : isInf m = true) (hpos : signBit m = false)
    (hlast : isFinite last = true) (hc : signBit c = false) : isNaN (followerStep d c last m) = true := by
  have hinf : isInf (fneg m) = true := by rwa [isInf_fneg]
  rw [followerStep, fsub, fadd_inf_right d hlast hinf]
  obtain hnan | ⟨hprod, hsign⟩ := fmul_inf_right (d + 1) c hinf
  · exact isNaN_fadd _ (.inl hnan)
  · rw [signBit_fneg, hc, hpos] at hsign
    exact isNaN_fadd_opposite_inf _ hprod hm (by rw [hsign, hpos]; decide)

/-- Enabled, the follower's estimate is its attack or its decay step (R146). -/
theorem envUpdate_enabled (d : Nat) (x : F32) {s : State} (h : s.envEn = true) :
    (envUpdate d x s).1 = if fgt (fabs x) s.envLast then attack d (fabs x) s else decay d (fabs x) s := by
  rw [envUpdate, if_pos h]

/-- Settles O40: a NaN passes through either branch, and an infinite input takes the attack branch. -/
theorem naNStaysInTheFollower : Obligations.NaNStaysInTheFollower := by
  unfold Obligations.NaNStaysInTheFollower
  intro d x s hen h
  refine ⟨?_, by rw [envUpdate_frame, if_pos hen]⟩
  rw [envUpdate_enabled d x hen]
  obtain hnan | ⟨hinf, hlast, hc⟩ := or_assoc.mpr h
  · rw [← isNaN_fabs] at hnan
    split
    · exact isNaN_followerStep d s.attackCoeff hnan
    · exact isNaN_followerStep d s.decayCoeff hnan
  · rw [if_pos (fgt_fabs_inf hinf hlast)]
    exact isNaN_followerStep_inf d (by rwa [isInf_fabs]) (signBit_fabs x) hlast hc

end Sys2Proof.Machine

/-! The oscillator family (43_oscillator.md), its commands: SET_MODE (R170) and the playback sample (R171 to R180). -/

namespace Sys2Proof.Machine

/-! SET_MODE (R170). -/

/-- A legal mode index is 0, 1 or 2. -/
theorem legalMode_iff (k : U32) : legalMode k = true ↔ k.toNat ≤ 2 := by
  rw [legalMode, decide_eq_true_iff]
  rfl

/-- Settles O23: the index is legal in the first clause and illegal in the second. -/
theorem setModeWritesModeOrRejects : Obligations.SetModeWritesModeOrRejects := by
  unfold Obligations.SetModeWritesModeOrRejects
  intro k s hf
  simp only [exec, execSetMode, unlessFaulted_ok s _ hf, legalMode_iff]
  refine ⟨fun hlegal => ?_, fun hillegal => ?_⟩
  · rw [if_pos hlegal]
    rfl
  · rw [if_neg (by omega)]
    rfl

/-! FAULT(INTERNAL_MODE) (R176). -/

/-- MODE is legal and FAULT bit 1 is clear. -/
def ModeFaultFree (s : State) : Prop := s.mode ≠ 3#2 ∧ s.fault.getLsbD 1 = false

/-- At a legal MODE no slot raises INTERNAL_MODE: a playback sample's one fault is NONFINITE_PHASE (R176, R180). -/
theorem modeFaultFree_slot (f : FrameWord) (s : State) (h : ModeFaultFree s) : ModeFaultFree (slot f s).1 := by
  obtain ⟨hmode, hbit⟩ := h
  refine ⟨by rwa [(slot_keeps_fault f s).2], ?_⟩
  cases hc : s.capState with
  | recording r =>
    rw [slot_recording f s r hc, captureSample]
    split <;> exact hbit
  | idle =>
    rw [slot_idle f s hc]
    obtain ⟨e, inc, d, -, ⟨y, p, -, heq⟩ | ⟨y, heq⟩ | ⟨hthree, -⟩⟩ := playbackSample_cases f s
    · rw [heq]
      exact hbit
    · rw [heq]
      simp only [BitVec.getLsbD_or, hbit]
      rfl
    · exact absurd hthree hmode

/-- SET_MODE writes a legal MODE, and no other command that writes registers writes MODE (R170). -/
theorem modeFaultFree_writesRegisters (i : Instr) (s t : State) (hw : WritesRegisters i s t) (h : ModeFaultFree s) :
    ModeFaultFree t := by
  refine ⟨?_, by rw [writesRegisters_fault i s t hw]; exact h.2⟩
  rcases hw with ⟨-, rfl⟩ | ⟨a, -, -, -, -, rfl⟩ | ⟨k, -, hlegal, rfl⟩ | ⟨v, -, -, rfl⟩ | ⟨v, -, -, rfl⟩ |
    ⟨v, -, -, rfl⟩ | ⟨b, -, -, rfl⟩
  case inr.inr.inl => exact legalMode_setWidth k hlegal
  all_goals exact h.1

theorem modeFaultFree_deviceStep (s t : State) (hstep : deviceStep s = .next t) (h : ModeFaultFree s) :
    ModeFaultFree t :=
  deviceStep_keeps ModeFaultFree modeFaultFree_slot (fun _ _ _ _ _ hs => hs) modeFaultFree_writesRegisters s t hstep h

/-- Settles O20: the device keeps MODE legal and FAULT bit 1 clear, and a step that answered INTERNAL_MODE would have set
that bit. -/
theorem internalModeFaultIsUnreachable : Obligations.InternalModeFaultIsUnreachable := by
  unfold Obligations.InternalModeFaultIsUnreachable
  intro s hmode hbit
  refine ⟨fun hfault => ?_, ?_⟩
  · obtain ⟨t, hstep, hraised⟩ := (step_fault_iff s _).mp hfault
    obtain ⟨-, hset⟩ := (raisedFault_eq_some_iff s t _).mp hraised
    obtain ⟨-, hclear⟩ := modeFaultFree_deviceStep s t hstep ⟨hmode, hbit⟩
    rw [hset] at hclear
    exact absurd hclear (by decide)
  · rintro t (hstep | hstep)
    · exact modeFaultFree_deviceStep s t (deviceStep_of_step s t hstep) ⟨hmode, hbit⟩
    · exact modeFaultFree_deviceStep s t hstep ⟨hmode, hbit⟩

/-! The playback sample (R179). -/

/-- ENV_LAST after an enabled update: the follower's step toward |x|, with the coefficient the comparison picks (R146 to
R148). -/
def nextEnvLast (d : Nat) (x : F32) (s : State) : F32 :=
  followerStep d (if fgt (fabs x) s.envLast then s.attackCoeff else s.decayCoeff) s.envLast (fabs x)

/-- The magnitude estimate: ENV_LAST's new value if the envelope is enabled, else the input itself (R146). -/
theorem envUpdate_estimate (d : Nat) (x : F32) (s : State) :
    (envUpdate d x s).1 = if s.envEn then nextEnvLast d x s else x := by
  by_cases hen : s.envEn = true
  · rw [envUpdate_enabled d x hen, if_pos hen, nextEnvLast]
    split <;> rfl
  · rw [envUpdate, if_neg hen, if_neg hen]

/-- The increment of a playback sample: |m| · N at the magnitude estimate m (R171, R179). -/
def playbackIncrement (f : FrameWord) (s : State) : F32 :=
  increment (s.draws + 3) (if s.envEn then nextEnvLast s.draws (frameControl f) s else frameControl f) s

/-- The first half of a playback sample gives the increment, and writes it and, if enabled, ENV_LAST (R179). -/
theorem beginPlayback_eq (f : FrameWord) (s : State) :
    beginPlayback f s = (playbackIncrement f s,
      { s with
        envLast := if s.envEn then nextEnvLast s.draws (frameControl f) s else s.envLast
        phaseInc := playbackIncrement f s
        draws := s.draws + drawsPerSlot }) := by
  have hinc : (beginPlayback f s).1 = playbackIncrement f s := by
    simp only [beginPlayback, playbackIncrement, increment]
    rw [envUpdate_frame, envUpdate_estimate]
  have henv : (if s.envEn then (envUpdate s.draws (frameControl f) s).1 else s.envLast) =
      if s.envEn then nextEnvLast s.draws (frameControl f) s else s.envLast := by
    rw [envUpdate_estimate]
    split <;> rfl
  exact Prod.ext hinc (by rw [beginPlayback_frame, hinc, henv])

/-- The kernel reads nothing that the first half of a playback sample writes (R172 to R176). -/
theorem interp_beginPlayback (d : Nat) (f : FrameWord) (s : State) : interp d (beginPlayback f s).2 = interp d s := by
  rw [beginPlayback_frame]
  exact interp_congr d s _ rfl rfl rfl rfl

/-- At MODE 0, 1 or 2 the output is that of Truncate, Linear2 or Cubic4 (R176). -/
theorem interp_of_ne_three (d : Nat) (s : State) (h : s.mode ≠ 3#2) :
    interp d s = some
      (if s.mode = 0#2 then truncate (phaseIndex s) s
      else if s.mode = 1#2 then linear2 (d + 1) (phaseIndex s) (phaseFraction d s) s
      else cubic4 (d + 1) (phaseIndex s) (phaseFraction d s) s) := by
  obtain h0 | h1 | h2 | h3 : s.mode = 0#2 ∨ s.mode = 1#2 ∨ s.mode = 2#2 ∨ s.mode = 3#2 := by
    generalize s.mode = m
    revert m
    decide
  · simp [interp, h0]
  · simp [interp, h1]
  · simp [interp, h2]
  · exact absurd h3 h

/-- A playback sample with an output emits it and advances (R179). -/
theorem playbackSample_of_some {f : FrameWord} {s : State} {y : F32} (h : interp (s.draws + 4) s = some y) :
    playbackSample f s = advance (s.draws + 23) (beginPlayback f s).1 (emit y (beginPlayback f s).2) := by
  simp only [playbackSample, interp_beginPlayback, h]

/-- A playback sample without one raises INTERNAL_MODE (R176). -/
theorem playbackSample_of_none {f : FrameWord} {s : State} (h : interp (s.draws + 4) s = none) :
    playbackSample f s = (raiseFault .internalMode (beginPlayback f s).2, .faulted) := by
  simp only [playbackSample, interp_beginPlayback, h]

/-- A block of one playback sample (R200, R201). -/
theorem exec_processBlock_one_idle {f : FrameWord} {fs : List FrameWord} {s : State} (hf : s.fault = 0#2)
    (hc : s.capState = .idle) (hfr : s.frames = f :: fs) :
    exec (.processBlock 1#32) s =
      .next (settle ((⟨1, 0, none, none⟩ : Block).afterEvent (playbackSample f s).2) fs (playbackSample f s).1) := by
  rw [← slot_idle f s hc]
  exact execProcessBlock_one f fs s hf hfr

/-- A block's one slot ends in the advance: PHASE moves and the answer is OK, or PHASE is kept and the answer is FAULTED
(R180, R205). -/
theorem settle_advance (d : Nat) (inc : F32) (fs : List FrameWord) (s : State) (hf : s.fault = 0#2) :
    settle ((⟨1, 0, none, none⟩ : Block).afterEvent (advance d inc s).2) fs (advance d inc s).1 =
      { s with
        phase := if isFinite (fadd d s.phase inc) then wrap s.size.toNat (fadd d s.phase inc) else s.phase
        fault := if isFinite (fadd d s.phase inc) then s.fault else 0b01#2
        frames := fs
        inProgress := none
        responses := s.responses ++
          [if isFinite (fadd d s.phase inc) then 0#64 else 0x0300000000000000#64] } := by
  obtain ⟨hfin, heq⟩ | ⟨hinf, heq⟩ := advance_cases d inc s
  · rw [heq]
    simp only [hfin, if_true]
    rfl
  · rw [heq]
    simp only [hinf, raiseFault, hf]
    rfl

/-- Settles O31: the first half, the output of the kernel that MODE selects, and the advance. -/
theorem playbackSlotFollowsTheRules : Obligations.PlaybackSlotFollowsTheRules := by
  unfold Obligations.PlaybackSlotFollowsTheRules
  intro f fs s hf hc hmode hfr
  refine ⟨s.draws, s.draws + drawsPerSlot, ?_⟩
  rw [exec_processBlock_one_idle hf hc hfr, playbackSample_of_some (interp_of_ne_three _ s hmode), beginPlayback_eq,
    settle_advance]
  · rfl
  · exact hf

/-- Settles O32: INTERP has no output at MODE 3, so the slot ends after its first half, with the fault. -/
theorem modeThreeRaisesInternalMode : Obligations.ModeThreeRaisesInternalMode := by
  unfold Obligations.ModeThreeRaisesInternalMode
  intro f fs s hf hc hmode hfr
  refine ⟨s.draws, s.draws + drawsPerSlot, ?_⟩
  have hnone : interp (s.draws + 4) s = none := (interp_eq_none_iff _ s).mpr hmode
  rw [exec_processBlock_one_idle hf hc hfr, playbackSample_of_none hnone, beginPlayback_eq]
  simp only [raiseFault, hf]
  rfl

end Sys2Proof.Machine

/-! The oscillator's arithmetic (R171 to R178): which operations are exact, WRAP, and the source's loop. -/

namespace Sys2Proof.Machine

/-! Exact operations. -/

/-- The number of units 2^-149 is that of some finite binary32: a significand below 2^24 at a place of the grid, below 2^128
(R9). -/
def Representable (m : Nat) : Prop := ∃ c e, c < 2 ^ 24 ∧ m = c * 2 ^ e ∧ m < 2 ^ 149 * 2 ^ 128

theorem representable_magnitude {x : F32} (h : isFinite x = true) : Representable (magnitude x) := by
  obtain ⟨c, e, hc, -, hm⟩ := magnitude_form x
  exact ⟨c, e, hc, hm, magnitude_lt x h⟩

theorem representable_magnitude_mod {x : F32} (h : isFinite x = true) (j : Nat) :
    Representable (magnitude x % 2 ^ j) := by
  obtain ⟨c, e, hc, hm, hlt⟩ := magnitude_mod x h j
  exact ⟨c, e, hc, hm, hm ▸ hlt⟩

/-- The whole multiples of 2^j in a finite magnitude are its upper places, so they are representable too. -/
theorem representable_magnitude_div {x : F32} (h : isFinite x = true) (j : Nat) :
    Representable (magnitude x / 2 ^ j * 2 ^ j) := by
  obtain ⟨c, e, hc, -, hm⟩ := magnitude_form x
  have hlt : magnitude x / 2 ^ j * 2 ^ j < 2 ^ 149 * 2 ^ 128 :=
    lt_of_le_of_lt (Nat.div_mul_le_self _ _) (magnitude_lt x h)
  by_cases hj : j ≤ e
  · refine ⟨c, e, hc, ?_, hlt⟩
    rw [hm, Nat.div_mul_cancel (Dvd.dvd.mul_left (Nat.pow_dvd_pow 2 hj) c)]
  · refine ⟨magnitude x / 2 ^ j, j, ?_, rfl, hlt⟩
    have hle : 2 ^ e ≤ 2 ^ j := Nat.pow_le_pow_right (by norm_num) (by omega)
    calc magnitude x / 2 ^ j ≤ magnitude x / 2 ^ e := Nat.div_le_div_left hle (Nat.two_pow_pos e)
      _ = c := by rw [hm, Nat.mul_div_cancel _ (Nat.two_pow_pos e)]
      _ < 2 ^ 24 := hc

/-- Subtracting 2^j from a magnitude up to 2^24 · 2^j loses nothing: the places of the difference are those of the
magnitude, or the multiples of 2^j below 2^24 · 2^j (R178). -/
theorem representable_magnitude_sub {x : F32} (h : isFinite x = true) {j : Nat}
    (hhi : magnitude x ≤ 2 ^ 24 * 2 ^ j) : Representable (magnitude x - 2 ^ j) := by
  obtain ⟨c, e, hc, -, hm⟩ := magnitude_form x
  have hlt : magnitude x - 2 ^ j < 2 ^ 149 * 2 ^ 128 := lt_of_le_of_lt (Nat.sub_le _ _) (magnitude_lt x h)
  by_cases hj : j ≤ e
  · have hsplit : magnitude x = c * 2 ^ (e - j) * 2 ^ j := by
      rw [hm, Nat.mul_assoc, ← pow_add, Nat.sub_add_cancel hj]
    have hmul : c * 2 ^ (e - j) ≤ 2 ^ 24 := Nat.le_of_mul_le_mul_right (hsplit ▸ hhi) (Nat.two_pow_pos j)
    refine ⟨c * 2 ^ (e - j) - 1, j, by omega, ?_, hlt⟩
    rw [Nat.sub_one_mul, ← hsplit]
  · have hpow : 2 ^ j = 2 ^ (j - e) * 2 ^ e := by rw [← pow_add, Nat.sub_add_cancel (by omega)]
    exact ⟨c - 2 ^ (j - e), e, lt_of_le_of_lt (Nat.sub_le _ _) hc, by rw [Nat.sub_mul, ← hpow, ← hm], hlt⟩

/-- round32 gives a representable value itself. -/
theorem round32_of_representable (neg : Bool) {m : Nat} (h : Representable m) :
    isFinite (round32 neg m 149) = true ∧ magnitude (round32 neg m 149) = m := by
  obtain ⟨c, e, hc, rfl, hlt⟩ := h
  exact round32_of_sig neg c e hc hlt

@[simp] theorem natAbs_scaled (x : F32) : (scaled x).natAbs = magnitude x := by
  rw [scaled]
  split <;> omega

/-- A sum whose exact value is representable is exact (R10). -/
theorem fadd_exact (d : Nat) {a b : F32} (ha : isFinite a = true) (hb : isFinite b = true)
    (h : Representable (scaled a + scaled b).natAbs) :
    isFinite (fadd d a b) = true ∧ scaled (fadd d a b) = scaled a + scaled b := by
  rw [fadd_finite d a b ha hb]
  by_cases hzero : scaled a + scaled b = 0
  · rw [if_pos hzero, hzero]
    split <;> decide
  · obtain ⟨hfin, hmag⟩ := round32_of_representable (decide (scaled a + scaled b < 0)) h
    rw [if_neg hzero]
    refine ⟨hfin, ?_⟩
    rw [scaled_round32, hmag]
    by_cases hneg : scaled a + scaled b < 0
    · rw [if_pos (decide_eq_true hneg)]
      omega
    · rw [if_neg (by simpa using hneg)]
      omega

/-- A difference whose exact value is representable is exact (R10). -/
theorem fsub_exact (d : Nat) {a b : F32} (ha : isFinite a = true) (hb : isFinite b = true)
    (h : Representable (scaled a - scaled b).natAbs) :
    isFinite (fsub d a b) = true ∧ scaled (fsub d a b) = scaled a - scaled b := by
  have heq : scaled a + scaled (fneg b) = scaled a - scaled b := by rw [scaled_fneg, sub_eq_add_neg]
  rw [← heq] at h ⊢
  exact fadd_exact d ha ((isFinite_fneg b).trans hb) h

/-- A sum of value at least 0, not of two negative operands, is round32 of its exact value, with a positive sign (R10). -/
theorem fadd_of_nonneg (d : Nat) {a b : F32} (ha : isFinite a = true) (hb : isFinite b = true)
    (hsign : (signBit a && signBit b) = false) (h : 0 ≤ scaled a + scaled b) :
    fadd d a b = round32 false (scaled a + scaled b).toNat 149 := by
  rw [fadd_finite d a b ha hb]
  by_cases hzero : scaled a + scaled b = 0
  · rw [if_pos hzero, hsign, hzero]
    decide
  · rw [if_neg hzero, decide_eq_false (by omega), ← Int.toNat_of_nonneg h]
    rfl

/-- An integer whose value is representable is converted exactly (R10). -/
theorem toF32_exact {n : Nat} (h : Representable (n * scale)) :
    isFinite (toF32 n) = true ∧ scaled (toF32 n) = (n * scale : Nat) := by
  obtain ⟨hfin, hmag⟩ := round32_of_representable false h
  refine ⟨hfin, ?_⟩
  rw [toF32, scaled_round32, hmag]
  rfl

/-! The fraction (R172) and the increment (R171). -/

/-- The floor of a finite value of at least 0 (R10). -/
theorem floorNat_eq {p : F32} (hfin : isFinite p = true) (h : 0 ≤ scaled p) : floorNat p = magnitude p / scale := by
  rw [floorNat, if_pos ⟨hfin, h⟩, scaled_of_nonneg p h]
  rfl

/-- Settles O45: the floor is the upper places of the phase and the fraction the lower ones, so both are representable. -/
theorem fractionIsExact : Obligations.FractionIsExact := by
  unfold Obligations.FractionIsExact
  intro k d s hk hsize hfin hnonneg hlt
  have hphase : scaled s.phase = magnitude s.phase := scaled_of_nonneg _ hnonneg
  have hfloor := floorNat_eq hfin hnonneg
  obtain ⟨hfin', hvalue⟩ := toF32_exact (n := floorNat s.phase) (by
    rw [hfloor]
    exact representable_magnitude_div hfin 149)
  have hdiff : scaled s.phase - scaled (toF32 (floorNat s.phase)) = (magnitude s.phase % scale : Nat) := by
    rw [hvalue, hphase, hfloor]
    have := Nat.div_add_mod' (magnitude s.phase) scale
    omega
  obtain ⟨hfrac, hfracValue⟩ := fsub_exact d hfin hfin' (by
    rw [hdiff]
    exact representable_magnitude_mod hfin 149)
  refine ⟨?_, hfrac, ?_⟩
  · rw [phaseFraction, hfracValue, hdiff, hphase]
    exact Int.natCast_mod _ _
  · have hbelow : floorNat s.phase < s.size.toNat := by
      rw [hfloor]
      exact Nat.div_lt_of_lt_mul (by rw [Nat.mul_comm]; omega)
    exact maskIndex_of_lt hsize hbelow

/-- Overflow does not depend on the units the value is counted in. -/
theorem isFinite_round32_scale (neg : Bool) (m : Nat) :
    isFinite (round32 neg (m * scale) 298) = true ↔ isFinite (round32 neg m 149) = true := by
  have hpow : (2 ^ 128 - 2 ^ 103) * 2 ^ 298 = (2 ^ 128 - 2 ^ 103) * 2 ^ 149 * scale := by
    rw [scale, Nat.mul_assoc, ← pow_add]
  rw [← not_iff_not, Bool.not_eq_true, Bool.not_eq_true, isFinite_round32_eq_false_iff _ _ _ (by norm_num),
    isFinite_round32_eq_false_iff _ _ _ le_rfl, hpow]
  exact Nat.mul_le_mul_right_iff (Nat.two_pow_pos 149)

/-- A product, in units of 2^-298, whose value is representable is exact (R10). -/
theorem round32_product_of_representable (neg : Bool) {m : Nat} (h : Representable m) :
    isFinite (round32 neg (m * scale) 298) = true ∧ magnitude (round32 neg (m * scale) 298) = m := by
  have hfin := (isFinite_round32_scale neg m).mpr (round32_of_representable neg h).1
  refine ⟨hfin, ?_⟩
  obtain ⟨c, e, hc, rfl, -⟩ := h
  rw [scale, Nat.mul_assoc, ← pow_add] at hfin ⊢
  rw [round32_exact neg c (e + 149) 298 hc (by omega) hfin, Nat.add_sub_assoc (by norm_num)]
  rfl

/-- Settles O46: multiplying by SIZE shifts the places of m, so the product is representable up to 2^128. -/
theorem incrementIsExact : Obligations.IncrementIsExact := by
  unfold Obligations.IncrementIsExact
  intro k d m s hk hsize hfin _ hlt
  obtain ⟨hN, hsign, hmag⟩ := toF32_pow k hk
  have hproduct : Representable (magnitude m * 2 ^ k) := by
    obtain ⟨c, e, hc, -, hm⟩ := magnitude_form m
    exact ⟨c, e + k, hc, by rw [hm, Nat.mul_assoc, ← pow_add], hlt⟩
  obtain ⟨hinc, hvalue⟩ := round32_product_of_representable false hproduct
  have heq : increment d m s = round32 false (magnitude m * 2 ^ k * scale) 298 := by
    rw [increment, hsize, fmul_finite d _ _ ((isFinite_fabs m).trans hfin) hN, signBit_fabs, hsign, magnitude_fabs, hmag,
      Nat.mul_assoc]
    rfl
  rw [heq]
  exact ⟨by rw [scaled_round32, hvalue]; rfl, hinc⟩

/-! The kernels at an integer phase (R173 to R175). -/

/-- A finite product with a zero factor is a zero (R10). -/
theorem magnitude_fmul_zero (d : Nat) {a b : F32} (h : isFinite (fmul d a b) = true)
    (hzero : magnitude a = 0 ∨ magnitude b = 0) : magnitude (fmul d a b) = 0 := by
  obtain ⟨ha, hb⟩ := finite_of_fmul d a b h
  rw [fmul_finite d a b ha hb, Nat.mul_eq_zero.mpr hzero]
  exact (round32_product_of_representable (m := 0) _ ⟨0, 0, by norm_num, rfl, by positivity⟩).2

/-- Adding a zero keeps the value (R10). -/
theorem scaled_fadd_zero (d : Nat) {a b : F32} (ha : isFinite a = true) (hb : isFinite b = true)
    (hzero : magnitude b = 0) : scaled (fadd d a b) = scaled a := by
  have hb0 : scaled b = 0 := Int.natAbs_eq_zero.mp ((natAbs_scaled b).trans hzero)
  have hsum : scaled a + scaled b = scaled a := by rw [hb0, add_zero]
  rw [(fadd_exact d ha hb (by rw [hsum, natAbs_scaled]; exact representable_magnitude ha)).2, hsum]

/-- Settles O47: each kernel adds to T(i) a product with the fraction, which is a zero wherever it is finite. -/
theorem kernelsMeetTruncateAtIntegerPhase : Obligations.KernelsMeetTruncateAtIntegerPhase := by
  unfold Obligations.KernelsMeetTruncateAtIntegerPhase
  intro d i s hT
  have hf : magnitude 0#32 = 0 := by decide
  refine ⟨fun hfin => ?_, fun hfin => ?_⟩
  · obtain ⟨-, hproduct⟩ := finite_of_fadd _ _ _ hfin
    exact scaled_fadd_zero _ hT hproduct (magnitude_fmul_zero _ hproduct (.inl hf))
  · obtain ⟨-, hproduct⟩ := finite_of_fadd _ _ _ hfin
    obtain ⟨hhalf, -⟩ := finite_of_fmul _ _ _ hproduct
    have hzero := magnitude_fmul_zero _ hhalf (.inr hf)
    exact scaled_fadd_zero _ hT hproduct (magnitude_fmul_zero _ hproduct (.inl hzero))

/-! WRAP (R177). -/

/-- N in units of 2^-149 is the power of two 2^(149 + k). -/
theorem size_units (k : Nat) : 2 ^ k * scale = 2 ^ (149 + k) := by rw [scale, ← pow_add, Nat.add_comm]

/-- N is a positive number of units. -/
theorem size_units_pos (k : Nat) : 0 < 2 ^ k * scale := by rw [size_units]; positivity

/-- ⟦p⟧ lies in [0, N), N = 2^k. -/
def InTable (k : Nat) (p : F32) : Prop := 0 ≤ scaled p ∧ scaled p < (2 ^ k * scale : Nat)

/-- ⟦p⟧ - N · floor(⟦p⟧ / N), in units of 2^-149 (R177). -/
def residue (k : Nat) (p : F32) : Nat := (scaled p % ((2 ^ k * scale : Nat) : Int)).toNat

theorem natCast_residue (k : Nat) (p : F32) : (residue k p : Int) = scaled p % ((2 ^ k * scale : Nat) : Int) :=
  Int.toNat_of_nonneg (Int.emod_nonneg _ (by exact_mod_cast (size_units_pos k).ne'))

theorem residue_lt (k : Nat) (p : F32) : residue k p < 2 ^ k * scale := by
  have hpos : (0 : Int) < (2 ^ k * scale : Nat) := by exact_mod_cast size_units_pos k
  have hlt := Int.emod_lt_of_pos (scaled p) hpos
  rw [← natCast_residue] at hlt
  exact_mod_cast hlt

/-- WRAP keeps what already lies in the table. -/
theorem wrap_of_inTable {k : Nat} {p : F32} (h : InTable k p) : wrap (2 ^ k) p = p := if_pos h

/-- Outside WRAP is the rounded residue, with N itself taken to +0.0. -/
theorem wrap_of_not_inTable {k : Nat} {p : F32} (h : ¬ InTable k p) :
    wrap (2 ^ k) p =
      if scaled (round32 false (residue k p) 149) = (2 ^ k * scale : Nat) then 0#32
      else round32 false (residue k p) 149 := if_neg h

/-- Settles O42: the residue lies below N, and where its rounding reaches N the result is +0.0. -/
theorem wrapLandsInRange : Obligations.WrapLandsInRange := by
  unfold Obligations.WrapLandsInRange
  intro k p _ hk hp
  exact wrap_inRange k p hk hp

/-- At or above 0 the residue is that of the magnitude. -/
theorem residue_of_nonneg (k : Nat) {p : F32} (h : 0 ≤ scaled p) : residue k p = magnitude p % (2 ^ k * scale) := by
  rw [residue, scaled_of_nonneg p h]
  exact_mod_cast rfl

/-- From N up the residue is representable, so rounding keeps it (R177). -/
theorem round32_residue_of_le {k : Nat} {p : F32} (hp : isFinite p = true)
    (h : ((2 ^ k * scale : Nat) : Int) ≤ scaled p) :
    isFinite (round32 false (residue k p) 149) = true ∧ scaled (round32 false (residue k p) 149) = residue k p := by
  have hrep : Representable (residue k p) := by
    rw [residue_of_nonneg k (le_trans (Int.natCast_nonneg _) h), size_units]
    exact representable_magnitude_mod hp _
  obtain ⟨hfin, hmag⟩ := round32_of_representable false hrep
  exact ⟨hfin, by rw [scaled_round32, hmag]; rfl⟩

/-- Settles O43: the residue is representable and below N, so WRAP neither rounds it nor takes it to +0.0. -/
theorem wrapIsExactFromNUp : Obligations.WrapIsExactFromNUp := by
  unfold Obligations.WrapIsExactFromNUp
  intro k p _ hk hp hN
  obtain ⟨-, hvalue⟩ := round32_residue_of_le hp hN
  have hlt := residue_lt k p
  rw [wrap_of_not_inTable (fun h => absurd h.2 (by omega)), if_neg (by rw [hvalue]; omega), hvalue, natCast_residue]

/-! The source's loop (R178). -/

/-- Outside the table WRAP sees the residue alone. -/
theorem wrap_congr {k : Nat} {p q : F32} (hp : ¬ InTable k p) (hq : ¬ InTable k q) (h : residue k q = residue k p) :
    wrap (2 ^ k) q = wrap (2 ^ k) p := by
  rw [wrap_of_not_inTable hp, wrap_of_not_inTable hq, h]

/-- A rounded residue lies between 0 and N. -/
theorem round32_residue_le {k : Nat} (hk : k ≤ 31) (p : F32) :
    isFinite (round32 false (residue k p) 149) = true ∧ 0 ≤ scaled (round32 false (residue k p) 149) ∧
      scaled (round32 false (residue k p) 149) ≤ (2 ^ k * scale : Nat) := by
  obtain ⟨hfin, hle⟩ := round32_le_pow false (residue k p) 149 k (by omega) le_rfl (size_units k ▸ residue_lt k p)
  rw [← size_units] at hle
  rw [scaled_round32, if_neg Bool.false_ne_true]
  exact ⟨hfin, Int.natCast_nonneg _, by exact_mod_cast hle⟩

/-- The rounded residue of a value outside the table wraps as the value does: below N it stays, and N becomes +0.0. -/
theorem wrap_round32_residue {k : Nat} (hk : k ≤ 31) {p : F32} (h : ¬ InTable k p) :
    wrap (2 ^ k) (round32 false (residue k p) 149) = wrap (2 ^ k) p := by
  obtain ⟨-, hnonneg, hle⟩ := round32_residue_le hk p
  rw [wrap_of_not_inTable h]
  by_cases hN : scaled (round32 false (residue k p) 149) = (2 ^ k * scale : Nat)
  · have hzero : residue k (round32 false (residue k p) 149) = 0 := by rw [residue, hN, Int.emod_self]; rfl
    have hround : round32 false 0 149 = 0#32 := by decide
    rw [if_pos hN, wrap_of_not_inTable (fun hin => absurd hin.2 (by omega)), hzero, hround, ite_self]
  · rw [if_neg hN, wrap_of_inTable ⟨hnonneg, by omega⟩]

/-- The values the loop meets: finite, and up to N · 2^24 in magnitude. -/
def InLoop (k : Nat) (q : F32) : Prop := isFinite q = true ∧ magnitude q ≤ 2 ^ 24 * (2 ^ k * scale)

/-- What every step of the loop lowers: the magnitude, counted N higher below 0. -/
def loopMeasure (k : Nat) (q : F32) : Nat := if scaled q < 0 then 2 ^ k * scale + magnitude q else magnitude q

/-- A step from q to q' comes nearer to the loop's end and keeps what q wraps to. -/
def Approaches (k : Nat) (q q' : F32) : Prop :=
  loopMeasure k q' < loopMeasure k q ∧ wrap (2 ^ k) q' = wrap (2 ^ k) q

/-- N as a binary32 has the value N. -/
theorem scaled_size {k : Nat} (hk : k ≤ 31) : scaled (toF32 (2 ^ k)) = (2 ^ k * scale : Nat) := by
  obtain ⟨-, hsign, hmag⟩ := toF32_pow k hk
  rw [scaled, hsign, hmag]
  rfl

/-- A positive value has a positive sign. -/
theorem signBit_of_pos {x : F32} (h : 0 < scaled x) : signBit x = false := by
  by_contra hsign
  rw [scaled, if_pos (by simpa using hsign)] at h
  omega

section Steps
variable {k : Nat} {q : F32}

/-- From N up subtracting N loses nothing. -/
theorem fsub_size_exact (hk : k ≤ 31) (d : Nat) (hq : InLoop k q) (hN : ((2 ^ k * scale : Nat) : Int) ≤ scaled q) :
    isFinite (fsub d q (toF32 (2 ^ k))) = true ∧
      scaled (fsub d q (toF32 (2 ^ k))) = scaled q - (2 ^ k * scale : Nat) := by
  obtain ⟨hfin, hle⟩ := hq
  have habs := natAbs_scaled q
  rw [← scaled_size hk]
  refine fsub_exact d hfin (toF32_pow k hk).1 ?_
  have heq : (scaled q - scaled (toF32 (2 ^ k))).natAbs = magnitude q - 2 ^ (149 + k) := by
    rw [scaled_size hk, ← size_units]
    omega
  rw [heq]
  exact representable_magnitude_sub hfin (size_units k ▸ hle)

/-- From -N down adding N loses nothing. -/
theorem fadd_size_exact (hk : k ≤ 31) (d : Nat) (hq : InLoop k q)
    (hN : scaled q ≤ -((2 ^ k * scale : Nat) : Int)) :
    isFinite (fadd d q (toF32 (2 ^ k))) = true ∧
      scaled (fadd d q (toF32 (2 ^ k))) = scaled q + (2 ^ k * scale : Nat) := by
  obtain ⟨hfin, hle⟩ := hq
  have habs := natAbs_scaled q
  rw [← scaled_size hk]
  refine fadd_exact d hfin (toF32_pow k hk).1 ?_
  have heq : (scaled q + scaled (toF32 (2 ^ k))).natAbs = magnitude q - 2 ^ (149 + k) := by
    rw [scaled_size hk, ← size_units]
    omega
  rw [heq]
  exact representable_magnitude_sub hfin (size_units k ▸ hle)

/-- From N to below 2N the difference is the rounded residue, bit for bit. -/
theorem fsub_size_eq_round32_residue (hk : k ≤ 31) (d : Nat) (hfin : isFinite q = true)
    (hN : ((2 ^ k * scale : Nat) : Int) ≤ scaled q) (hlast : scaled q - (2 ^ k * scale : Nat) < (2 ^ k * scale : Nat)) :
    fsub d q (toF32 (2 ^ k)) = round32 false (residue k q) 149 := by
  have hNpos := size_units_pos k
  have hdiff : scaled q + scaled (fneg (toF32 (2 ^ k))) = scaled q - (2 ^ k * scale : Nat) := by
    rw [scaled_fneg, scaled_size hk, sub_eq_add_neg]
  rw [residue, ← Int.sub_emod_right, Int.emod_eq_of_lt (by omega) hlast, ← hdiff]
  exact fadd_of_nonneg d hfin ((isFinite_fneg _).trans (toF32_pow k hk).1)
    (by rw [signBit_of_pos (by omega), Bool.false_and]) (by omega)

/-- From -N to below 0 the sum is the rounded residue, bit for bit. -/
theorem fadd_size_eq_round32_residue (hk : k ≤ 31) (d : Nat) (hfin : isFinite q = true) (hneg : scaled q < 0)
    (hlast : 0 ≤ scaled q + (2 ^ k * scale : Nat)) :
    fadd d q (toF32 (2 ^ k)) = round32 false (residue k q) 149 := by
  obtain ⟨hfinN, hsign, -⟩ := toF32_pow k hk
  rw [residue, ← Int.add_emod_right, Int.emod_eq_of_lt hlast (by omega), ← scaled_size hk]
  rw [← scaled_size hk] at hlast
  exact fadd_of_nonneg d hfin hfinN (by rw [hsign, Bool.and_false]) hlast

/-- A step that loses nothing and stays outside the table keeps what the value wraps to. -/
theorem wrap_of_exact_step {q' : F32} (hq : ¬ InTable k q) (hq' : ¬ InTable k q')
    (h : scaled q' = scaled q - (2 ^ k * scale : Nat) ∨ scaled q' = scaled q + (2 ^ k * scale : Nat)) :
    wrap (2 ^ k) q' = wrap (2 ^ k) q := by
  refine wrap_congr hq hq' ?_
  obtain h | h := h
  · rw [residue, h, Int.sub_emod_right, residue]
  · rw [residue, h, Int.add_emod_right, residue]

/-- From N up the loop subtracts N: exactly, and the last difference is the residue. -/
theorem approaches_subtract (hk : k ≤ 31) (d : Nat) (hq : InLoop k q)
    (hN : ((2 ^ k * scale : Nat) : Int) ≤ scaled q) :
    0 ≤ scaled (fsub d q (toF32 (2 ^ k))) ∧ InLoop k (fsub d q (toF32 (2 ^ k))) ∧
      Approaches k q (fsub d q (toF32 (2 ^ k))) := by
  obtain ⟨hfin', hval'⟩ := fsub_size_exact hk d hq hN
  obtain ⟨hfin, hle⟩ := hq
  have hNpos := size_units_pos k
  have hout : ¬ InTable k q := fun h => absurd h.2 (by omega)
  have hnonneg : 0 ≤ scaled (fsub d q (toF32 (2 ^ k))) := by omega
  have hmag := scaled_of_nonneg q (by omega)
  have hmag' := scaled_of_nonneg _ hnonneg
  refine ⟨hnonneg, ⟨hfin', by omega⟩, ?_, ?_⟩
  · rw [loopMeasure, loopMeasure, if_neg (by omega), if_neg (by omega)]
    omega
  · by_cases hlast : scaled q - (2 ^ k * scale : Nat) < (2 ^ k * scale : Nat)
    · rw [fsub_size_eq_round32_residue hk d hfin hN hlast]
      exact wrap_round32_residue hk hout
    · exact wrap_of_exact_step hout (fun h => absurd h.2 (by omega)) (.inl hval')

/-- Below 0 the loop adds N: exactly while the sum stays below 0, and the last sum is the rounded residue. -/
theorem approaches_add (hk : k ≤ 31) (d : Nat) (hq : InLoop k q) (hneg : scaled q < 0) :
    InLoop k (fadd d q (toF32 (2 ^ k))) ∧ Approaches k q (fadd d q (toF32 (2 ^ k))) := by
  have hNpos := size_units_pos k
  have habs := natAbs_scaled q
  have hout : ¬ InTable k q := fun h => absurd h.1 (by omega)
  by_cases hlast : 0 ≤ scaled q + (2 ^ k * scale : Nat)
  · rw [fadd_size_eq_round32_residue hk d hq.1 hneg hlast]
    obtain ⟨hfin', hnonneg, hleN⟩ := round32_residue_le hk q
    have hmag' := scaled_of_nonneg _ hnonneg
    refine ⟨⟨hfin', by omega⟩, ?_, wrap_round32_residue hk hout⟩
    rw [loopMeasure, loopMeasure, if_neg (by omega), if_pos hneg]
    omega
  · obtain ⟨hfin', hval'⟩ := fadd_size_exact hk d hq (by omega)
    have habs' := natAbs_scaled (fadd d q (toF32 (2 ^ k)))
    have hle := hq.2
    refine ⟨⟨hfin', by omega⟩, ?_, wrap_of_exact_step hout (fun h => absurd h.1 (by omega)) (.inr hval')⟩
    rw [loopMeasure, loopMeasure, if_pos (by omega), if_pos hneg]
    omega

end Steps

/-- A loop whose steps outside the table approach its end stops at WRAP, bit for bit; every value before the last lies outside
the table, and keeps what every step keeps. -/
theorem exists_iterate_eq_wrap {k : Nat} {body : F32 → F32} {P : F32 → Prop}
    (hstep : ∀ q, P q → ¬ InTable k q → P (body q) ∧ Approaches k q (body q)) (p : F32) (hp : P p) :
    ∃ n, body^[n] p = wrap (2 ^ k) p ∧ ∀ j < n, P (body^[j] p) ∧ ¬ InTable k (body^[j] p) := by
  induction hm : loopMeasure k p using Nat.strong_induction_on generalizing p with
  | _ m ih =>
    by_cases hin : InTable k p
    · exact ⟨0, (wrap_of_inTable hin).symm, fun j hj => absurd hj (Nat.not_lt_zero j)⟩
    · obtain ⟨hP, hless, hwrap⟩ := hstep p hp hin
      obtain ⟨n, hend, hbefore⟩ := ih _ (hm ▸ hless) (body p) hP rfl
      refine ⟨n + 1, by rw [Function.iterate_succ_apply, hend, hwrap], fun j hj => ?_⟩
      cases j with
      | zero => exact ⟨hp, hin⟩
      | succ j => exact hbefore j (by omega)

/-- Settles O44: from 0 up every step outside the table is a subtraction, which leaves a value of at least 0. -/
theorem wrapEqualsTheSubtractionLoop : Obligations.WrapEqualsTheSubtractionLoop := by
  unfold Obligations.WrapEqualsTheSubtractionLoop
  intro k d p _ hk hp hnonneg hle
  have hup : ∀ q, 0 ≤ scaled q → ¬ InTable k q → ((2 ^ k * scale : Nat) : Int) ≤ scaled q :=
    fun q hq hout => not_lt.mp fun hlt => hout ⟨hq, hlt⟩
  have hstep : ∀ q, InLoop k q ∧ 0 ≤ scaled q → ¬ InTable k q →
      (InLoop k (fsub d q (toF32 (2 ^ k))) ∧ 0 ≤ scaled (fsub d q (toF32 (2 ^ k)))) ∧
        Approaches k q (fsub d q (toF32 (2 ^ k))) := by
    rintro q ⟨hq, hq0⟩ hout
    obtain ⟨hnonneg', hloop, happroaches⟩ := approaches_subtract hk d hq (hup q hq0 hout)
    exact ⟨⟨hloop, hnonneg'⟩, happroaches⟩
  have hmag := scaled_of_nonneg p hnonneg
  obtain ⟨n, hend, hbefore⟩ := exists_iterate_eq_wrap hstep p ⟨⟨hp, by omega⟩, hnonneg⟩
  refine ⟨n, hend, fun j hj => ?_⟩
  obtain ⟨⟨-, hj0⟩, hout⟩ := hbefore j hj
  exact hup _ hj0 hout

/-- Settles O51: outside the table the body subtracts from N up and adds below 0. -/
theorem wrapOfANegativeEqualsTheSourceLoop : Obligations.WrapOfANegativeEqualsTheSourceLoop := by
  unfold Obligations.WrapOfANegativeEqualsTheSourceLoop
  intro k d p _ hk hp hneg hle body
  have hstep : ∀ q, InLoop k q → ¬ InTable k q → InLoop k (body q) ∧ Approaches k q (body q) := by
    intro q hq hout
    by_cases hN : ((2 ^ k * scale : Nat) : Int) ≤ scaled q
    · rw [show body q = fsub d q (toF32 (2 ^ k)) from if_pos hN]
      exact (approaches_subtract hk d hq hN).2
    · rw [show body q = fadd d q (toF32 (2 ^ k)) from if_neg hN]
      exact approaches_add hk d hq (not_le.mp fun h0 => hout ⟨h0, not_le.mp hN⟩)
  have habs := natAbs_scaled p
  obtain ⟨n, hend, hbefore⟩ := exists_iterate_eq_wrap hstep p ⟨hp, by omega⟩
  exact ⟨n, hend, fun j hj => (hbefore j hj).2⟩

end Sys2Proof.Machine

/-! The block processor and the system commands (44_block.md): READ_REG (R203), the faulted device (R205), and what a block
keeps and what a fault in it does (R200, R205, R234). -/

namespace Sys2Proof.Machine

open Sys2Proof.Safety

/-! READ_REG (R203). -/

/-- The registers in the order of their numbers (R39). -/
def registers (s : State) : List U32 :=
  [s.size, s.mask, s.mode.setWidth 32, if s.envEn then 1#32 else 0#32, s.attackMs, s.decayMs, s.sampleRate,
    s.attackCoeff, s.decayCoeff, s.envLast, s.phase, s.phaseInc, capStatus s.capState, capRemaining s.capState,
    s.fault.setWidth 32]

theorem registerValue_eq_getElem? (r : U32) (s : State) : registerValue r s = (registers s)[r.toNat]? := by
  rcases Nat.lt_or_ge r.toNat 15 with hr | hr
  · rw [registerValue]
    interval_cases r.toNat <;> rfl
  · rw [List.getElem?_eq_none hr, registerValue]
    split
    case h_16 => rfl
    all_goals omega

/-- Settles O26: the answer is the register at that place of the list, or VALIDATION_ERROR past its end. -/
theorem readRegAnswersTheRegister : Obligations.ReadRegAnswersTheRegister := by
  unfold Obligations.ReadRegAnswersTheRegister
  intro r s
  change execReadReg r s = .next { s with responses := s.responses ++
    [match (registers s)[r.toNat]? with | some v => (0#32 ++ v : BitVec 64) | none => 0x0100000000000000#64] }
  rw [execReadReg, registerValue_eq_getElem?]
  cases (registers s)[r.toNat]? with
  | some v => rfl
  | none => rfl

/-! The faulted device (R205). -/

/-- A faulted device answers FAULTED to a command other than PROCESS_BLOCK and READ_REG (R79, R205). -/
theorem exec_of_faulted {i : Instr} {s : State} (hf : s.fault ≠ 0#2) (hblock : i.opcode ≠ 0x08#8)
    (hread : i.opcode ≠ 0x09#8) : exec i s = .next (respond .faulted 0#32 s) := by
  cases i with
  | processBlock n => exact absurd rfl hblock
  | readReg r => exact absurd rfl hread
  | _ => exact unlessFaulted_faulted s _ hf

/-- On a faulted device a PROCESS_BLOCK with its frames at hand consumes them and answers FAULTED (R205). -/
theorem exec_processBlock_of_faulted {n : U32} {s : State} (hf : s.fault ≠ 0#2) (hn : n.toNat ≤ s.frames.length) :
    exec (.processBlock n) s =
      .next (respond .faulted 0#32 { s with frames := s.frames.drop n.toNat, inProgress := none }) := by
  rw [exec_processBlock, blockOf, if_neg hf, runFrames_verdict _ _ _ _ _ _ hn]

/-- On a faulted device a word that is no command has the status FAULTED, but for READ_REG's opcode (R79). -/
theorem rejectStatus_eq_faulted {w : CommandWord} {s : State} (hf : s.fault ≠ 0#2) (ho : opcField w ≠ 0x09#8) :
    rejectStatus w s = .faulted := if_pos ⟨hf, ho⟩

/-- Opcode 0x08 is PROCESS_BLOCK's (R76). -/
theorem eq_processBlock_of_opcode (i : Instr) (h : i.opcode = 0x08#8) : i = .processBlock i.arg := by
  cases i with
  | processBlock n => rfl
  | _ => cases h

section Faulted
variable {w : CommandWord} {ws : List CommandWord} {s : State} (hp : s.inProgress = none) (hq : s.queue = w :: ws)
  (hf : s.fault ≠ 0#2)
include hp hq hf

/-- A faulted device answers FAULTED, and does nothing else, to a word of another opcode than 0x08 and 0x09, command or
not (R205). -/
theorem deviceStep_of_faulted (hblock : opcField w ≠ 0x08#8) (hread : opcField w ≠ 0x09#8) :
    deviceStep s = .next (respond .faulted 0#32 { s with queue := ws }) := by
  cases hd : decode w with
  | ok i =>
    obtain ⟨hopc, -, -, -⟩ := decode_ok w i hd
    rw [deviceStep_ok hp hq hd]
    exact exec_of_faulted hf (hopc ▸ hblock) (hopc ▸ hread)
  | error e =>
    rw [deviceStep_error hp hq hd, rejectWord_of_ne w _ hblock,
      rejectStatus_eq_faulted (s := { s with queue := ws }) hf hread]

/-- A faulted device answers FAULTED to a word of opcode 0x08, command or not, and consumes its frames (R205, R82). -/
theorem deviceStep_block_of_faulted (hblock : opcField w = 0x08#8) (hn : (argField w).toNat ≤ s.frames.length) :
    deviceStep s = .next
      (respond .faulted 0#32 { s with queue := ws, frames := s.frames.drop (argField w).toNat, inProgress := none }) := by
  cases hd : decode w with
  | ok i =>
    obtain ⟨hopc, -, harg, -⟩ := decode_ok w i hd
    rw [deviceStep_ok hp hq hd, eq_processBlock_of_opcode i (hopc ▸ hblock), ← harg]
    exact exec_processBlock_of_faulted hf hn
  | error e =>
    have hread : opcField w ≠ 0x09#8 := by rw [hblock]; decide
    rw [deviceStep_error hp hq hd, rejectWord_of_eq w { s with queue := ws } hblock hn,
      rejectStatus_eq_faulted (s := { s with queue := ws }) hf hread]

end Faulted

/-- Settles O11: the device answers so, and no FAULT bit changes in it. -/
theorem faultedDeviceAnswersFaulted : Obligations.FaultedDeviceAnswersFaulted := by
  unfold Obligations.FaultedDeviceAnswersFaulted
  intro w ws s hp hq hf hread
  refine ⟨fun hblock => ?_, fun hblock hn => ?_⟩
  · exact step_of_deviceStep (deviceStep_of_faulted hp hq hf hblock hread) rfl
  · have hdevice := deviceStep_block_of_faulted hp hq hf hblock hn
    rw [← hp] at hdevice
    exact step_of_deviceStep hdevice rfl

/-! PROCESS_BLOCK (R200). -/

/-- Settles O28: with no slot to run, the block is its response. -/
theorem emptyBlockChangesNothing : Obligations.EmptyBlockChangesNothing := by
  unfold Obligations.EmptyBlockChangesNothing
  intro s hf hp
  rw [exec_processBlock, runFrames_done _ _ _ rfl, blockOf, if_pos hf]
  simp only [settle, respond, ← hp]
  rfl

/-- A block whose first slot faults ends there: it consumes its other frames and answers FAULTED (R205). -/
theorem exec_processBlock_of_first_faulted {n : U32} {f : FrameWord} {fs : List FrameWord} {s : State}
    (hf : s.fault = 0#2) (hfr : s.frames = f :: fs) (hpos : 1 ≤ n.toNat) (hn : n.toNat ≤ (f :: fs).length)
    (hfault : (slot f s).2 = .faulted) :
    exec (.processBlock n) s =
      .next (respond .faulted 0#32 { (slot f s).1 with frames := (f :: fs).drop n.toNat, inProgress := none }) := by
  obtain ⟨m, hm⟩ : ∃ m, n.toNat = m + 1 := ⟨n.toNat - 1, by omega⟩
  have hstep : frameStep ⟨m + 1, 0, none, none⟩ f s = (⟨m, 1, none, some .faulted⟩, (slot f s).1) := by
    simp only [frameStep, hfault]
    rfl
  rw [hm, List.length_cons] at hn
  rw [exec_processBlock, blockOf, if_pos hf, hfr, hm, runFrames_cons _ _ _ _ (Nat.succ_ne_zero m), hstep,
    runFrames_verdict _ _ _ _ _ _ (by omega), List.drop_succ_cons]

/-- Settles O33: the block of one sample shows that the first slot faults, and so both blocks end there. -/
theorem faultEndsTheBlock : Obligations.FaultEndsTheBlock := by
  unfold Obligations.FaultEndsTheBlock
  intro n s t hf hpos hn hone ht
  cases hfr : s.frames with
  | nil =>
    rw [hfr, List.length_nil] at hn
    omega
  | cons f fs =>
    have hfault : (slot f s).2 = .faulted := by
      refine (slot_fault f s hf).1.mpr fun h0 => ht ?_
      rw [← Host.Outcome.next.inj ((execProcessBlock_one f fs s hf hfr).symm.trans hone), settle]
      split <;> exact h0
    rw [exec_processBlock_of_first_faulted hf hfr le_rfl (Nat.le_add_left _ _) hfault, Host.Outcome.next.injEq] at hone
    rw [exec_processBlock_of_first_faulted hf hfr hpos (hfr ▸ hn) hfault, ← hone]
    rfl

/-! What a block keeps (R200). -/

/-- The configuration registers: SIZE, MODE, ENV_EN, the times, the rate and both coefficients (R23 to R31). -/
def configuration (s : State) : U32 × BitVec 2 × Bool × F32 × F32 × F32 × F32 × F32 :=
  (s.size, s.mode, s.envEn, s.attackMs, s.decayMs, s.sampleRate, s.attackCoeff, s.decayCoeff)

/-- No slot writes a configuration register, and every slot that does not fault sends one output word (R52). -/
theorem slot_configuration_outputs (f : FrameWord) (s : State) :
    configuration (slot f s).1 = configuration s ∧
      ((slot f s).2 ≠ .faulted → (slot f s).1.outputs.length = s.outputs.length + 1) := by
  cases hc : s.capState with
  | recording r =>
    rw [slot_recording f s r hc, captureSample]
    split <;> exact ⟨rfl, fun _ => List.length_append⟩
  | idle =>
    rw [slot_idle f s hc]
    obtain ⟨e, inc, d, -, ⟨y, p, -, h⟩ | ⟨y, h⟩ | ⟨-, h⟩⟩ := playbackSample_cases f s <;> rw [h]
    · exact ⟨rfl, fun _ => List.length_append⟩
    · exact ⟨rfl, fun hne => absurd rfl hne⟩
    · exact ⟨rfl, fun hne => absurd rfl hne⟩

theorem startBlock_configuration (n : Nat) (v : Option Status) (s : State) :
    configuration (startBlock n v s) = configuration s :=
  startBlock_keeps (fun u => configuration u = configuration s)
    (fun f u hu => (slot_configuration_outputs f u).1.trans hu) (fun _ _ _ _ _ hu => hu) n v s rfl

/-- With its frames at hand a block keeps the queue, takes those frames alone and is not in progress after it (R58, R82). -/
theorem execProcessBlock_ports {n : U32} {s t : State} (hn : n.toNat ≤ s.frames.length)
    (h : execProcessBlock n s = .next t) :
    t.queue = s.queue ∧ t.inProgress = none ∧ t.frames = s.frames.drop n.toNat := by
  obtain ⟨b, u, hslots, hexec⟩ := execProcessBlock_enough n s hn
  obtain rfl := Host.Outcome.next.inj (hexec.symm.trans h)
  have hqueue := (frameSteps_keeps_ports (s.frames.take n.toNat) (blockOf n s) s).1
  rw [blockOf, hslots] at hqueue
  exact ⟨hqueue, rfl, rfl⟩

/-- A frame step after which FAULT is 0 has run its slot to the end: the block goes on, one output word longer. -/
theorem frameStep_of_unfaulted {b : Block} {f : FrameWord} {s : State} (hb : b.verdict = none) (hs : s.fault = 0#2)
    (h : (frameStep b f s).2.fault = 0#2) :
    (frameStep b f s).1.verdict = none ∧ (frameStep b f s).2.outputs.length = s.outputs.length + 1 := by
  simp only [frameStep, hb] at h ⊢
  have hquiet : (slot f s).2 ≠ .faulted := fun he => (slot_fault f s hs).1.mp he h
  refine ⟨?_, (slot_configuration_outputs f s).2 hquiet⟩
  cases he : (slot f s).2 with
  | faulted => exact absurd he hquiet
  | quiet => exact hb
  | captureDone => exact hb

/-- Frames after which FAULT is 0 have given an output word each (R52, R200). -/
theorem frameSteps_outputs_of_unfaulted {fs : List FrameWord} {b : Block} {s : State} (hb : b.verdict = none)
    (h : (frameSteps fs b s).2.fault = 0#2) :
    (frameSteps fs b s).2.outputs.length = s.outputs.length + fs.length := by
  induction fs generalizing b s with
  | nil => rfl
  | cons f fs ih =>
    have hs := fault_of_frameSteps h
    rw [frameSteps] at h ⊢
    obtain ⟨hverdict, houtputs⟩ := frameStep_of_unfaulted hb hs (fault_of_frameSteps h)
    rw [ih hverdict h, houtputs, List.length_cons]
    omega

/-- Settles O36: no slot writes the configuration, the ports' fields follow from the frames being at hand, and a block that
ends with FAULT 0 began so and has run all its slots. -/
theorem blockKeepsConfigurationAndFraming : Obligations.BlockKeepsConfigurationAndFraming := by
  unfold Obligations.BlockKeepsConfigurationAndFraming
  intro n s t hn h
  change execProcessBlock n s = _ at h
  have hconf := startBlock_configuration n.toNat (if s.fault = 0#2 then none else some .faulted) s
  rw [Host.Outcome.next.inj h] at hconf
  simp only [configuration, Prod.mk.injEq] at hconf
  obtain ⟨hsize, hmode, henv, hattack, hdecay, hrate, hac, hdc⟩ := hconf
  obtain ⟨hqueue, hprogress, hframes⟩ := execProcessBlock_ports hn h
  refine ⟨hsize, hmode, henv, hattack, hdecay, hrate, hac, hdc, hqueue, hprogress, hframes, fun hfault => ?_⟩
  obtain ⟨b, u, hslots, -, -, hexec⟩ := execProcessBlock_unfaulted n s (fault_of_execProcessBlock n s t h hfault) hn
  obtain rfl := Host.Outcome.next.inj (hexec.symm.trans h)
  have houtputs := frameSteps_outputs_of_unfaulted (fs := s.frames.take n.toNat) (b := newBlock n.toNat) (s := s) rfl
  rw [hslots, List.length_take_of_le hn] at houtputs
  exact houtputs hfault

/-! A fault is the outcome of its step (R205, R234). -/

/-- At most one fault is raised: no FAULT bit is set, or the bit of one kind (R233). -/
def AtMostOneFault (s : State) : Prop := s.fault = 0#2 ∨ ∃ k, s.fault = faultBit k

/-- A slot on a device without a fault raises one at most (R180, R176). -/
theorem atMostOneFault_slot (f : FrameWord) (s : State) (hs : s.fault = 0#2) : AtMostOneFault (slot f s).1 := by
  obtain ⟨-, h | h | ⟨h, -⟩⟩ := slot_fault f s hs
  · exact .inl h
  · exact .inr ⟨.nonfinitePhase, h⟩
  · exact .inr ⟨.internalMode, h⟩

theorem atMostOneFault_settle (b : Block) (rest : List FrameWord) (s : State) (hs : AtMostOneFault s) :
    AtMostOneFault (settle b rest s) := by
  rw [settle]
  split <;> exact hs

/-- While a block has no verdict no fault is raised; a slot that raises one gives it its verdict (R205). -/
theorem frameStep_atMostOneFault {b : Block} {f : FrameWord} {s : State} (hb : b.verdict = none → s.fault = 0#2)
    (hs : AtMostOneFault s) :
    ((frameStep b f s).1.verdict = none → (frameStep b f s).2.fault = 0#2) ∧ AtMostOneFault (frameStep b f s).2 := by
  cases hv : b.verdict with
  | some v =>
    simp only [frameStep, hv]
    exact ⟨fun hnone => (nomatch hnone), hs⟩
  | none =>
    simp only [frameStep, hv]
    refine ⟨fun hnone => ?_, atMostOneFault_slot f s (hb hv)⟩
    by_contra hfault
    rw [(slot_fault f s (hb hv)).1.mpr hfault] at hnone
    cases hnone

/-- A block raises one fault at most, since no slot runs after one that faults (R205). -/
theorem atMostOneFault_runFrames (fs : List FrameWord) (b : Block) (s : State) (hb : b.verdict = none → s.fault = 0#2)
    (hs : AtMostOneFault s) : AtMostOneFault (runFrames fs b s) := by
  induction fs generalizing b s with
  | nil => exact atMostOneFault_settle b [] s hs
  | cons f fs ih =>
    by_cases htodo : b.todo = 0
    · rw [runFrames_done _ _ _ htodo]
      exact atMostOneFault_settle b _ s hs
    · rw [runFrames_cons f fs b s htodo]
      obtain ⟨hb', hs'⟩ := frameStep_atMostOneFault (f := f) hb hs
      exact ih _ _ hb' hs'

/-- The device raises one fault at most in a transition (R230). -/
theorem atMostOneFault_deviceStep {s t : State} (hs : s.fault = 0#2) (h : deviceStep s = .next t) :
    AtMostOneFault t := by
  rcases deviceStep_cases s t h with ⟨b, -, rfl⟩ | ⟨-, -, rfl⟩ | ⟨w, ws, -, -, ⟨i, -, hexec⟩ | ⟨e, -, rfl⟩⟩
  · exact atMostOneFault_runFrames s.frames b s (fun _ => hs) (.inl hs)
  · exact .inl hs
  · rcases exec_cases i _ t hexec with ⟨c, v, -, rfl⟩ | ⟨-, u, hu, rfl⟩ | ⟨n, -, rfl⟩
    · exact .inl hs
    · exact .inl ((writesRegisters_fault i _ u hu).trans hs)
    · exact atMostOneFault_runFrames s.frames _ { s with queue := ws } (fun _ => hs) (.inl hs)
  · rw [rejectWord]
    split
    · exact atMostOneFault_runFrames s.frames _ { s with queue := ws } (fun _ => hs) (.inl hs)
    · exact .inl hs

/-- Settles O49: the step looks at the FAULT bits after the transition, and at most one is set there. -/
theorem faultIsTheOutcomeOfItsStep : Obligations.FaultIsTheOutcomeOfItsStep := by
  unfold Obligations.FaultIsTheOutcomeOfItsStep
  intro s t hs h
  refine ⟨fun ht => step_of_deviceStep h (ht.trans hs.symm), fun ht => ?_⟩
  obtain h0 | ⟨k, hk⟩ := atMostOneFault_deviceStep hs h
  · exact absurd h0 ht
  · exact ⟨k, hk, (step_fault_iff s k).mpr ⟨t, h, (raisedFault_eq_some_iff s t k).mpr ⟨hs, hk⟩⟩⟩

/-- A step from a state without a fault that answers a state has raised none (R234). -/
theorem faultFree_step {s t : State} (hs : FaultFree s) (h : step s = .next t) : FaultFree t := by
  by_contra ht
  obtain ⟨-, hfaulted⟩ := faultIsTheOutcomeOfItsStep s t hs (deviceStep_of_step s t h)
  obtain ⟨k, -, hk⟩ := hfaulted ht
  rw [h] at hk
  cases hk

/-- A run of n + 1 steps that ends in a state is a step and a run of n from there. -/
theorem step_of_run {M : Host.Core} {n : Nat} {s t : M.State} (h : M.run (n + 1) s = .next t) :
    ∃ u, M.step s = .next u ∧ M.run n u = .next t := by
  rw [Host.Core.run] at h
  split at h
  case h_1 u hu => exact ⟨u, hu, h⟩
  all_goals cases h

/-- Settles O50, by induction on the number of steps. -/
theorem noRunEndsFaulted : Obligations.NoRunEndsFaulted := by
  unfold Obligations.NoRunEndsFaulted
  intro n
  induction n with
  | zero =>
    intro s t hs h
    exact Host.Outcome.next.inj h ▸ hs
  | succ n ih =>
    intro s t hs h
    obtain ⟨u, hstep, hrun⟩ := step_of_run h
    exact ih u t (faultFree_step hs hstep) hrun

end Sys2Proof.Machine

/-! Exceptions and events (60_exceptions.md): the idle device, the outcome of every step, and what alone raises a fault
(R230, R233, R234, R237, R245). -/

namespace Sys2Proof.Machine

open Sys2Proof.Safety

/-! The idle device and the outcome of a step (R245, R234). -/

/-- With no command in progress and an empty queue the device stays where it is (R245). -/
theorem deviceStep_idle {s : State} (hp : s.inProgress = none) (hq : s.queue = []) : deviceStep s = .next s := by
  simp only [deviceStep, hp, fetch, hq]

/-- Settles O6: the device stays where it is, so no FAULT bit changes and the step answers that state. -/
theorem idleStepKeepsState : Obligations.IdleStepKeepsState := by
  unfold Obligations.IdleStepKeepsState
  intro s hp hq
  exact step_of_deviceStep (deviceStep_idle hp hq) rfl

/-- Settles O7: the device always goes on, and the step answers its state or the fault raised on the way there. -/
theorem stepAnswersNextOrItsFault : Obligations.StepAnswersNextOrItsFault := by
  unfold Obligations.StepAnswersNextOrItsFault
  intro s
  obtain ⟨t, h⟩ := deviceStep_next s
  exact ⟨t, h, fun hnone => (step_next_iff s t).mpr ⟨h, hnone⟩, fun k hk => (step_fault_iff s k).mpr ⟨t, h, hk⟩⟩

/-! What raises a fault (R230, R233, R237). -/

/-- A command leaves the FAULT bits alone, or is a PROCESS_BLOCK (R230). -/
theorem exec_keeps_fault_or_processBlock {i : Instr} {s t : State} (h : exec i s = .next t) :
    t.fault = s.fault ∨ ∃ n, i = .processBlock n := by
  rcases exec_cases i s t h with ⟨c, v, -, rfl⟩ | ⟨-, u, hu, rfl⟩ | ⟨n, hi, -⟩
  · exact .inl rfl
  · exact .inl (writesRegisters_fault i s u hu)
  · exact .inr ⟨n, hi⟩

/-- A command on a device without a fault raises one at most (R233). -/
theorem atMostOneFault_exec {i : Instr} {s t : State} (hs : s.fault = 0#2) (h : exec i s = .next t) :
    AtMostOneFault t := by
  rcases exec_keeps_fault_or_processBlock h with hsame | ⟨n, rfl⟩
  · exact .inl (hsame.trans hs)
  · rw [exec_processBlock, Host.Outcome.next.injEq] at h
    exact h ▸ atMostOneFault_runFrames s.frames (blockOf n s) s (fun _ => hs) (.inl hs)

/-- Without a fault before and with one bit set at most after, none was raised exactly when FAULT is 0 after (R233). -/
theorem raisedFault_eq_none_iff {s t : State} (hs : s.fault = 0#2) (ht : AtMostOneFault t) :
    raisedFault s t = none ↔ t.fault = 0#2 := by
  refine ⟨fun hnone => ?_, fun h0 => raisedFault_same s t (h0.trans hs.symm)⟩
  obtain h0 | ⟨k, hk⟩ := ht
  · exact h0
  · rw [(raisedFault_eq_some_iff s t k).mpr ⟨hs, hk⟩] at hnone
    cases hnone

/-- A block that raised a fault, with its frames at hand, answers FAULTED with DATA 0 (R205, R80). -/
theorem exec_processBlock_answers_faulted {n : U32} {s t : State} (hs : s.fault = 0#2) (hn : n.toNat ≤ s.frames.length)
    (h : exec (.processBlock n) s = .next t) (ht : t.fault ≠ 0#2) :
    t.responses = s.responses ++ [0x0300000000000000#64] := by
  obtain ⟨b, u, -, hfault, hverdict, hexec⟩ := execProcessBlock_unfaulted n s hs hn
  obtain rfl := Host.Outcome.next.inj (hexec.symm.trans h)
  have hfaulted : b.verdict = some .faulted := hverdict.resolve_left fun hnone => ht (hfault.mp hnone)
  exact congrArg (s.responses ++ [·]) (response_of_faulted b hfaulted)

/-- Settles O19: a command sets one FAULT bit at most, one that sets a bit is a block, and such a block answers FAULTED. -/
theorem onlyBlocksRaiseFaults : Obligations.OnlyBlocksRaiseFaults := by
  unfold Obligations.OnlyBlocksRaiseFaults
  intro i s t hs h
  have hraised := raisedFault_eq_none_iff hs (atMostOneFault_exec hs h)
  refine ⟨hraised, fun hne => ?_⟩
  obtain hsame | ⟨n, rfl⟩ := exec_keeps_fault_or_processBlock h
  · exact absurd (raisedFault_same s t hsame) hne
  · exact ⟨n, rfl, fun hn => exec_processBlock_answers_faulted hs hn h (mt hraised.mpr hne)⟩

end Sys2Proof.Machine

/-! Reset and hazards (70_reset_and_hazards.md): the reset values (R260, R261), a control input that is not finite (R268),
and the silence before a capture (R263, R266). -/

namespace Sys2Proof.Machine

open Sys2Proof.Safety

/-! Reset (R260, R261). -/

/-- An empty table reads as +0.0 everywhere (R100). -/
theorem memRead_of_table_nil (i : Int) {s : State} (h : s.table = []) : memRead i s = 0#32 := by
  rw [memRead, h, tableGet]

/-- Settles O14: the table is empty, MASK is SIZE - 1, and every other element stands in `State.reset` as R260 lists it. -/
theorem resetStateIsTheSpecs : Obligations.ResetStateIsTheSpecs := by
  unfold Obligations.ResetStateIsTheSpecs
  have hmask : State.reset.mask = 1023#32 := by decide
  exact ⟨rfl, hmask, fun x => memRead_of_table_nil x rfl, rfl, rfl, rfl, rfl, rfl, rfl, rfl, rfl, rfl, rfl, rfl, rfl, rfl,
    rfl, rfl⟩

/-- Settles O16: `State.applyReset` takes every element of R260 from `State.reset`, and the table there is empty. -/
theorem resetClearsEverything : Obligations.ResetClearsEverything := by
  unfold Obligations.ResetClearsEverything
  intro s
  exact ⟨rfl, rfl, rfl, rfl, fun x => memRead_of_table_nil x rfl, rfl, rfl, rfl, rfl, rfl, rfl, rfl, rfl, rfl, rfl, rfl,
    rfl⟩

/-! A control input that is not finite (R268). -/

/-- A sum with an operand that is not finite is not finite. -/
theorem isFinite_fadd_eq_false (d : Nat) (a : F32) {b : F32} (h : isFinite b = false) :
    isFinite (fadd d a b) = false := by
  rw [Bool.eq_false_iff] at h ⊢
  exact fun hsum => h (finite_of_fadd d a b hsum).2

/-- An increment from an estimate that is not finite is not finite (R171). -/
theorem isFinite_increment_eq_false (d : Nat) {m : F32} (s : State) (h : isFinite m = false) :
    isFinite (increment d m s) = false := by
  rw [← isFinite_fabs, Bool.eq_false_iff] at h
  rw [Bool.eq_false_iff]
  exact fun hinc => h (finite_of_fmul d _ _ hinc).1

/-- A control input that is not finite gives an increment that is not finite, with the envelope on or off: the follower's
step ends by adding the input's magnitude (R147, R148, R268). -/
theorem isFinite_playbackIncrement_eq_false {f : FrameWord} (s : State) (h : isFinite (frameControl f) = false) :
    isFinite (playbackIncrement f s) = false := by
  refine isFinite_increment_eq_false _ s ?_
  split
  · exact isFinite_fadd_eq_false _ _ ((isFinite_fabs _).trans h)
  · exact h

/-- Settles O37: the increment is not finite, so neither is the advanced phase, and the slot faults after its output. -/
theorem nonfiniteControlRaisesAFault : Obligations.NonfiniteControlRaisesAFault := by
  unfold Obligations.NonfiniteControlRaisesAFault
  intro f fs s hf hc hmode hfr hx
  have hphase : ¬ isFinite (fadd (s.draws + 23) s.phase (playbackIncrement f s)) = true :=
    Bool.eq_false_iff.mp (isFinite_fadd_eq_false _ _ (isFinite_playbackIncrement_eq_false s hx))
  rw [exec_processBlock_one_idle hf hc hfr, playbackSample_of_some (interp_of_ne_three _ s hmode), beginPlayback_eq,
    settle_advance _ _ _ _ (by exact hf)]
  exact ⟨_, rfl, if_neg hphase, if_neg hphase, List.length_append⟩

/-! The kernels over a table of zeros (R173 to R175, R263). -/

/-- A product of a finite value and +0.0 is a zero of the value's sign (R10). -/
theorem fmul_zero_right (d : Nat) {a : F32} (ha : isFinite a = true) :
    fmul d a 0#32 = if signBit a then 0x80000000#32 else 0#32 := by
  have hsign : signBit 0#32 = false := by decide
  have hmag : magnitude 0#32 = 0 := by decide
  rw [fmul_finite d a _ ha (by decide), hsign, hmag, Nat.mul_zero]
  cases signBit a <;> decide

/-- +0.0 plus a zero of either sign is +0.0, so a product of a finite value and +0.0 adds nothing to +0.0 (R10). -/
theorem fadd_zero_fmul_zero (d e : Nat) {a : F32} (ha : isFinite a = true) : fadd d 0#32 (fmul e a 0#32) = 0#32 := by
  rw [fmul_zero_right e ha]
  split <;> rfl

/-- Linear2 between two zeros is +0.0 (R174). -/
theorem linear2_of_table_nil (d : Nat) (i : Int) {f : F32} {s : State} (hf : isFinite f = true) (h : s.table = []) :
    linear2 d i f s = 0#32 := by
  have hdiff : fsub d 0#32 0#32 = 0#32 := rfl
  simp only [linear2, memRead_of_table_nil _ h, hdiff]
  exact fadd_zero_fmul_zero _ _ hf

/-- Half of a fraction is finite (R10). -/
theorem isFinite_fmul_half (d : Nat) {f : F32} (hf : isFinite f = true) (hlt : magnitude f < scale) :
    isFinite (fmul d 0x3F000000#32 f) = true := by
  have hhalf : magnitude 0x3F000000#32 = 2 ^ 148 := by decide
  rw [fmul_finite d _ f (by decide) hf, hhalf]
  refine (round32_le_pow _ _ 298 0 (by norm_num) (by norm_num) ?_).1
  rw [scale] at hlt
  omega

/-- Cubic4 through four zeros is +0.0 at a fraction: sums, differences and constant multiples of +0.0 are +0.0, and the
fraction and its half are finite factors (R175). -/
theorem hermite_zero (d : Nat) {f : F32} (hf : isFinite f = true) (hlt : magnitude f < scale) :
    hermite d f 0#32 0#32 0#32 0#32 = 0#32 := by
  have hsum : ∀ e, fadd e 0#32 0#32 = 0#32 := fun _ => rfl
  have hdiff : ∀ e, fsub e 0#32 0#32 = 0#32 := fun _ => rfl
  have htwo : ∀ e, fmul e 0x40000000#32 0#32 = 0#32 := fun _ => rfl
  have hthree : ∀ e, fmul e 0x40400000#32 0#32 = 0#32 := fun _ => rfl
  have hfour : ∀ e, fmul e 0x40800000#32 0#32 = 0#32 := fun _ => rfl
  have hfive : ∀ e, fmul e 0x40A00000#32 0#32 = 0#32 := fun _ => rfl
  simp only [hermite, hsum, hdiff, htwo, hthree, hfour, hfive, fadd_zero_fmul_zero _ _ hf]
  exact fadd_zero_fmul_zero _ _ (isFinite_fmul_half _ hf hlt)

/-- The fraction of a phase within the table is finite and below 1 (R172, R38). -/
theorem phaseFraction_lt_one (d : Nat) {s : State} (h : Inv s) :
    isFinite (phaseFraction d s) = true ∧ magnitude (phaseFraction d s) < scale := by
  obtain ⟨k, hk, hsize⟩ := inv_size h
  obtain ⟨hvalue, hfin, -⟩ := fractionIsExact k d s hk hsize h.phase_finite h.phase_nonneg h.phase_lt
  have hpos : (0 : Int) < scale := by exact_mod_cast Nat.two_pow_pos 149
  have hnonneg := Int.emod_nonneg (scaled s.phase) hpos.ne'
  have hlt := Int.emod_lt_of_pos (scaled s.phase) hpos
  rw [← hvalue] at hnonneg hlt
  rw [scaled_of_nonneg _ hnonneg] at hlt
  exact ⟨hfin, by exact_mod_cast hlt⟩

/-- Over a table of zeros every kernel gives +0.0 (R176, R263). -/
theorem interp_of_table_nil (d : Nat) {s : State} (hinv : Inv s) (h : s.table = []) : interp d s = some 0#32 := by
  obtain ⟨hfin, hlt⟩ := phaseFraction_lt_one d hinv
  rw [interp_of_ne_three d s hinv.mode_legal, truncate, memRead_of_table_nil _ h, linear2_of_table_nil _ _ hfin h, cubic4]
  simp only [memRead_of_table_nil _ h, hermite_zero _ hfin hlt, ite_self]

/-! The silence before a capture (R263, R266). -/

/-- A playback sample sends the kernel's output and keeps the table and CAP_STATE, whether it advances or faults (R179,
R180). -/
theorem playbackSample_outputs {f : FrameWord} {s : State} {y : F32} (h : interp (s.draws + 4) s = some y) :
    (playbackSample f s).1.outputs = s.outputs ++ [y] ∧ (playbackSample f s).1.table = s.table ∧
      (playbackSample f s).1.capState = s.capState := by
  rw [playbackSample_of_some h, beginPlayback_frame]
  obtain ⟨-, heq⟩ | ⟨-, heq⟩ := advance_cases (s.draws + 23) (beginPlayback f s).1 (emit y _) <;> rw [heq]
  · exact ⟨rfl, rfl, rfl⟩
  · exact ⟨rfl, rfl, rfl⟩

/-- A device that holds no captured sample and takes none has sent only zeros since `sent`. -/
def Silent (sent : List F32) (s : State) : Prop :=
  Inv s ∧ s.table = [] ∧ s.capState = .idle ∧ ∃ j, s.outputs = sent ++ List.replicate j 0#32

/-- Idle, every slot is a playback sample, and over a table of zeros it sends one more zero. -/
theorem silent_slot (sent : List F32) (f : FrameWord) (s : State) (h : Silent sent s) : Silent sent (slot f s).1 := by
  obtain ⟨hinv, htable, hidle, j, hsent⟩ := h
  obtain ⟨houtputs, htable', hidle'⟩ := playbackSample_outputs (f := f) (interp_of_table_nil _ hinv htable)
  refine ⟨inv_slot f s hinv, ?_⟩
  rw [slot_idle f s hidle]
  refine ⟨htable'.trans htable, hidle'.trans hidle, j + 1, ?_⟩
  rw [houtputs, hsent, List.append_assoc, List.replicate_succ']

/-- The ports but for the outputs do not matter. -/
theorem silent_withPorts (sent : List F32) (q : List CommandWord) (b : Option Block) (fs : List FrameWord)
    (rs : List ResponseWord) (s : State) (h : Silent sent s) : Silent sent (withPorts q b fs rs s) :=
  ⟨inv_withPorts q b fs rs s h.1, h.2⟩

/-- Settles O38: the block's frames keep the silence that it starts in. -/
theorem outputIsSilentWithoutACapture : Obligations.OutputIsSilentWithoutACapture := by
  unfold Obligations.OutputIsSilentWithoutACapture
  intro n s t hinv htable hidle h
  rw [exec_processBlock, Host.Outcome.next.injEq] at h
  have hstart : Silent s.outputs s := ⟨hinv, htable, hidle, 0, (List.append_nil _).symm⟩
  obtain ⟨-, -, -, hsent⟩ :=
    runFrames_keeps (Silent s.outputs) (silent_slot _) (silent_withPorts _) s.frames (blockOf n s) s hstart
  exact h ▸ hsent

end Sys2Proof.Machine
